-- ==== Sys2Proof/Word.lean ====
section
/-! DEFINITION. The words the block moves: bytes, the 32-bit request word, the 64-bit integer port, and
the type of binary64 values (spec/00_scope.md section 4, spec/30_encoding.md rules R56 and R57). The
arithmetic on binary64 stands in Sys2Proof/Machine/Float.lean. -/

namespace Sys2Proof

/-- One byte on the wire. -/
abbrev Byte := BitVec 8

/-- A request word (rule R56: one 32-bit request word). -/
abbrev ReqWord := BitVec 32

/-- The 64-bit integer ports `A` and `ival` (rules R56, R57). -/
abbrev Word := BitVec 64

/-- A binary64 value. A finite value is its sign, its biased exponent (0 for zeros and subnormal
numbers) and its 52 fraction bits, so every finite binary64 number is exactly one term. There is ONE
`nan`: the spec leaves the bit pattern of a NaN open and no rule observes it (rule R158,
spec/93_implementation_defined.md I3, decision D7). DESIGN CHOICE, assumption log 3. -/
inductive F64 where
  | nan
  | inf (neg : Bool)
  | finite (neg : Bool) (exp : Fin 2047) (frac : BitVec 52)
  deriving DecidableEq, Repr

/-- `+0.0`, which is also what a response carries in an `fval` its operation does not set (rule R57). -/
abbrev F64.zero : F64 := .finite false 0 0

end Sys2Proof
end

