-- ==== Sys2Proof/Config.lean ====
section
/-! DEFINITION. The parameters of the block (spec/00_scope.md rule R8): their types, the two fixed
limits, and the free values. An OPEN parameter is a field of `Params` or of a register's `Descriptor`,
held in State and never written, so that a statement about every state is a statement about every
value of it; the spec's default values stand in Sys2Proof/Machine/Tables.lean. What the spec gives no
value at all is an opaque constant here. -/

namespace Sys2Proof

/-- `CHANNEL_MAX` of rule R8. -/
abbrev Config.channelMax : Nat := 4

/-- `BA_MAX` of rule R8: the longest byte string the data ports carry. -/
abbrev Config.baMax : Nat := 8

/-- A logical register, by the name spec/30_encoding.md rule R53 gives it; the four registers of one
kind are one constructor with the block's 0-based channel index. `other n` names a register that a
descriptor table other than the default may add. -/
inductive Reg where
  | refresh
  | ctrl
  | accCount
  | vacc (ch : Fin 4)
  | vbus (ch : Fin 4)
  | vsense (ch : Fin 4)
  | vbusAvg (ch : Fin 4)
  | vsenseAvg (ch : Fin 4)
  | vpower (ch : Fin 4)
  | smbusSettings
  | negPwrFsr
  | refreshG
  | refreshV
  | slow
  | ctrlAct
  | negPwrFsrAct
  | ctrlLat
  | negPwrFsrLat
  | accumConfig
  | alertStatus
  | slowAlert1
  | gpioAlert2
  | accFullnessLimits
  | ocLimit (ch : Fin 4)
  | ucLimit (ch : Fin 4)
  | opLimit (ch : Fin 4)
  | ovLimit (ch : Fin 4)
  | uvLimit (ch : Fin 4)
  | ocLimitNsamples
  | ucLimitNsamples
  | opLimitNsamples
  | ovLimitNsamples
  | uvLimitNsamples
  | alertEnable
  | accumConfigAct
  | accumConfigLat
  | productId
  | manufacturerId
  | revisionId
  | other (n : Nat)
  deriving DecidableEq, Repr

/-- The codec variants of rule R50. -/
inductive Codec where
  | void
  | u8
  | u16
  | u32
  | u56
  | pid
  | ba (n : Nat)
  deriving DecidableEq, Repr

/-- A Register Descriptor (rule R53: address, wire length, codec) of the logical register `reg`, with
its cacheable attribute (rule R55). -/
structure Descriptor where
  reg : Reg
  address : Byte
  wireLength : Nat
  codec : Codec
  cacheable : Bool
  deriving DecidableEq, Repr

/-- One row of `P_PRODUCT_TABLE` (rule R118). `channelCount` is 1..4 in a legal table. -/
structure Product where
  id : Byte
  channelCount : Fin 5
  isHighRes : Bool
  deriving DecidableEq, Repr

/-- The sample-mode classes of rule R100. -/
inductive ModeClass where
  | adaptive
  | sps1024
  | sps256
  | sps64
  | sps8
  | singleShot
  | sleep
  | fastBurst
  | reserved
  deriving DecidableEq, Repr

/-- `P_VRATIO_SCOPE`: which results the voltage ratio multiplies (rule R126). -/
inductive VRatioScope where
  | none
  | bus
  | all
  deriving DecidableEq, Repr

/-- `P_ACCMODE_REG`: which accumulator-config register the accumulator decode reads (decision D19). -/
inductive AccModeReg where
  | live
  | active
  | latched
  deriving DecidableEq, Repr

/-- The OPEN parameters of rule R8 that are not rows of the descriptor table. `smClass` is
`P_SAMPLE_MODE_CLASS`, one class for each 4-bit code. -/
structure Params where
  products : List Product
  smClass : Vector ModeClass 16
  reservedFs : F64
  code3Fsr : Bool
  vratioScope : VRatioScope
  accModeReg : AccModeReg
  fsIntDiv : Bool
  deriving DecidableEq, Repr

/-- The transport's opaque error payload (rules R33, R35): the block only hands it on, so a token that
tells payloads apart is all there is of it. -/
abbrev Payload := Nat

/-- What the transport answers to one transaction (rules R33, R34): a byte string of any length, or an
error. For a write every `ok` is `Ok` and its bytes are ignored. -/
inductive Answer where
  | ok (bytes : List Byte)
  | err (e : Payload)
  deriving DecidableEq, Repr, Inhabited

/-- FREE VALUE: the answer of the transport to the `n`-th transaction for which the state lists none.
The chip and the transport are outside the block and the spec relies on no law of theirs (rule R33,
decision D38), so nothing constrains it. Assumption log 2. -/
opaque Config.freeAnswer : Nat → Answer

/-- FREE VALUE: `P_REFRESH_DELAY`, which has no value in the spec (rule R8, decision D18). It only
labels the delay's place in the transaction order. Assumption log 4. -/
opaque Config.refreshDelay : Nat

end Sys2Proof
end

