-- ==== Sys2Proof/Syntax.lean ====
section
/-! DEFINITION. The operations of the block: one constructor per row of spec/opcode_table.json
(spec/30_encoding.md rule R59). A constructor carries the request-word fields its row reads, as the
8-bit fields they are (rule R63); the data operands `A`, `B`, `S` and `CAL` come from the request port. -/

namespace Sys2Proof

/-- An operation and the request-word fields it reads. -/
inductive Instr where
  -- codec operations (spec/40_codec.md)
  | decV
  | decU8
  | decU16
  | decU32
  | decU56
  | decPid
  | decBa (n : Byte)
  | encV
  | encU8
  | encU16
  | encU32
  | encU56
  | encPid
  | encBa (n : Byte)
  -- pipeline operations (spec/41_pipeline.md)
  | xbits (pos width : Byte)
  | sext16
  | sext32
  | sext56
  | i2fS
  | i2fU
  | fscale
  | cfgdec
  | accdec
  | smdec
  | actcnt (cap : Byte)
  | fsdec (cap : Byte)
  | scale (mode : Byte)
  -- descriptor and cache operations (spec/42_cache.md)
  | lookup (addr : Byte)
  | cread (addr : Byte)
  | cwrite (addr : Byte)
  | cinv (addr : Byte)
  | cvalid (addr : Byte)
  | cinvall
  | refresh
  | refreshG
  | refreshV
  | init
  -- telemetry operations (spec/43_telemetry.md)
  | getVbus (ch : Byte)
  | getVbusavg (ch : Byte)
  | getVsense (ch : Byte)
  | getVsenseavg (ch : Byte)
  | getCurrent (ch : Byte)
  | getCurrentavg (ch : Byte)
  | getPower (ch : Byte)
  | getVacc (ch : Byte)
  | getEnergy (ch : Byte)
  | getFs
  | lsbVbus (ch : Byte)
  | lsbVsense (ch : Byte)
  | lsbPower (ch : Byte)
  | getVcfg (ch : Byte)
  | getIcfg (ch : Byte)
  | getAccmode (ch : Byte)
  deriving DecidableEq, Repr

end Sys2Proof
end

