-- ==== Sys2Proof/WellFormed.lean ====
section
/-! DEFINITION. The checks on data whose type admits more than the spec does: an instruction's operand
fields (spec/30_encoding.md rule R63), the descriptor table (rules R14, R52, R54), the other parameters
(rules R100, R118). An instruction that fails its check still decodes and runs: the block answers it
with `OperandRange` or `IllegalOperation` (rules R75, R84, R99, R103). -/

namespace Sys2Proof

/-- The operand fields are in the domain rule R63 gives them. A channel index or a register address may
be any byte: whether the block has that channel or register depends on its state. -/
def Instr.wellFormed : Instr → Bool
  | .decBa n => n.toNat ≤ Config.baMax
  | .encBa n => n.toNat ≤ Config.baMax
  | .xbits pos width => pos.toNat ≤ 63 && width.toNat ≤ 64
  | .actcnt cap => 1 ≤ cap.toNat && cap.toNat ≤ Config.channelMax
  | .fsdec cap => 1 ≤ cap.toNat && cap.toNat ≤ Config.channelMax
  | .scale mode => mode.toNat < 8 && mode.toNat % 4 != 3
  | .decV | .decU8 | .decU16 | .decU32 | .decU56 | .decPid => true
  | .encV | .encU8 | .encU16 | .encU32 | .encU56 | .encPid => true
  | .sext16 | .sext32 | .sext56 | .i2fS | .i2fU | .fscale | .cfgdec | .accdec | .smdec => true
  | .lookup _ | .cread _ | .cwrite _ | .cinv _ | .cvalid _ => true
  | .cinvall | .refresh | .refreshG | .refreshV | .init | .getFs => true
  | .getVbus _ | .getVbusavg _ | .getVsense _ | .getVsenseavg _ | .getCurrent _ => true
  | .getCurrentavg _ | .getPower _ | .getVacc _ | .getEnergy _ => true
  | .lsbVbus _ | .lsbVsense _ | .lsbPower _ | .getVcfg _ | .getIcfg _ | .getAccmode _ => true

/-- The wire length `L_c` of a codec (rule R50). -/
def Codec.wireLength : Codec → Nat
  | .void => 0
  | .u8 => 1
  | .u16 => 2
  | .u32 => 4
  | .u56 => 7
  | .pid => 1
  | .ba n => n

/-- The codecs whose value is an integer: every codec but `VOID` and `BA(n)` (rule R50). -/
def Codec.isInt : Codec → Bool
  | .void => false
  | .u8 => true
  | .u16 => true
  | .u32 => true
  | .u56 => true
  | .pid => true
  | .ba _ => false

/-- Rule R52 (the wire length is the codec's encoded size), and a byte-array register's string fits the
data ports (rules R56, R57). -/
def Descriptor.legal (d : Descriptor) : Bool :=
  d.wireLength == d.codec.wireLength && d.wireLength ≤ Config.baMax

/-- The registers the rules name, each with the codec that rule R54 fixes for it. -/
def namedRegs : List (Reg × Codec) :=
  [(.refresh, .void), (.refreshG, .void), (.refreshV, .void), (.productId, .pid),
   (.ctrlLat, .u16), (.negPwrFsrLat, .u16)] ++
  (List.finRange 4).flatMap fun ch =>
    [(.vacc ch, .u56), (.vbus ch, .u16), (.vsense ch, .u16), (.vbusAvg ch, .u16),
     (.vsenseAvg ch, .u16), (.vpower ch, .u32)]

/-- The three registers `P_ACCMODE_REG` may name (decision D19); rule R26 asks only for 8 bits or more. -/
def accModeRegs : List Reg := [.accumConfig, .accumConfigAct, .accumConfigLat]

/-- A legal value of `P_DESCRIPTOR_TABLE`: every row is legal (rule R52), one logical register has one
row and one address (rule R14), and every register a rule names has its row (rules R53, R54, R106). -/
def tableLegal (t : List Descriptor) : Bool :=
  t.all Descriptor.legal &&
  decide ((t.map (·.address)).Nodup) && decide ((t.map (·.reg)).Nodup) &&
  namedRegs.all (fun rc => t.any fun d => d.reg == rc.1 && d.codec == rc.2) &&
  accModeRegs.all (fun r => t.any fun d => d.reg == r && d.codec.isInt)

/-- How many of the 16 codes a sample-mode map puts in class `c`. -/
def classCount (m : Vector ModeClass 16) (c : ModeClass) : Nat := m.toList.count c

/-- Legal values of the other parameters: a known product has 1 to 4 channels (rules R8, R118) and one
row; the sample-mode map has the class counts that rule R100 asks of any map, a fast or burst code among them
(one or two: which of the two is not in the source, N3). -/
def Params.legal (p : Params) : Bool :=
  p.products.all (fun q => q.channelCount.val != 0) &&
  decide ((p.products.map (·.id)).Nodup) &&
  classCount p.smClass .adaptive == 4 && classCount p.smClass .sps1024 == 1 &&
  classCount p.smClass .sps256 == 1 && classCount p.smClass .sps64 == 1 &&
  classCount p.smClass .sps8 == 1 && classCount p.smClass .sleep == 1 &&
  classCount p.smClass .singleShot == 2 && 1 ≤ classCount p.smClass .fastBurst

end Sys2Proof
end

