-- ==== Sys2Proof/Decode.lean ====
section
/-! DEFINITION. The decoder of request words, total over all 32-bit words and rejecting by name
(spec/30_encoding.md rules R56 to R63), and after it the encoder. A request word has no byte order: it
arrives whole on the request port (rule R56). -/

namespace Sys2Proof

/-- Why a request word names no operation (rule R61). -/
inductive DecodeError where
  /-- `OPC` is reserved (rule R60). -/
  | reservedOpcode
  /-- A must-be-zero field of the operation's row is not zero (rule R58). -/
  | nonzeroField
  deriving DecidableEq, Repr

/-- `OPC`, bits 31:24 (rule R56). -/
def ReqWord.opc (w : ReqWord) : Byte := w.extractLsb' 24 8
/-- `CH`, bits 23:16 (rule R56). -/
def ReqWord.ch (w : ReqWord) : Byte := w.extractLsb' 16 8
/-- `ADDR`, bits 15:8 (rule R56). -/
def ReqWord.addr (w : ReqWord) : Byte := w.extractLsb' 8 8
/-- `ARG`, bits 7:0 (rule R56). -/
def ReqWord.arg (w : ReqWord) : Byte := w.extractLsb' 0 8

/-- The word with these four fields (rule R56). -/
def packWord (opc ch addr arg : Byte) : ReqWord := opc ++ ch ++ addr ++ arg

/-- A row that reads no field: `CH`, `ADDR` and `ARG` must be zero (rule R58). -/
def rowNone (w : ReqWord) (i : Instr) : Except DecodeError Instr :=
  if ReqWord.ch w = 0 ∧ ReqWord.addr w = 0 ∧ ReqWord.arg w = 0 then .ok i
  else .error .nonzeroField

/-- A row that reads `ARG` only. -/
def rowArg (w : ReqWord) (i : Byte → Instr) : Except DecodeError Instr :=
  if ReqWord.ch w = 0 ∧ ReqWord.addr w = 0 then .ok (i (ReqWord.arg w))
  else .error .nonzeroField

/-- A row that reads `ADDR` only. -/
def rowAddr (w : ReqWord) (i : Byte → Instr) : Except DecodeError Instr :=
  if ReqWord.ch w = 0 ∧ ReqWord.arg w = 0 then .ok (i (ReqWord.addr w))
  else .error .nonzeroField

/-- A row that reads `ADDR` and `ARG` (`XBITS`). -/
def rowAddrArg (w : ReqWord) (i : Byte → Byte → Instr) : Except DecodeError Instr :=
  if ReqWord.ch w = 0 then .ok (i (ReqWord.addr w) (ReqWord.arg w))
  else .error .nonzeroField

/-- A row that reads `CH` only. -/
def rowCh (w : ReqWord) (i : Byte → Instr) : Except DecodeError Instr :=
  if ReqWord.addr w = 0 ∧ ReqWord.arg w = 0 then .ok (i (ReqWord.ch w))
  else .error .nonzeroField

/-- Rule R61: `OPC` first, then the must-be-zero fields of its row in rule R59's table. `SCALE` reads
its whole `ARG` as its mode; the reserved modes are its own operand check (rule R99). -/
def decode (w : ReqWord) : Except DecodeError Instr :=
  match (ReqWord.opc w).toNat with
  | 0x01 => rowNone w .decV
  | 0x02 => rowNone w .decU8
  | 0x03 => rowNone w .decU16
  | 0x04 => rowNone w .decU32
  | 0x05 => rowNone w .decU56
  | 0x06 => rowNone w .decPid
  | 0x07 => rowArg w .decBa
  | 0x09 => rowNone w .encV
  | 0x0A => rowNone w .encU8
  | 0x0B => rowNone w .encU16
  | 0x0C => rowNone w .encU32
  | 0x0D => rowNone w .encU56
  | 0x0E => rowNone w .encPid
  | 0x0F => rowArg w .encBa
  | 0x10 => rowAddrArg w .xbits
  | 0x11 => rowNone w .sext16
  | 0x12 => rowNone w .sext32
  | 0x13 => rowNone w .sext56
  | 0x14 => rowNone w .i2fS
  | 0x15 => rowNone w .i2fU
  | 0x16 => rowNone w .fscale
  | 0x17 => rowNone w .cfgdec
  | 0x18 => rowNone w .accdec
  | 0x19 => rowNone w .smdec
  | 0x1A => rowArg w .actcnt
  | 0x1B => rowArg w .fsdec
  | 0x1C => rowArg w .scale
  | 0x20 => rowAddr w .lookup
  | 0x21 => rowAddr w .cread
  | 0x22 => rowAddr w .cwrite
  | 0x23 => rowAddr w .cinv
  | 0x24 => rowAddr w .cvalid
  | 0x25 => rowNone w .cinvall
  | 0x26 => rowNone w .refresh
  | 0x27 => rowNone w .refreshG
  | 0x28 => rowNone w .refreshV
  | 0x2F => rowNone w .init
  | 0x30 => rowCh w .getVbus
  | 0x31 => rowCh w .getVbusavg
  | 0x32 => rowCh w .getVsense
  | 0x33 => rowCh w .getVsenseavg
  | 0x34 => rowCh w .getCurrent
  | 0x35 => rowCh w .getCurrentavg
  | 0x36 => rowCh w .getPower
  | 0x37 => rowCh w .getVacc
  | 0x38 => rowCh w .getEnergy
  | 0x39 => rowNone w .getFs
  | 0x3A => rowCh w .lsbVbus
  | 0x3B => rowCh w .lsbVsense
  | 0x3C => rowCh w .lsbPower
  | 0x3D => rowCh w .getVcfg
  | 0x3E => rowCh w .getIcfg
  | 0x3F => rowCh w .getAccmode
  | _ => .error .reservedOpcode

/-- The request word of an operation, from the rows of rule R59's table. -/
def encode : Instr → ReqWord
  | .decV => packWord 0x01 0 0 0
  | .decU8 => packWord 0x02 0 0 0
  | .decU16 => packWord 0x03 0 0 0
  | .decU32 => packWord 0x04 0 0 0
  | .decU56 => packWord 0x05 0 0 0
  | .decPid => packWord 0x06 0 0 0
  | .decBa n => packWord 0x07 0 0 n
  | .encV => packWord 0x09 0 0 0
  | .encU8 => packWord 0x0A 0 0 0
  | .encU16 => packWord 0x0B 0 0 0
  | .encU32 => packWord 0x0C 0 0 0
  | .encU56 => packWord 0x0D 0 0 0
  | .encPid => packWord 0x0E 0 0 0
  | .encBa n => packWord 0x0F 0 0 n
  | .xbits pos width => packWord 0x10 0 pos width
  | .sext16 => packWord 0x11 0 0 0
  | .sext32 => packWord 0x12 0 0 0
  | .sext56 => packWord 0x13 0 0 0
  | .i2fS => packWord 0x14 0 0 0
  | .i2fU => packWord 0x15 0 0 0
  | .fscale => packWord 0x16 0 0 0
  | .cfgdec => packWord 0x17 0 0 0
  | .accdec => packWord 0x18 0 0 0
  | .smdec => packWord 0x19 0 0 0
  | .actcnt cap => packWord 0x1A 0 0 cap
  | .fsdec cap => packWord 0x1B 0 0 cap
  | .scale mode => packWord 0x1C 0 0 mode
  | .lookup addr => packWord 0x20 0 addr 0
  | .cread addr => packWord 0x21 0 addr 0
  | .cwrite addr => packWord 0x22 0 addr 0
  | .cinv addr => packWord 0x23 0 addr 0
  | .cvalid addr => packWord 0x24 0 addr 0
  | .cinvall => packWord 0x25 0 0 0
  | .refresh => packWord 0x26 0 0 0
  | .refreshG => packWord 0x27 0 0 0
  | .refreshV => packWord 0x28 0 0 0
  | .init => packWord 0x2F 0 0 0
  | .getVbus ch => packWord 0x30 ch 0 0
  | .getVbusavg ch => packWord 0x31 ch 0 0
  | .getVsense ch => packWord 0x32 ch 0 0
  | .getVsenseavg ch => packWord 0x33 ch 0 0
  | .getCurrent ch => packWord 0x34 ch 0 0
  | .getCurrentavg ch => packWord 0x35 ch 0 0
  | .getPower ch => packWord 0x36 ch 0 0
  | .getVacc ch => packWord 0x37 ch 0 0
  | .getEnergy ch => packWord 0x38 ch 0 0
  | .getFs => packWord 0x39 0 0 0
  | .lsbVbus ch => packWord 0x3A ch 0 0
  | .lsbVsense ch => packWord 0x3B ch 0 0
  | .lsbPower ch => packWord 0x3C ch 0 0
  | .getVcfg ch => packWord 0x3D ch 0 0
  | .getIcfg ch => packWord 0x3E ch 0 0
  | .getAccmode ch => packWord 0x3F ch 0 0

/-- A row's bit pattern in spec/opcode_table.json: the bits under `mask` are those of `pattern`. -/
structure TableRow where
  pattern : ReqWord
  mask : ReqWord
  deriving DecidableEq, Repr

/-- The row of an operation, the numbers as spec/opcode_table.json has them. -/
def Instr.tableRow : Instr → TableRow
  | .decV => ⟨0x01000000, 0xFFFFFFFF⟩
  | .decU8 => ⟨0x02000000, 0xFFFFFFFF⟩
  | .decU16 => ⟨0x03000000, 0xFFFFFFFF⟩
  | .decU32 => ⟨0x04000000, 0xFFFFFFFF⟩
  | .decU56 => ⟨0x05000000, 0xFFFFFFFF⟩
  | .decPid => ⟨0x06000000, 0xFFFFFFFF⟩
  | .decBa _ => ⟨0x07000000, 0xFFFFFF00⟩
  | .encV => ⟨0x09000000, 0xFFFFFFFF⟩
  | .encU8 => ⟨0x0A000000, 0xFFFFFFFF⟩
  | .encU16 => ⟨0x0B000000, 0xFFFFFFFF⟩
  | .encU32 => ⟨0x0C000000, 0xFFFFFFFF⟩
  | .encU56 => ⟨0x0D000000, 0xFFFFFFFF⟩
  | .encPid => ⟨0x0E000000, 0xFFFFFFFF⟩
  | .encBa _ => ⟨0x0F000000, 0xFFFFFF00⟩
  | .xbits _ _ => ⟨0x10000000, 0xFFFF0000⟩
  | .sext16 => ⟨0x11000000, 0xFFFFFFFF⟩
  | .sext32 => ⟨0x12000000, 0xFFFFFFFF⟩
  | .sext56 => ⟨0x13000000, 0xFFFFFFFF⟩
  | .i2fS => ⟨0x14000000, 0xFFFFFFFF⟩
  | .i2fU => ⟨0x15000000, 0xFFFFFFFF⟩
  | .fscale => ⟨0x16000000, 0xFFFFFFFF⟩
  | .cfgdec => ⟨0x17000000, 0xFFFFFFFF⟩
  | .accdec => ⟨0x18000000, 0xFFFFFFFF⟩
  | .smdec => ⟨0x19000000, 0xFFFFFFFF⟩
  | .actcnt _ => ⟨0x1A000000, 0xFFFFFF00⟩
  | .fsdec _ => ⟨0x1B000000, 0xFFFFFF00⟩
  | .scale _ => ⟨0x1C000000, 0xFFFFFFF8⟩
  | .lookup _ => ⟨0x20000000, 0xFFFF00FF⟩
  | .cread _ => ⟨0x21000000, 0xFFFF00FF⟩
  | .cwrite _ => ⟨0x22000000, 0xFFFF00FF⟩
  | .cinv _ => ⟨0x23000000, 0xFFFF00FF⟩
  | .cvalid _ => ⟨0x24000000, 0xFFFF00FF⟩
  | .cinvall => ⟨0x25000000, 0xFFFFFFFF⟩
  | .refresh => ⟨0x26000000, 0xFFFFFFFF⟩
  | .refreshG => ⟨0x27000000, 0xFFFFFFFF⟩
  | .refreshV => ⟨0x28000000, 0xFFFFFFFF⟩
  | .init => ⟨0x2F000000, 0xFFFFFFFF⟩
  | .getVbus _ => ⟨0x30000000, 0xFF00FFFF⟩
  | .getVbusavg _ => ⟨0x31000000, 0xFF00FFFF⟩
  | .getVsense _ => ⟨0x32000000, 0xFF00FFFF⟩
  | .getVsenseavg _ => ⟨0x33000000, 0xFF00FFFF⟩
  | .getCurrent _ => ⟨0x34000000, 0xFF00FFFF⟩
  | .getCurrentavg _ => ⟨0x35000000, 0xFF00FFFF⟩
  | .getPower _ => ⟨0x36000000, 0xFF00FFFF⟩
  | .getVacc _ => ⟨0x37000000, 0xFF00FFFF⟩
  | .getEnergy _ => ⟨0x38000000, 0xFF00FFFF⟩
  | .getFs => ⟨0x39000000, 0xFFFFFFFF⟩
  | .lsbVbus _ => ⟨0x3A000000, 0xFF00FFFF⟩
  | .lsbVsense _ => ⟨0x3B000000, 0xFF00FFFF⟩
  | .lsbPower _ => ⟨0x3C000000, 0xFF00FFFF⟩
  | .getVcfg _ => ⟨0x3D000000, 0xFF00FFFF⟩
  | .getIcfg _ => ⟨0x3E000000, 0xFF00FFFF⟩
  | .getAccmode _ => ⟨0x3F000000, 0xFF00FFFF⟩

/-- The instruction the decoder reads from the `nbits` bits `w`, every bit above them zero. A request is
one 32-bit word (rule R62), so there is no order of words or bytes to lay out. -/
def decodeTableWord (nbits w : Nat) : Option Instr :=
  (decode (BitVec.ofNat 32 (w % 2 ^ nbits))).toOption

end Sys2Proof
end

