-- ==== Sys2Proof/Machine/Tables.lean ====
section
/-! DEFINITION. The default values of the OPEN parameters (spec/00_scope.md rule R8): the descriptor
table of rule R53 with its cacheable column (rule R55), the product table of rule R118, the sample-mode
map of rule R100. Every address, every product byte and every sample-mode code below is the spec's
`[from general knowledge, not in source]` (spec/93_implementation_defined.md G1, G2, G3). -/

namespace Sys2Proof.Machine

/-- Rows 0x00 to 0x1A of rule R53's table: commands, control, accumulators and measurements. -/
def defaultTableLow : List Descriptor :=
  [⟨.refresh, 0x00, 0, .void, false⟩,
   ⟨.ctrl, 0x01, 2, .u16, false⟩,
   ⟨.accCount, 0x02, 4, .u32, true⟩,
   ⟨.vacc 0, 0x03, 7, .u56, true⟩,
   ⟨.vacc 1, 0x04, 7, .u56, true⟩,
   ⟨.vacc 2, 0x05, 7, .u56, true⟩,
   ⟨.vacc 3, 0x06, 7, .u56, true⟩,
   ⟨.vbus 0, 0x07, 2, .u16, true⟩,
   ⟨.vbus 1, 0x08, 2, .u16, true⟩,
   ⟨.vbus 2, 0x09, 2, .u16, true⟩,
   ⟨.vbus 3, 0x0A, 2, .u16, true⟩,
   ⟨.vsense 0, 0x0B, 2, .u16, true⟩,
   ⟨.vsense 1, 0x0C, 2, .u16, true⟩,
   ⟨.vsense 2, 0x0D, 2, .u16, true⟩,
   ⟨.vsense 3, 0x0E, 2, .u16, true⟩,
   ⟨.vbusAvg 0, 0x0F, 2, .u16, true⟩,
   ⟨.vbusAvg 1, 0x10, 2, .u16, true⟩,
   ⟨.vbusAvg 2, 0x11, 2, .u16, true⟩,
   ⟨.vbusAvg 3, 0x12, 2, .u16, true⟩,
   ⟨.vsenseAvg 0, 0x13, 2, .u16, true⟩,
   ⟨.vsenseAvg 1, 0x14, 2, .u16, true⟩,
   ⟨.vsenseAvg 2, 0x15, 2, .u16, true⟩,
   ⟨.vsenseAvg 3, 0x16, 2, .u16, true⟩,
   ⟨.vpower 0, 0x17, 4, .u32, true⟩,
   ⟨.vpower 1, 0x18, 4, .u32, true⟩,
   ⟨.vpower 2, 0x19, 4, .u32, true⟩,
   ⟨.vpower 3, 0x1A, 4, .u32, true⟩]

/-- Rows 0x1B to 0x24: settings, the other two commands, active and latched copies. -/
def defaultTableConfig : List Descriptor :=
  [⟨.smbusSettings, 0x1B, 1, .u8, false⟩,
   ⟨.negPwrFsr, 0x1C, 2, .u16, false⟩,
   ⟨.refreshG, 0x1D, 0, .void, false⟩,
   ⟨.refreshV, 0x1E, 0, .void, false⟩,
   ⟨.slow, 0x1F, 1, .u8, false⟩,
   ⟨.ctrlAct, 0x20, 2, .u16, true⟩,
   ⟨.negPwrFsrAct, 0x21, 2, .u16, true⟩,
   ⟨.ctrlLat, 0x22, 2, .u16, true⟩,
   ⟨.negPwrFsrLat, 0x23, 2, .u16, true⟩,
   ⟨.accumConfig, 0x24, 1, .u8, false⟩]

/-- Rows 0x25 to 0x42: the alert and limit registers. -/
def defaultTableAlert : List Descriptor :=
  [⟨.alertStatus, 0x25, 3, .ba 3, false⟩,
   ⟨.slowAlert1, 0x26, 3, .ba 3, false⟩,
   ⟨.gpioAlert2, 0x27, 3, .ba 3, false⟩,
   ⟨.accFullnessLimits, 0x28, 2, .ba 2, false⟩,
   ⟨.ocLimit 0, 0x29, 2, .ba 2, false⟩,
   ⟨.ocLimit 1, 0x2A, 2, .ba 2, false⟩,
   ⟨.ocLimit 2, 0x2B, 2, .ba 2, false⟩,
   ⟨.ocLimit 3, 0x2C, 2, .ba 2, false⟩,
   ⟨.ucLimit 0, 0x2D, 2, .ba 2, false⟩,
   ⟨.ucLimit 1, 0x2E, 2, .ba 2, false⟩,
   ⟨.ucLimit 2, 0x2F, 2, .ba 2, false⟩,
   ⟨.ucLimit 3, 0x30, 2, .ba 2, false⟩,
   ⟨.opLimit 0, 0x31, 3, .ba 3, false⟩,
   ⟨.opLimit 1, 0x32, 3, .ba 3, false⟩,
   ⟨.opLimit 2, 0x33, 3, .ba 3, false⟩,
   ⟨.opLimit 3, 0x34, 3, .ba 3, false⟩,
   ⟨.ovLimit 0, 0x35, 2, .ba 2, false⟩,
   ⟨.ovLimit 1, 0x36, 2, .ba 2, false⟩,
   ⟨.ovLimit 2, 0x37, 2, .ba 2, false⟩,
   ⟨.ovLimit 3, 0x38, 2, .ba 2, false⟩,
   ⟨.uvLimit 0, 0x39, 2, .ba 2, false⟩,
   ⟨.uvLimit 1, 0x3A, 2, .ba 2, false⟩,
   ⟨.uvLimit 2, 0x3B, 2, .ba 2, false⟩,
   ⟨.uvLimit 3, 0x3C, 2, .ba 2, false⟩,
   ⟨.ocLimitNsamples, 0x3D, 1, .ba 1, false⟩,
   ⟨.ucLimitNsamples, 0x3E, 1, .ba 1, false⟩,
   ⟨.opLimitNsamples, 0x3F, 1, .ba 1, false⟩,
   ⟨.ovLimitNsamples, 0x40, 1, .ba 1, false⟩,
   ⟨.uvLimitNsamples, 0x41, 1, .ba 1, false⟩,
   ⟨.alertEnable, 0x42, 3, .ba 3, false⟩]

/-- Rows 0x43, 0x44 and 0xFD to 0xFF. -/
def defaultTableHigh : List Descriptor :=
  [⟨.accumConfigAct, 0x43, 1, .u8, true⟩,
   ⟨.accumConfigLat, 0x44, 1, .u8, true⟩,
   ⟨.productId, 0xFD, 1, .pid, false⟩,
   ⟨.manufacturerId, 0xFE, 1, .u8, false⟩,
   ⟨.revisionId, 0xFF, 1, .u8, false⟩]

/-- The default of `P_DESCRIPTOR_TABLE` and `P_CACHEABLE` (rules R53, R55). -/
def defaultTable : List Descriptor :=
  defaultTableLow ++ defaultTableConfig ++ defaultTableAlert ++ defaultTableHigh

/-- The default of `P_PRODUCT_TABLE` (rule R118). -/
def defaultProducts : List Product :=
  [⟨0x68, 1, false⟩, ⟨0x69, 2, false⟩, ⟨0x6A, 3, false⟩, ⟨0x6B, 4, false⟩,
   ⟨0x6C, 1, false⟩, ⟨0x6D, 2, false⟩,
   ⟨0x78, 1, true⟩, ⟨0x79, 2, true⟩, ⟨0x7A, 3, true⟩, ⟨0x7B, 4, true⟩,
   ⟨0x7C, 1, true⟩, ⟨0x7D, 2, true⟩]

/-- The default of `P_SAMPLE_MODE_CLASS` (rule R100), code 0x0 first. -/
def defaultSmClass : Vector ModeClass 16 :=
  #v[.adaptive, .adaptive, .adaptive, .adaptive,
     .sps1024, .sps256, .sps64, .sps8,
     .singleShot, .singleShot, .fastBurst, .fastBurst,
     .reserved, .reserved, .reserved, .sleep]

/-- Every OPEN parameter at the default of rule R8. -/
def defaultParams : Params where
  products := defaultProducts
  smClass := defaultSmClass
  reservedFs := .nan
  code3Fsr := true
  vratioScope := .bus
  accModeReg := .live
  fsIntDiv := false

end Sys2Proof.Machine
end

