-- ==== Sys2Proof/Machine/State.lean ====
section
/-! DEFINITION. Everything the block holds (spec/10_state.md), its request and response ports
(spec/30_encoding.md rules R56, R57), the transport as the block sees it (spec/20_memory.md rules R33,
R34) and the state after power-up (rules R29, R169). All of it is plain data. -/

namespace Sys2Proof.Machine

/-- A byte string that the request's data port carries: at most `BA_MAX` bytes (rules R8, R56). -/
abbrev PortString := { bytes : List Byte // bytes.length ≤ Config.baMax }

/-- A request (rule R56): the request word and the data operands `A`, `B`, `S` and `CAL`. -/
structure Request where
  word : ReqWord
  a : Word
  b : F64
  data : PortString
  cal : Vector F64 8
  deriving DecidableEq, Repr

/-- The bytes of the data operand `S`. -/
abbrev Request.str (r : Request) : List Byte := r.data.val

/-- A request port that nothing has driven: all zero. -/
def Request.idle : Request := ⟨0, 0, F64.zero, ⟨[], Nat.zero_le _⟩, Vector.replicate 8 F64.zero⟩

/-- A response (rule R57). A field its operation does not set is zero or empty; `payload` is the
transport's payload of a `TransportError` and of nothing else. -/
structure Response where
  status : BitVec 4 := 0
  ival : Word := 0
  fval : F64 := F64.zero
  tag : BitVec 2 := 0
  flag : Bool := false
  bytes : List Byte := []
  payload : Option Payload := none
  deriving DecidableEq, Repr

/-- The errors of rule R146, each with the info its response carries. -/
inductive Err where
  | transportError (e : Payload)
  | lengthMismatch (codecId expected got : Nat)
  | invalidChannel (ch : Byte)
  | unknownProductId (id : Byte)
  | unknownRegister (addr : Byte)
  | illegalOperation (word : ReqWord)
  | notInitialised
  | operandRange (v : Word)
  deriving DecidableEq, Repr

/-- The value of a Cache Register. An integer codec uses `ival` (a 7-byte register's whole 64 bits,
rule R14), `BA(n)` uses `bytes`, `VOID` neither; the part not used is zero or empty. -/
structure Value where
  ival : Word := 0
  bytes : List Byte := []
  deriving DecidableEq, Repr

/-- A Cache Register (rule R13): its descriptor, which holds the constant `cacheable`, its validity flag
and its value. -/
structure CacheReg where
  desc : Descriptor
  valid : Bool
  value : Value
  deriving DecidableEq, Repr

/-- The Cache Register of one descriptor before anything filled it. -/
def CacheReg.fresh (d : Descriptor) : CacheReg := ⟨d, false, {}⟩

/-- The handle record (rule R9). `channelCount` is 1..4 once `initialised` holds. -/
structure Handle where
  initialised : Bool
  productId : Byte
  isHighRes : Bool
  channelCount : Fin 5
  voltageRatio : Vector F64 4
  senseResistance : Vector F64 4
  deriving DecidableEq, Repr

/-- The handle at power-up: `initialised = false` (rule R29). No rule reads the other fields before an
INIT has written them; their zeros are DESIGN CHOICE, assumption log 5. -/
def Handle.reset : Handle :=
  ⟨false, 0, false, 0, Vector.replicate 4 F64.zero, Vector.replicate 4 F64.zero⟩

/-- One event on the bus: a transaction with what the transport answered (rules R33, R34), or the
blocking delay after a refresh command (rules R115, R176). -/
inductive BusEvent where
  | read (addr : Byte) (n : Nat) (result : Answer)
  | write (addr : Byte) (bytes : List Byte) (error : Option Payload)
  | delay (duration : Nat)
  deriving DecidableEq, Repr

/-- The block's state and its surroundings.

The spec's own state (spec/10_state.md): `handle` is the handle record and `cache` the Cache Register
file, one Cache Register for each row of `P_DESCRIPTOR_TABLE` in the table's order. `params` holds the
other OPEN parameters of rule R8. The port: `port` is the request being served.

The model's own fields, which stand for what is outside the block (assumption log 1, 2): `incoming`,
the requests the requester issues next, the first of them first; `answers`, what the transport answers
to the next transactions, the first of them first; `drawn`, how many transactions took the free answer
instead; `trace`, every bus event so far, and `responses`, every response so far, the LATEST first. -/
structure State where
  handle : Handle
  cache : List CacheReg
  params : Params
  port : Request
  incoming : List Request
  answers : List Answer
  drawn : Nat
  trace : List BusEvent
  responses : List Response
  deriving DecidableEq, Repr

/-- Why the model stops. No operation of the block does: an operation that fails answers an error
response, which is a next state (rule R159). -/
inductive Fault where
  /-- Raised by INIT, the refresh operations and the telemetry operations when the descriptor table has no
  row, with a codec of the kind the rule needs, for the register `r` that the rule names. Such a table is
  no legal value of `P_DESCRIPTOR_TABLE` (rules R53, R54, R106: a lookup by name always succeeds). Safe:
  the model stops where the spec says nothing. -/
  | noDescriptor (r : Reg)
  deriving DecidableEq, Repr

/-- Why the model gives an instruction no meaning. -/
inductive Refusal where
  /-- An instruction whose arm in Dispatch.lean has no meaning yet; there is none. Safe: the model stops. -/
  | notModelled (mnemonic : String)
  deriving DecidableEq, Repr

/-- What a meaning answers. -/
abbrev Out := Host.Outcome State Fault Refusal

/-- The block after power-up (rules R29, R169, R170): no handle, no valid Cache Register, waiting for its
first request, nothing read from the transport. The parameters are at the defaults of rule R8. -/
def State.reset : State where
  handle := Handle.reset
  cache := defaultTable.map CacheReg.fresh
  params := defaultParams
  port := Request.idle
  incoming := []
  answers := []
  drawn := 0
  trace := []
  responses := []

end Sys2Proof.Machine
end

