-- ==== Sys2Proof/Machine/Codecs.lean ====
section
/-! DEFINITION. The Codec Set (spec/40_codec.md section 1, spec/30_encoding.md rules R50, R51): for each
codec `Decode_c` from wire bytes and `Encode_c` to them. Every integer on the wire is big-endian
(spec/20_memory.md rule R37), in these two functions and nowhere else. -/

namespace Sys2Proof.Machine

/-- The codec id of rule R50's table. -/
def codecId : Codec → Nat
  | .void => 0
  | .u8 => 1
  | .u16 => 2
  | .u32 => 3
  | .u56 => 4
  | .pid => 5
  | .ba _ => 6

/-- The 64-bit number a byte string is, its first byte the most significant (rules R37, R51, and the
pseudocode of R73). DEDUCED, safe: rule R73's worked example places a byte elsewhere than its pseudocode and
is not followed (assumption log 23). -/
def fromBytes (s : List Byte) : Word := s.foldl (fun v b => (v <<< 8) ||| b.setWidth 64) 0

/-- The low `n` bytes of `v`, the most significant of them first (rules R37, R51, and the pseudocode of R80).
DEDUCED, safe: rule R80's worked example places a byte elsewhere than its pseudocode and is not followed
(assumption log 23). -/
def toBytes : Nat → Word → List Byte
  | 0, _ => []
  | n + 1, v => (v >>> (8 * n)).setWidth 8 :: toBytes n v

/-- `Decode_c(s)` (rules R66, R69 to R75): `LengthMismatch` unless `s` has exactly the wire length. -/
def decodeWire (c : Codec) (s : List Byte) : Except Err Value :=
  if s.length = c.wireLength then
    match c with
    | .void => .ok {}
    | .u8 => .ok { ival := fromBytes s }
    | .u16 => .ok { ival := fromBytes s }
    | .u32 => .ok { ival := fromBytes s }
    | .u56 => .ok { ival := fromBytes s }
    | .pid => .ok { ival := fromBytes s }
    | .ba _ => .ok { bytes := s }
  else .error (.lengthMismatch (codecId c) c.wireLength s.length)

/-- `Encode_c(v)` (rules R67, R76 to R82). The 7-byte codec takes the low seven bytes of its 64-bit value
and so drops the top one (rule R80). -/
def encodeWire (c : Codec) (v : Value) : List Byte :=
  match c with
  | .void => []
  | .u8 => toBytes 1 v.ival
  | .u16 => toBytes 2 v.ival
  | .u32 => toBytes 4 v.ival
  | .u56 => toBytes 7 v.ival
  | .pid => toBytes 1 v.ival
  | .ba _ => v.bytes

end Sys2Proof.Machine
end

