-- ==== Sys2Proof/Machine/Flags.lean ====
section
/-! DEFINITION. The block's flags. The validity flags of the Cache Registers are the only ones it holds
(spec/10_state.md rules R15, R22): this file reads, sets and clears them. The flags a telemetry operation
computes and forgets (`bipolar`, `fsr`, `bidirectional`) are the decodes of rules R85 and R87. -/

namespace Sys2Proof.Machine

/-- `C[r]`: the Cache Register of `r`, if the table has a row for it. -/
def State.cacheReg (s : State) (r : Reg) : Option CacheReg := s.cache.find? (·.desc.reg = r)

/-- `C[r].valid` (rule R113); a register without a row is never valid. -/
def State.valid (s : State) (r : Reg) : Bool :=
  match s.cacheReg r with
  | some c => c.valid
  | none => false

/-- `C[r].value` where `C[r].valid` holds; an invalid register's value is unreachable (rule R18). -/
def State.hit (s : State) (r : Reg) : Option Value :=
  match s.cacheReg r with
  | some c => if c.valid then some c.value else none
  | none => none

/-- `C[r].value <- v; C[r].valid <- true` (rules R108, R110). -/
def State.fill (s : State) (r : Reg) (v : Value) : State :=
  { s with cache := s.cache.map fun c => if c.desc.reg = r then { c with valid := true, value := v } else c }

/-- `C[r].valid <- false`; the value is not touched (rule R112). -/
def State.invalidate (s : State) (r : Reg) : State :=
  { s with cache := s.cache.map fun c => if c.desc.reg = r then { c with valid := false } else c }

/-- The Cache Invalidation Set (rule R20): every cacheable register, in descriptor-table order. -/
def State.invSet (s : State) : List Reg := (s.cache.filter (·.desc.cacheable)).map (·.desc.reg)

/-- `InvalidateAll()` of rule R114: `valid` cleared for every register of the Cache Invalidation Set. -/
def State.invalidateAll (s : State) : State :=
  { s with cache := s.cache.map fun c => if c.desc.cacheable then { c with valid := false } else c }

/-- INIT's reset of the whole cache: `C[r].valid <- false` for every `r` (rule R119). -/
def State.clearValid (s : State) : State :=
  { s with cache := s.cache.map fun c => { c with valid := false } }

/-- The two flags of a 2-bit configuration code. -/
structure CfgFlags where
  bipolar : Bool
  fsr : Bool
  deriving DecidableEq, Repr

/-- `CfgDecode(code)` of rule R85; code 3's `fsr` is `P_CODE3_FSR` (decision D9). -/
def cfgDecode (code3Fsr : Bool) (code : BitVec 2) : CfgFlags :=
  ⟨code = 1 || code = 2, if code = 2 then false else if code = 3 then code3Fsr else true⟩

/-- The LSB an accumulator mode scales by (rule R87). -/
inductive LsbKind where
  | power
  | vsense
  | vbus
  | zero
  deriving DecidableEq, Repr

/-- The id of an LSB kind in `ACCDEC`'s result (rule R88). -/
def LsbKind.id : LsbKind → Word
  | .power => 0
  | .vsense => 1
  | .vbus => 2
  | .zero => 3

/-- What an accumulator mode decodes to (rule R87). -/
structure AccMode where
  tag : BitVec 2
  kind : LsbKind
  bidirectional : Bool
  deriving DecidableEq, Repr

/-- `AccDecode(mode, vbip, ibip)` of rule R87. Mode 3 has the zero scale factor and an unsigned raw value
(conflict C1, decision D8). -/
def accDecode (mode : BitVec 2) (vbip ibip : Bool) : AccMode :=
  if mode = 0 then ⟨0, .power, vbip || ibip⟩
  else if mode = 1 then ⟨1, .vsense, ibip⟩
  else if mode = 2 then ⟨2, .vbus, vbip⟩
  else ⟨3, .zero, false⟩

end Sys2Proof.Machine
end

