-- ==== Sys2Proof/Machine/Float.lean ====
section
/-! DEFINITION. binary64 arithmetic (spec/00_scope.md section 4, decision D6): conversion from integers,
multiply and divide, each computed exactly and rounded ONCE to nearest, ties to even. Every finite
binary64 number is a whole number of quanta of 2^-1074, so exact values are natural numbers of quanta
and quotients of them. -/

namespace Sys2Proof

/-- How many quanta of 2^-1074 one unit is. -/
def F64.one : Nat := 2 ^ 1074

/-- The magnitude in quanta of the finite number with these exponent and fraction fields: the fraction
with its hidden bit, at the weight of the exponent; exponent 0 is subnormal. -/
def F64.quanta (exp : Fin 2047) (frac : BitVec 52) : Nat :=
  if exp.val = 0 then frac.toNat else (2 ^ 52 + frac.toNat) * 2 ^ (exp.val - 1)

/-- The number whose exponent and fraction fields, read as one 63-bit number, are `m`; infinity from the
all-ones exponent up. -/
def F64.ofMagnitude (neg : Bool) (m : Nat) : F64 :=
  if h : m / 2 ^ 52 < 2047 then .finite neg ⟨m / 2 ^ 52, h⟩ (BitVec.ofNat 52 m) else .inf neg

/-- The binary64 number nearest `n / d` quanta, ties to even; infinity on overflow (decision D6). `sh` is
how many low bits the 53-bit significand drops. -/
def F64.round (neg : Bool) (n d : Nat) : F64 :=
  let sh := Nat.log2 (n / d) - 52
  let unit := d * 2 ^ sh
  let q := n / unit
  let r := n % unit
  let up := unit < 2 * r ∨ (2 * r = unit ∧ q % 2 = 1)
  F64.ofMagnitude neg (sh * 2 ^ 52 + (if up then q + 1 else q))

/-- `i2f(n)` of rule R94. -/
def F64.i2f (n : Int) : F64 := F64.round (n < 0) (n.natAbs * F64.one) 1

/-- `a *f b`: IEEE 754 multiply (decision D6). -/
def F64.mul : F64 → F64 → F64
  | .nan, _ => .nan
  | _, .nan => .nan
  | .inf s, .inf t => .inf (s != t)
  | .inf s, .finite t e f => if F64.quanta e f = 0 then .nan else .inf (s != t)
  | .finite s e f, .inf t => if F64.quanta e f = 0 then .nan else .inf (s != t)
  | .finite s e f, .finite t e' f' => F64.round (s != t) (F64.quanta e f * F64.quanta e' f') F64.one

/-- `a /f b`: IEEE 754 divide (decision D6). A finite number over zero is an infinity, zero over zero is
NaN (spec/93_implementation_defined.md I7). -/
def F64.div : F64 → F64 → F64
  | .nan, _ => .nan
  | _, .nan => .nan
  | .inf _, .inf _ => .nan
  | .inf s, .finite t _ _ => .inf (s != t)
  | .finite s _ _, .inf t => .finite (s != t) 0 0
  | .finite s e f, .finite t e' f' =>
    if F64.quanta e' f' = 0 then (if F64.quanta e f = 0 then .nan else .inf (s != t))
    else F64.round (s != t) (F64.quanta e f * F64.one) (F64.quanta e' f')

/-- The binary64 value with these 64 bits: sign, 11 exponent bits, 52 fraction bits. Every NaN pattern is
the one `nan` (decision D7). -/
def F64.ofBits (b : Word) : F64 :=
  let frac := b.extractLsb' 0 52
  if h : (b.extractLsb' 52 11).toNat < 2047 then .finite b.msb ⟨(b.extractLsb' 52 11).toNat, h⟩ frac
  else if frac = 0 then .inf b.msb else .nan

/-- The 64 bits of a value that is no NaN; the bits of a NaN are open (decision D7). -/
def F64.toBits : F64 → Option Word
  | .nan => none
  | .inf neg => some (BitVec.ofBool neg ++ (2047#11) ++ (0#52))
  | .finite neg exp frac => some (BitVec.ofBool neg ++ BitVec.ofNat 11 exp.val ++ frac)

/-- A whole literal such as `65536.0`; exact below 2^53. -/
def F64.lit (n : Nat) : F64 := F64.i2f (n : Int)

/-- The literal `0.5`. -/
def F64.half : F64 := .finite false 1022 0

/-- `K_ENERGY` of rule R144, bits 0x40715C71C71C71C7. -/
def F64.kEnergy : F64 := F64.ofBits 0x40715C71C71C71C7

end Sys2Proof
end

