-- ==== Sys2Proof/Machine/Operands.lean ====
section
/-! DEFINITION. The operand forms and pure functions of the pipeline (spec/41_pipeline.md): bit fields,
the sign rule, scaling, the active-channel count and the sample frequency, the LSB factors and the
voltage-ratio rule of spec/43_telemetry.md section 1. -/

namespace Sys2Proof.Machine

/-- `mask(w)`: the low `w` bits set; all ones for `w = 64` (rule R84). -/
def mask (w : Nat) : Word := BitVec.ofNat 64 (2 ^ w - 1)

/-- `extractBits(value, width, position)` of rule R84. -/
def extractBits (value : Word) (width position : Nat) : Word := (value >>> position) &&& mask width

/-- A 2-bit field of a register. -/
def field2 (value : Word) (position : Nat) : BitVec 2 := (extractBits value 2 position).setWidth 2

/-- Bit position of channel `ch`'s voltage code, and of its accumulator mode (rules R25, R26). -/
def vPos (ch : Fin 4) : Nat := 6 - 2 * ch.val

/-- Bit position of channel `ch`'s current code (rule R25). DEDUCED, safe: rule R132's worked example reads
channel 2's position as channel 1's and is not followed (assumption log 24). -/
def iPos (ch : Fin 4) : Nat := 14 - 2 * ch.val

/-- `sext47_56(v)` of rule R91: bit 47 decides, and forces bits 63:48 when it is set. -/
def sext47 (v : Word) : Word := if v.getLsbD 47 then v ||| 0xFFFF000000000000 else v

/-- The widths the sign rule knows. -/
inductive Width where
  | w16
  | w32
  | w56
  deriving DecidableEq, Repr

/-- A width in bits. -/
def Width.bits : Width → Nat
  | .w16 => 16
  | .w32 => 32
  | .w56 => 56

/-- `Interp(width, bidirectional, raw)` of rule R93. -/
def interp (w : Width) (bidirectional : Bool) (raw : Word) : Int :=
  if bidirectional then
    match w with
    | .w16 => (raw.setWidth 16).toInt
    | .w32 => (raw.setWidth 32).toInt
    | .w56 => (sext47 raw).toInt
  else (raw.toNat : Int)

/-- `Scale(width, bidirectional, raw, lsb)` of rule R98: one conversion, one multiply. -/
def scaleRaw (w : Width) (bidirectional : Bool) (raw : Word) (lsb : F64) : F64 :=
  F64.mul (F64.i2f (interp w bidirectional raw)) lsb

/-- `popcount` of a 4-bit field. -/
def popcount4 (v : BitVec 4) : Nat :=
  (v.getLsbD 0).toNat + (v.getLsbD 1).toNat + (v.getLsbD 2).toNat + (v.getLsbD 3).toNat

/-- `ActiveCount(ctrl, cap)` of rule R102: the clear bits of `ctrl[7:4]`, capped. -/
def activeCount (ctrl : Word) (cap : Nat) : Nat := min (popcount4 (~~~ (ctrl.extractLsb' 4 4))) cap

/-- `SmClass(code)` of rule R100, by the parameter `P_SAMPLE_MODE_CLASS`. -/
def smClassOf (p : Params) (code : BitVec 4) : ModeClass := p.smClass[code.toNat]'code.isLt

/-- The id of a sample-mode class (rule R100, decision D13). -/
def classId : ModeClass → Word
  | .adaptive => 0
  | .sps1024 => 1
  | .sps256 => 2
  | .sps64 => 3
  | .sps8 => 4
  | .singleShot => 5
  | .sleep => 6
  | .fastBurst => 7
  | .reserved => 8

/-- The sample-mode field of the latched control register, bits 15:12 (rule R27). -/
def modeCode (ctrl : Word) : BitVec 4 := ctrl.extractLsb' 12 4

/-- `SampleFreq(ctrl, cap)` of rule R104, in hertz. -/
def sampleFreq (p : Params) (ctrl : Word) (cap : Nat) : F64 :=
  match smClassOf p (modeCode ctrl) with
  | .adaptive => F64.lit 1024
  | .sps1024 => F64.lit 1024
  | .sps256 => F64.lit 256
  | .sps64 => F64.lit 64
  | .sps8 => F64.lit 8
  | .singleShot => .nan
  | .sleep => .nan
  | .reserved => p.reservedFs
  | .fastBurst =>
    let n := activeCount ctrl cap
    if n = 0 then .nan
    else if p.fsIntDiv then F64.lit (5120 / n)
    else F64.div (F64.lit 5120) (F64.lit n)

/-- `baseScale` of rule R11. -/
def Handle.baseScale (h : Handle) : F64 := if h.isHighRes then F64.lit 32 else F64.lit 9

/-- The doubling and halving steps every LSB ends with (rules R123, R124, R125). -/
def lsbSteps (x : F64) (bipolar fsr : Bool) : F64 :=
  let x := if bipolar then F64.mul x (F64.lit 2) else x
  if fsr then x else F64.mul x F64.half

/-- `VBusLSB(vb, vf)` of rule R123, in volts per count. -/
def vbusLsb (h : Handle) (v : CfgFlags) : F64 :=
  lsbSteps (F64.div h.baseScale (F64.lit 65536)) v.bipolar v.fsr

/-- `VSenseLSB(cb, cf)` of rule R124, in millivolts per count; the same for both generations
(conflict C3). -/
def vsenseLsb (i : CfgFlags) : F64 :=
  lsbSteps (F64.div (F64.lit 100) (F64.lit 65536)) i.bipolar i.fsr

/-- `PowerLSB(ch, vb, vf, cb, cf)` of rule R125, in watts per count: doubled once if either code is
bipolar, halved once unless both are full scale. -/
def powerLsb (h : Handle) (ch : Fin 4) (v i : CfgFlags) : F64 :=
  lsbSteps
    (F64.div (F64.mul (F64.lit 100) h.baseScale)
      (F64.mul (F64.mul h.senseResistance[ch] (F64.lit 1000)) (F64.lit 1073741824)))
    (v.bipolar || i.bipolar) (v.fsr && i.fsr)

/-- The kinds of result the voltage ratio distinguishes (rule R126); `OTHER` results never pass through
`ratio`. -/
inductive RatioKind where
  | vbus
  | vderived
  deriving DecidableEq, Repr

/-- `Ratio(kind, ch, x)` of rule R126, by the parameter `P_VRATIO_SCOPE`. -/
def ratio (p : Params) (h : Handle) (kind : RatioKind) (ch : Fin 4) (x : F64) : F64 :=
  match p.vratioScope, kind with
  | .bus, .vbus => F64.mul x h.voltageRatio[ch]
  | .all, .vbus => F64.mul x h.voltageRatio[ch]
  | .all, .vderived => F64.mul x h.voltageRatio[ch]
  | .bus, .vderived => x
  | .none, .vbus => x
  | .none, .vderived => x

end Sys2Proof.Machine
end

