-- ==== Sys2Proof/Machine/Ops.lean ====
section
/-! DEFINITION. The operations every meaning is built from: the transport's two transactions
(spec/20_memory.md rules R33, R34), the Cache Register read and write (spec/42_cache.md rules R108,
R110), the two ways an operation ends, success and error (spec/60_exceptions.md rules R146, R147), and
the checks that come before any transaction (rules R106, R121). -/

namespace Sys2Proof.Machine

/-- A running operation. It ends with a result or raises an error; either way the state holds what the
steps completed so far wrote (rule R147). -/
abbrev Op := EStateM Err State

/-- The 4-bit error code of rule R146. -/
def Err.status : Err → BitVec 4
  | .transportError _ => 1
  | .lengthMismatch _ _ _ => 2
  | .invalidChannel _ => 3
  | .unknownProductId _ => 4
  | .unknownRegister _ => 5
  | .illegalOperation _ => 6
  | .notInitialised => 7
  | .operandRange _ => 8

/-- The info word of rule R146's table. -/
def Err.info : Err → Word
  | .transportError _ => 0
  | .lengthMismatch c expected got =>
    BitVec.ofNat 64 c ||| (BitVec.ofNat 64 expected <<< 8) ||| (BitVec.ofNat 64 got <<< 16)
  | .invalidChannel ch => ch.setWidth 64
  | .unknownProductId id => id.setWidth 64
  | .unknownRegister addr => addr.setWidth 64
  | .illegalOperation w => w.setWidth 64
  | .notInitialised => 0
  | .operandRange v => v

/-- The transport payload a response carries: a `TransportError`'s, unchanged (rules R35, R149). -/
def Err.payload : Err → Option Payload
  | .transportError e => some e
  | .lengthMismatch _ _ _ => none
  | .invalidChannel _ => none
  | .unknownProductId _ => none
  | .unknownRegister _ => none
  | .illegalOperation _ => none
  | .notInitialised => none
  | .operandRange _ => none

/-- The error response: status, info and payload; every other field zero or empty (rule R146). -/
def Err.response (e : Err) : Response := { status := e.status, ival := e.info, payload := e.payload }

/-- `respond(fields)`: the block sends one response (rule R3). -/
def State.reply (s : State) (r : Response) : State := { s with responses := r :: s.responses }

/-- `raise E(info)`: the block answers the error response. This is the whole of the block's trap mechanism:
it saves no state, changes no mode and vectors nowhere, and there is no return from it (rules R147,
R159, R160). -/
def State.raise (s : State) (e : Err) : State := s.reply e.response

/-- The block runs the operation to its end and sends its one response. -/
def serve (s : State) (op : Op Response) : Out :=
  .next (match op s with
    | .ok r t => t.reply r
    | .error e t => t.raise e)

/-- The block accepts the request on its port; the requester's further requests are `rest` (rule R43). -/
def State.accept (s : State) (r : Request) (rest : List Request) : State :=
  { s with port := r, incoming := rest }

/-- The answer to a word that names no operation: `IllegalOperation` with the word, no transaction, no
other change (rules R58, R60, R154). -/
def answerIllegal (word : ReqWord) (s : State) : Out := .next (s.raise (.illegalOperation word))

/-- Go on unless `bad`, which raises `e`. -/
def failIf (bad : Bool) (e : Err) : Op Unit := if bad then throw e else pure ()

/-- The operand has no bit at or above `width`, or `OperandRange` with the operand (rules R68, R156). -/
def needWidth (width : Nat) (v : Word) : Op Unit := failIf (v >>> width != 0) (.operandRange v)

/-- A codec's result, or its error raised. -/
def liftCodec (x : Except Err Value) : Op Value :=
  match x with
  | .ok v => pure v
  | .error e => throw e

/-- What the transport answers next, and the state without that answer. Where the state lists none the
answer is a free value (assumption log 2). -/
def State.draw (s : State) : Answer × State :=
  match s.answers with
  | a :: rest => (a, { s with answers := rest })
  | [] => (Config.freeAnswer s.drawn, { s with drawn := s.drawn + 1 })

/-- One more event on the bus, the latest (rule R43). -/
def State.log (s : State) (e : BusEvent) : State := { s with trace := e :: s.trace }

/-- `MemRead(addr, n)` of rule R33: exactly one transaction; `TransportError` on `Err(e)` (rule R149). -/
def memRead (addr : Byte) (n : Nat) : Op (List Byte) := fun s =>
  match s.draw with
  | (.ok bytes, t) => .ok bytes (t.log (.read addr n (.ok bytes)))
  | (.err e, t) => .error (.transportError e) (t.log (.read addr n (.err e)))

/-- `MemWrite(addr, n, s)` of rule R34, with `n` the length of `bytes`: exactly one transaction. -/
def memWrite (addr : Byte) (bytes : List Byte) : Op Unit := fun s =>
  match s.draw with
  | (.ok _, t) => .ok () (t.log (.write addr bytes none))
  | (.err e, t) => .error (.transportError e) (t.log (.write addr bytes (some e)))

/-- `wait P_REFRESH_DELAY`: one step with no effect but its place in the order (rule R176). -/
def waitRefresh : Op Unit := fun s => .ok () (s.log (.delay Config.refreshDelay))

/-- The fill that ends a successful Cache Register read or write: only a cacheable register's (rules R108,
R110). -/
def fillIfCacheable (d : Descriptor) (v : Value) : Op Unit := fun s =>
  .ok () (if d.cacheable then s.fill d.reg v else s)

/-- `CacheRead(r)` of rule R108, for the register `r` with descriptor `d`. -/
def cacheRead (d : Descriptor) : Op Value := do
  match (← get).hit d.reg with
  | some v => return v
  | none =>
    let bytes ← memRead d.address d.wireLength
    let v ← liftCodec (decodeWire d.codec bytes)
    fillIfCacheable d v
    return v

/-- `CacheWrite(r, v)` of rule R110, for the register `r` with descriptor `d`: the value is cached as
given. -/
def cacheWrite (d : Descriptor) (v : Value) : Op Unit := do
  memWrite d.address (encodeWire d.codec v)
  fillIfCacheable d v

/-- `Lookup(addr)` of rule R106: the descriptor of the row whose address is `addr`. -/
def State.lookup (s : State) (addr : Byte) : Option Descriptor :=
  (s.cache.find? (·.desc.address = addr)).map (·.desc)

/-- `Lookup(addr)`, raising `UnknownRegister(addr)` (rules R106, R153). -/
def lookupAddr (addr : Byte) : Op Descriptor := do
  match (← get).lookup addr with
  | some d => return d
  | none => throw (.unknownRegister addr)

/-- `if not initialised then raise NotInitialised` (rule R155). -/
def needInit : Op Unit := do
  failIf (!(← get).handle.initialised) .notInitialised

/-- `raise IllegalOperation` with the 32-bit request word on the port (rule R146), unless `ok`. -/
def needLegal (ok : Bool) : Op Unit := do
  failIf (!ok) (.illegalOperation (← get).port.word)

/-- The descriptor of a register that a rule names, with a codec `ok` accepts, handed to `k`; a table
without that row is not legal and faults (rule R106: such a lookup always succeeds). -/
def withDesc (s : State) (r : Reg) (ok : Codec → Bool) (k : Descriptor → Out) : Out :=
  match s.cacheReg r with
  | none => .fault (.noDescriptor r)
  | some c => if ok c.desc.codec then k c.desc else .fault (.noDescriptor r)

/-- The descriptor of a register whose value is an integer. -/
def withInt (s : State) (r : Reg) (k : Descriptor → Out) : Out := withDesc s r Codec.isInt k

/-- `NotInitialised` before anything else, unless a handle has been built (rule R155). -/
def whenInit (s : State) (k : Out) : Out :=
  if s.handle.initialised then k else .next (s.raise .notInitialised)

/-- `CheckCh(ch)` of rule R121: `NotInitialised`, then `InvalidChannel(ch)`, before anything else. -/
def checkCh (ch : Byte) (s : State) (k : Fin 4 → Out) : Out :=
  whenInit s <|
    if h : ch.toNat < s.handle.channelCount.val then
      k ⟨ch.toNat, Nat.lt_of_lt_of_le h (Nat.le_of_lt_succ s.handle.channelCount.isLt)⟩
    else .next (s.raise (.invalidChannel ch))

/-- `Refresh(cmd)` of rule R115: the cache is invalidated before the command, always; the delay follows
only a write that succeeded (decision D35). -/
def refreshWith (cmd : Descriptor) : Op Response := do
  modify State.invalidateAll
  memWrite cmd.address []
  waitRefresh
  return {}

/-- The register `P_ACCMODE_REG` names (rule R8, decision D19). -/
def accModeReg (p : Params) : Reg :=
  match p.accModeReg with
  | .live => .accumConfig
  | .active => .accumConfigAct
  | .latched => .accumConfigLat

/-- `ReadCfg(ch)` of rule R122: channel `ch`'s voltage and current flags from `NEG_PWR_FSR_LAT`, whose
descriptor is `cfg`. -/
def readCfg (cfg : Descriptor) (ch : Fin 4) : Op (CfgFlags × CfgFlags) := do
  let v ← cacheRead cfg
  let c3 := (← get).params.code3Fsr
  return (cfgDecode c3 (field2 v.ival (vPos ch)), cfgDecode c3 (field2 v.ival (iPos ch)))

end Sys2Proof.Machine
end

