-- ==== Sys2Proof/Machine/Cache.lean ====
section
/-! DEFINITION. The meanings of the descriptor, cache, refresh and construction operations,
spec/42_cache.md. -/

namespace Sys2Proof.Machine

/-- `LOOKUP addr`, rule R107: needs no INIT. -/
def execLookup (addr : Byte) (s : State) : Out := serve s do
  let d ← lookupAddr addr
  return { ival := d.address.setWidth 64 ||| (BitVec.ofNat 64 d.wireLength <<< 8)
                   ||| (BitVec.ofNat 64 (codecId d.codec) <<< 16)
                   ||| ((BitVec.ofBool d.cacheable).setWidth 64 <<< 24) }

/-- `CREAD addr`, rule R109: `ival` for an integer register, `bytes` for a byte-array register. -/
def execCread (addr : Byte) (s : State) : Out := serve s do
  needInit
  let d ← lookupAddr addr
  needLegal (d.codec != .void)
  let v ← cacheRead d
  return { ival := v.ival, bytes := v.bytes }

/-- The value `CWRITE` gives a register, from `A` or `S`, with the operand check of its codec (rule R111). -/
def writeOperand (c : Codec) (r : Request) : Op Value :=
  match c with
  | .void => throw (.illegalOperation r.word)
  | .u8 => do needWidth 8 r.a; return { ival := r.a }
  | .pid => do needWidth 8 r.a; return { ival := r.a }
  | .u16 => do needWidth 16 r.a; return { ival := r.a }
  | .u32 => do needWidth 32 r.a; return { ival := r.a }
  | .u56 => return { ival := r.a }
  | .ba n => liftCodec (decodeWire (.ba n) r.str)

/-- `CWRITE addr`, rule R111. -/
def execCwrite (addr : Byte) (s : State) : Out := serve s do
  needInit
  let d ← lookupAddr addr
  let v ← writeOperand d.codec s.port
  cacheWrite d v
  return {}

/-- `CINV addr`, rule R112. -/
def execCinv (addr : Byte) (s : State) : Out := serve s do
  needInit
  let d ← lookupAddr addr
  modify (·.invalidate d.reg)
  return {}

/-- `CVALID addr`, rule R113. -/
def execCvalid (addr : Byte) (s : State) : Out := serve s do
  needInit
  let d ← lookupAddr addr
  return { flag := (← get).valid d.reg }

/-- `CINVALL`, rule R114. -/
def execCinvall (s : State) : Out := serve s do
  needInit
  modify State.invalidateAll
  return {}

/-- `REFRESH`, rule R115. -/
def execRefresh (s : State) : Out :=
  whenInit s <| withDesc s .refresh (· == .void) fun d => serve s (refreshWith d)

/-- `REFRESH.G`, rule R116. -/
def execRefreshG (s : State) : Out :=
  whenInit s <| withDesc s .refreshG (· == .void) fun d => serve s (refreshWith d)

/-- `REFRESH.V`, rule R117. -/
def execRefreshV (s : State) : Out :=
  whenInit s <| withDesc s .refreshV (· == .void) fun d => serve s (refreshWith d)

/-- `initialised <- false` and every `valid` cleared: what INIT does first, and what stays when it fails
(rules R119, R148). -/
def State.uninit (s : State) : State :=
  { s.clearValid with handle := { s.handle with initialised := false } }

/-- The handle INIT latches from the product and `CAL` (rule R119). -/
def Handle.ofInit (p : Product) (cal : Vector F64 8) : Handle where
  initialised := true
  productId := p.id
  isHighRes := p.isHighRes
  channelCount := p.channelCount
  voltageRatio := #v[cal[0], cal[1], cal[2], cal[3]]
  senseResistance := #v[cal[4], cal[5], cal[6], cal[7]]

/-- `P_PRODUCT_TABLE(id)` of rule R118. -/
def productOf (p : Params) (id : Byte) : Option Product := p.products.find? (·.id = id)

/-- The body of INIT (rule R119), with the descriptor of `PRODUCT_ID`. Where the byte is unknown the cache is
cleared once more, since the read has filled a `PRODUCT_ID` that is cacheable: a failed INIT leaves no
register valid (rules R29, R148, decision D25). -/
def initWith (pid : Descriptor) : Op Response := do
  modify State.uninit
  let v ← cacheRead pid
  let id : Byte := v.ival.setWidth 8
  match productOf (← get).params id with
  | none =>
    modify State.uninit
    throw (.unknownProductId id)
  | some p =>
    modify fun t => { t with handle := Handle.ofInit p t.port.cal }
    return { ival := id.setWidth 64 }

/-- `INIT`, rule R119. -/
def execInit (s : State) : Out :=
  withDesc s .productId (· == .pid) fun d => serve s (initWith d)

end Sys2Proof.Machine
end

