-- ==== Sys2Proof/Machine/CodecOps.lean ====
section
/-! DEFINITION. The meanings of the codec operations, spec/40_codec.md. They read no block state but the
data operands, need no INIT and perform no transaction. -/

namespace Sys2Proof.Machine

/-- A decode operation of a codec whose value is an integer or nothing: `ival <- Decode_c(S)`. -/
def decodeInt (c : Codec) (s : State) : Out := serve s do
  let v ← liftCodec (decodeWire c s.port.str)
  return { ival := v.ival }

/-- An encode operation of an integer codec of `width` bits: `OperandRange` for a wider `A` (rule R68),
then `bytes <- Encode_c(A)`. -/
def encodeInt (c : Codec) (width : Nat) (s : State) : Out := serve s do
  needWidth width s.port.a
  return { bytes := encodeWire c { ival := s.port.a } }

/-- The byte-array codec of length `n`, in either direction: `n` at most `BA_MAX`, `S` of length `n`, and
`bytes = S` (rules R75, R82). -/
def byteArray (n : Byte) (s : State) : Out := serve s do
  failIf (Config.baMax < n.toNat) (.operandRange (n.setWidth 64))
  let v ← liftCodec (decodeWire (.ba n.toNat) s.port.str)
  return { bytes := v.bytes }

/-- `DEC.V`, rule R69. -/
def execDecV (s : State) : Out := decodeInt .void s

/-- `DEC.U8`, rule R70. -/
def execDecU8 (s : State) : Out := decodeInt .u8 s

/-- `DEC.U16`, rule R71. -/
def execDecU16 (s : State) : Out := decodeInt .u16 s

/-- `DEC.U32`, rule R72. -/
def execDecU32 (s : State) : Out := decodeInt .u32 s

/-- `DEC.U56`, rule R73. -/
def execDecU56 (s : State) : Out := decodeInt .u56 s

/-- `DEC.PID`, rule R74: every byte decodes, known to `P_PRODUCT_TABLE` or not (decision D29). -/
def execDecPid (s : State) : Out := decodeInt .pid s

/-- `DEC.BA n`, rule R75. -/
def execDecBa (n : Byte) (s : State) : Out := byteArray n s

/-- `ENC.V`, rule R76. -/
def execEncV (s : State) : Out := serve s do
  return { bytes := encodeWire .void {} }

/-- `ENC.U8`, rule R77. -/
def execEncU8 (s : State) : Out := encodeInt .u8 8 s

/-- `ENC.U16`, rule R78. -/
def execEncU16 (s : State) : Out := encodeInt .u16 16 s

/-- `ENC.U32`, rule R79. -/
def execEncU32 (s : State) : Out := encodeInt .u32 32 s

/-- `ENC.U56`, rule R80: no check; the top byte of `A` is dropped. -/
def execEncU56 (s : State) : Out := encodeInt .u56 64 s

/-- `ENC.PID`, rule R81. -/
def execEncPid (s : State) : Out := encodeInt .pid 8 s

/-- `ENC.BA n`, rule R82. -/
def execEncBa (n : Byte) (s : State) : Out := byteArray n s

end Sys2Proof.Machine
end

