-- ==== Sys2Proof/Machine/Pipeline.lean ====
section
/-! DEFINITION. The meanings of the pipeline operations, spec/41_pipeline.md. They read no block state but
the data operands and the parameters, need no INIT and perform no transaction. -/

namespace Sys2Proof.Machine

/-- `XBITS p, w`, rule R84. -/
def execXbits (pos width : Byte) (s : State) : Out := serve s do
  failIf (63 < pos.toNat) (.operandRange (pos.setWidth 64))
  failIf (64 < width.toNat) (.operandRange (width.setWidth 64))
  return { ival := extractBits s.port.a width.toNat pos.toNat }

/-- `SEXT16`, rule R89. -/
def execSext16 (s : State) : Out := serve s do
  needWidth 16 s.port.a
  return { ival := (s.port.a.setWidth 16).signExtend 64 }

/-- `SEXT32`, rule R90. -/
def execSext32 (s : State) : Out := serve s do
  needWidth 32 s.port.a
  return { ival := (s.port.a.setWidth 32).signExtend 64 }

/-- `SEXT56`, rule R92: the accumulator rule of R91, from bit 47. -/
def execSext56 (s : State) : Out := serve s do
  needWidth 56 s.port.a
  return { ival := sext47 s.port.a }

/-- `I2F.S`, rule R95. -/
def execI2fS (s : State) : Out := serve s do
  return { fval := F64.i2f s.port.a.toInt }

/-- `I2F.U`, rule R96. -/
def execI2fU (s : State) : Out := serve s do
  return { fval := F64.i2f (s.port.a.toNat : Int) }

/-- `FSCALE`, rule R97. -/
def execFscale (s : State) : Out := serve s do
  return { fval := F64.mul (F64.ofBits s.port.a) s.port.b }

/-- `CFGDEC`, rule R86: `ival[0]` bipolar, `ival[1]` fsr. -/
def execCfgdec (s : State) : Out := serve s do
  needWidth 2 s.port.a
  let f := cfgDecode s.params.code3Fsr (s.port.a.setWidth 2)
  return { ival := (BitVec.ofBool f.fsr ++ BitVec.ofBool f.bipolar).setWidth 64 }

/-- `ACCDEC`, rule R88: `A[1:0]` mode, `A[2]` voltage bipolar, `A[3]` current bipolar. -/
def execAccdec (s : State) : Out := serve s do
  needWidth 4 s.port.a
  let m := accDecode (s.port.a.setWidth 2) (s.port.a.getLsbD 2) (s.port.a.getLsbD 3)
  return { tag := m.tag, ival := m.kind.id, flag := m.bidirectional }

/-- `SMDEC`, rule R101. -/
def execSmdec (s : State) : Out := serve s do
  needWidth 4 s.port.a
  return { ival := classId (smClassOf s.params (s.port.a.setWidth 4)) }

/-- The checks of `ACTCNT` and `FSDEC`: the cap in 1..4, then `A` a 16-bit value (rules R103, R105). -/
def needCap (cap : Byte) (a : Word) : Op Unit := do
  failIf (cap.toNat < 1 || Config.channelMax < cap.toNat) (.operandRange (cap.setWidth 64))
  needWidth 16 a

/-- `ACTCNT cap`, rule R103. -/
def execActcnt (cap : Byte) (s : State) : Out := serve s do
  needCap cap s.port.a
  return { ival := BitVec.ofNat 64 (activeCount s.port.a cap.toNat) }

/-- `FSDEC cap`, rule R105. -/
def execFsdec (cap : Byte) (s : State) : Out := serve s do
  needCap cap s.port.a
  return { fval := sampleFreq s.params s.port.a cap.toNat }

/-- The width `ARG[1:0]` selects; 3 is reserved (rule R99). -/
def scaleWidth (mode : Byte) : Option Width :=
  if mode.setWidth 2 = 0#2 then some .w16
  else if mode.setWidth 2 = 1#2 then some .w32
  else if mode.setWidth 2 = 2#2 then some .w56
  else none

/-- `SCALE mode`, rule R99: `ARG[7:3]` zero, the width not reserved, `A` within it. -/
def execScale (mode : Byte) (s : State) : Out := serve s do
  needLegal (mode >>> 3 == 0)
  match scaleWidth mode with
  | none => throw (.illegalOperation s.port.word)
  | some w =>
    needWidth w.bits s.port.a
    return { fval := scaleRaw w (mode.getLsbD 2) s.port.a s.port.b }

end Sys2Proof.Machine
end

