-- ==== Sys2Proof/Machine/Telemetry.lean ====
section
/-! DEFINITION. The meanings of the telemetry operations, spec/43_telemetry.md. Every one first makes the
checks of rule R121 and then reads its registers through their Cache Registers, configuration first and
measurement last (rule R127). -/

namespace Sys2Proof.Machine

/-- A per-channel operation that reads `NEG_PWR_FSR_LAT` only. -/
def cfgOp (ch : Byte) (s : State) (op : Fin 4 → Descriptor → Op Response) : Out :=
  checkCh ch s fun c => withInt s .negPwrFsrLat fun cfg => serve s (op c cfg)

/-- A per-channel operation that reads `NEG_PWR_FSR_LAT` and then the register `reg c`. -/
def measureOp (ch : Byte) (s : State) (reg : Fin 4 → Reg)
    (op : Fin 4 → Descriptor → Descriptor → Op Response) : Out :=
  checkCh ch s fun c => withInt s .negPwrFsrLat fun cfg => withInt s (reg c) fun raw =>
    serve s (op c cfg raw)

/-- `LSB.VBUS ch`, rule R128. -/
def execLsbVbus (ch : Byte) (s : State) : Out := cfgOp ch s fun c cfg => do
  let (v, _) ← readCfg cfg c
  return { fval := vbusLsb (← get).handle v }

/-- `LSB.VSENSE ch`, rule R129. -/
def execLsbVsense (ch : Byte) (s : State) : Out := cfgOp ch s fun c cfg => do
  let (_, i) ← readCfg cfg c
  return { fval := vsenseLsb i }

/-- `LSB.POWER ch`, rule R130. -/
def execLsbPower (ch : Byte) (s : State) : Out := cfgOp ch s fun c cfg => do
  let (v, i) ← readCfg cfg c
  return { fval := powerLsb (← get).handle c v i }

/-- The result of `GET.VCFG` and `GET.ICFG`: the flags of a code read once, and the code itself from a
second `CacheRead` (rules R131, R132). -/
def cfgResult (cfg : Descriptor) (f : CfgFlags) (pos : Nat) : Op Response := do
  let again ← cacheRead cfg
  return { ival := (BitVec.ofBool f.fsr ++ BitVec.ofBool f.bipolar).setWidth 64,
           tag := field2 again.ival pos }

/-- `GET.VCFG ch`, rule R131. -/
def execGetVcfg (ch : Byte) (s : State) : Out := cfgOp ch s fun c cfg => do
  let (v, _) ← readCfg cfg c
  cfgResult cfg v (vPos c)

/-- `GET.ICFG ch`, rule R132. -/
def execGetIcfg (ch : Byte) (s : State) : Out := cfgOp ch s fun c cfg => do
  let (_, i) ← readCfg cfg c
  cfgResult cfg i (iPos c)

/-- Channel `c`'s accumulator-mode code, read from `P_ACCMODE_REG` (rules R26, R133). -/
def readAccMode (acc : Descriptor) (c : Fin 4) : Op (BitVec 2) := do
  let v ← cacheRead acc
  return field2 v.ival (vPos c)

/-- `GET.ACCMODE ch`, rule R133. -/
def execGetAccmode (ch : Byte) (s : State) : Out :=
  checkCh ch s fun c => withInt s (accModeReg s.params) fun acc => serve s do
    let mode ← readAccMode acc c
    return { ival := mode.setWidth 64 }

/-- The bus voltage of rules R134 and R135 from the register `raw`. -/
def vbusValue (c : Fin 4) (cfg raw : Descriptor) : Op Response := do
  let (v, _) ← readCfg cfg c
  let x ← cacheRead raw
  let t ← get
  return { fval := ratio t.params t.handle .vbus c
             (scaleRaw .w16 v.bipolar x.ival (vbusLsb t.handle v)) }

/-- `GET.VBUS ch`, rule R134. -/
def execGetVbus (ch : Byte) (s : State) : Out := measureOp ch s .vbus vbusValue

/-- `GET.VBUSAVG ch`, rule R135. -/
def execGetVbusavg (ch : Byte) (s : State) : Out := measureOp ch s .vbusAvg vbusValue

/-- `VSenseValue(ch, reg)` of rule R136, `raw` being `reg[ch]`. -/
def vsenseValue (c : Fin 4) (cfg raw : Descriptor) : Op F64 := do
  let (_, i) ← readCfg cfg c
  let x ← cacheRead raw
  return scaleRaw .w16 i.bipolar x.ival (vsenseLsb i)

/-- The sense voltage as a response. -/
def vsenseResult (c : Fin 4) (cfg raw : Descriptor) : Op Response := do
  return { fval := ← vsenseValue c cfg raw }

/-- The sense voltage over the sense resistance (rules R138, R139). -/
def currentResult (c : Fin 4) (cfg raw : Descriptor) : Op Response := do
  let x ← vsenseValue c cfg raw
  return { fval := F64.div x (← get).handle.senseResistance[c] }

/-- `GET.VSENSE ch`, rule R136. -/
def execGetVsense (ch : Byte) (s : State) : Out := measureOp ch s .vsense vsenseResult

/-- `GET.VSENSEAVG ch`, rule R137. -/
def execGetVsenseavg (ch : Byte) (s : State) : Out := measureOp ch s .vsenseAvg vsenseResult

/-- `GET.CURRENT ch`, rule R138. -/
def execGetCurrent (ch : Byte) (s : State) : Out := measureOp ch s .vsense currentResult

/-- `GET.CURRENTAVG ch`, rule R139. -/
def execGetCurrentavg (ch : Byte) (s : State) : Out := measureOp ch s .vsenseAvg currentResult

/-- `GET.POWER ch`, rule R140: signed when either code is bipolar. -/
def execGetPower (ch : Byte) (s : State) : Out := measureOp ch s .vpower fun c cfg raw => do
  let (v, i) ← readCfg cfg c
  let x ← cacheRead raw
  let t ← get
  return { fval := ratio t.params t.handle .vderived c
             (scaleRaw .w32 (v.bipolar || i.bipolar) x.ival (powerLsb t.handle c v i)) }

/-- The LSB an accumulator mode scales by (rule R141). -/
def accLsb (h : Handle) (c : Fin 4) (v i : CfgFlags) : LsbKind → F64
  | .power => powerLsb h c v i
  | .vsense => vsenseLsb i
  | .vbus => vbusLsb h v
  | .zero => F64.zero

/-- The arithmetic of `VAccValue` (rule R141), from the decoded flags and the raw accumulator. -/
def accScaled (p : Params) (h : Handle) (c : Fin 4) (mode : BitVec 2) (v i : CfgFlags) (raw : Word) :
    F64 :=
  let m := accDecode mode v.bipolar i.bipolar
  let x := scaleRaw .w56 m.bidirectional raw (accLsb h c v i m.kind)
  if mode = 0 ∨ mode = 2 then ratio p h .vderived c x else x

/-- `VAccValue(ch, mode)` of rule R141 and its tag; `raw` is `VACC[ch]`. -/
def vaccValue (c : Fin 4) (mode : BitVec 2) (cfg raw : Descriptor) : Op (F64 × BitVec 2) := do
  let (v, i) ← readCfg cfg c
  let x ← cacheRead raw
  let t ← get
  return (accScaled t.params t.handle c mode v i x.ival, (accDecode mode v.bipolar i.bipolar).tag)

/-- `GET.VACC ch`, rule R142. -/
def execGetVacc (ch : Byte) (s : State) : Out :=
  checkCh ch s fun c =>
  withInt s (accModeReg s.params) fun acc =>
  withInt s .negPwrFsrLat fun cfg =>
  withInt s (.vacc c) fun raw => serve s do
    let mode ← readAccMode acc c
    let (x, tag) ← vaccValue c mode cfg raw
    return { fval := x, tag := tag }

/-- `GET.FS`, rule R143. -/
def execGetFs (s : State) : Out :=
  whenInit s <| withInt s .ctrlLat fun ctrl => serve s do
    let v ← cacheRead ctrl
    let t ← get
    return { fval := sampleFreq t.params v.ival t.handle.channelCount.val }

/-- `GET.ENERGY ch`, rule R145: NaN after one read unless the accumulator mode is 0, NaN after two in a
single-shot sample mode, else energy from the accumulator (decision D34). -/
def execGetEnergy (ch : Byte) (s : State) : Out :=
  checkCh ch s fun c =>
  withInt s (accModeReg s.params) fun acc =>
  withInt s .ctrlLat fun ctrl =>
  withInt s .negPwrFsrLat fun cfg =>
  withInt s (.vacc c) fun raw => serve s do
    let mode ← readAccMode acc c
    if mode ≠ 0 then return { fval := .nan }
    let v ← cacheRead ctrl
    let t ← get
    if smClassOf t.params (modeCode v.ival) = .singleShot then return { fval := .nan }
    let fs := sampleFreq t.params v.ival t.handle.channelCount.val
    let (x, _) ← vaccValue c 0 cfg raw
    return { fval := F64.mul (F64.div x fs) F64.kEnergy }

end Sys2Proof.Machine
end

