-- ==== Sys2Proof/Machine/Dispatch.lean ====
section
/-! DEFINITION. The one dispatch: each operation of the opcode table to its meaning. -/

namespace Sys2Proof.Machine

/-- What an operation does to the state whose port holds its request. -/
def exec (i : Instr) (s : State) : Host.Outcome State Fault Refusal :=
  match i with
  | .decV => Sys2Proof.Machine.execDecV s
  | .decU8 => Sys2Proof.Machine.execDecU8 s
  | .decU16 => Sys2Proof.Machine.execDecU16 s
  | .decU32 => Sys2Proof.Machine.execDecU32 s
  | .decU56 => Sys2Proof.Machine.execDecU56 s
  | .decPid => Sys2Proof.Machine.execDecPid s
  | .decBa n => Sys2Proof.Machine.execDecBa n s
  | .encV => Sys2Proof.Machine.execEncV s
  | .encU8 => Sys2Proof.Machine.execEncU8 s
  | .encU16 => Sys2Proof.Machine.execEncU16 s
  | .encU32 => Sys2Proof.Machine.execEncU32 s
  | .encU56 => Sys2Proof.Machine.execEncU56 s
  | .encPid => Sys2Proof.Machine.execEncPid s
  | .encBa n => Sys2Proof.Machine.execEncBa n s
  | .xbits pos width => Sys2Proof.Machine.execXbits pos width s
  | .sext16 => Sys2Proof.Machine.execSext16 s
  | .sext32 => Sys2Proof.Machine.execSext32 s
  | .sext56 => Sys2Proof.Machine.execSext56 s
  | .i2fS => Sys2Proof.Machine.execI2fS s
  | .i2fU => Sys2Proof.Machine.execI2fU s
  | .fscale => Sys2Proof.Machine.execFscale s
  | .cfgdec => Sys2Proof.Machine.execCfgdec s
  | .accdec => Sys2Proof.Machine.execAccdec s
  | .smdec => Sys2Proof.Machine.execSmdec s
  | .actcnt cap => Sys2Proof.Machine.execActcnt cap s
  | .fsdec cap => Sys2Proof.Machine.execFsdec cap s
  | .scale mode => Sys2Proof.Machine.execScale mode s
  | .lookup addr => Sys2Proof.Machine.execLookup addr s
  | .cread addr => Sys2Proof.Machine.execCread addr s
  | .cwrite addr => Sys2Proof.Machine.execCwrite addr s
  | .cinv addr => Sys2Proof.Machine.execCinv addr s
  | .cvalid addr => Sys2Proof.Machine.execCvalid addr s
  | .cinvall => Sys2Proof.Machine.execCinvall s
  | .refresh => Sys2Proof.Machine.execRefresh s
  | .refreshG => Sys2Proof.Machine.execRefreshG s
  | .refreshV => Sys2Proof.Machine.execRefreshV s
  | .init => Sys2Proof.Machine.execInit s
  | .getVbus ch => Sys2Proof.Machine.execGetVbus ch s
  | .getVbusavg ch => Sys2Proof.Machine.execGetVbusavg ch s
  | .getVsense ch => Sys2Proof.Machine.execGetVsense ch s
  | .getVsenseavg ch => Sys2Proof.Machine.execGetVsenseavg ch s
  | .getCurrent ch => Sys2Proof.Machine.execGetCurrent ch s
  | .getCurrentavg ch => Sys2Proof.Machine.execGetCurrentavg ch s
  | .getPower ch => Sys2Proof.Machine.execGetPower ch s
  | .getVacc ch => Sys2Proof.Machine.execGetVacc ch s
  | .getEnergy ch => Sys2Proof.Machine.execGetEnergy ch s
  | .getFs => Sys2Proof.Machine.execGetFs s
  | .lsbVbus ch => Sys2Proof.Machine.execLsbVbus ch s
  | .lsbVsense ch => Sys2Proof.Machine.execLsbVsense ch s
  | .lsbPower ch => Sys2Proof.Machine.execLsbPower ch s
  | .getVcfg ch => Sys2Proof.Machine.execGetVcfg ch s
  | .getIcfg ch => Sys2Proof.Machine.execGetIcfg ch s
  | .getAccmode ch => Sys2Proof.Machine.execGetAccmode ch s

end Sys2Proof.Machine
end

