-- ==== Sys2Proof/Machine/Step.lean ====
section
/-! DEFINITION. One step: the block takes the next request, decodes its word, runs the operation and
answers (spec/20_memory.md rule R43). There is no program counter and no fetch (spec/10_state.md rule
R21): the next request is the one the requester issues next. -/

namespace Sys2Proof.Machine

/-- One request served, or the block still waiting for one (rule R170). -/
def step (s : State) : Host.Outcome State Fault Refusal :=
  match s.incoming with
  | [] => .next s
  | r :: rest =>
    match decode r.word with
    | .ok i => exec i (s.accept r rest)
    | .error _ => answerIllegal r.word (s.accept r rest)

/-- `s` with the low `nbits` bits of `w`, the others zero, as the word of the request the block takes
next: the data operands of that request stay, and where the requester has none waiting the request has
the operands now on the port (zeros after reset). -/
def State.withFetchWord (s : State) (nbits w : Nat) : State :=
  let word : ReqWord := BitVec.ofNat 32 (w % 2 ^ nbits)
  match s.incoming with
  | [] => { s with incoming := [{ s.port with word := word }] }
  | r :: rest => { s with incoming := { r with word := word } :: rest }

end Sys2Proof.Machine
end

