-- ==== Sys2Proof/Machine/Assembler.lean ====
section
/-! DEFINITION. The assembler's side of spec/30_encoding.md section 6: mnemonics, register names, the text
of a request (rule R64) and the pseudo-operations (rule R65). No operation of the block reads any of it. -/

namespace Sys2Proof.Machine

/-- The mnemonic of rule R59's table. -/
def mnemonic : Instr → String
  | .decV => "DEC.V"
  | .decU8 => "DEC.U8"
  | .decU16 => "DEC.U16"
  | .decU32 => "DEC.U32"
  | .decU56 => "DEC.U56"
  | .decPid => "DEC.PID"
  | .decBa _ => "DEC.BA"
  | .encV => "ENC.V"
  | .encU8 => "ENC.U8"
  | .encU16 => "ENC.U16"
  | .encU32 => "ENC.U32"
  | .encU56 => "ENC.U56"
  | .encPid => "ENC.PID"
  | .encBa _ => "ENC.BA"
  | .xbits _ _ => "XBITS"
  | .sext16 => "SEXT16"
  | .sext32 => "SEXT32"
  | .sext56 => "SEXT56"
  | .i2fS => "I2F.S"
  | .i2fU => "I2F.U"
  | .fscale => "FSCALE"
  | .cfgdec => "CFGDEC"
  | .accdec => "ACCDEC"
  | .smdec => "SMDEC"
  | .actcnt _ => "ACTCNT"
  | .fsdec _ => "FSDEC"
  | .scale _ => "SCALE"
  | .lookup _ => "LOOKUP"
  | .cread _ => "CREAD"
  | .cwrite _ => "CWRITE"
  | .cinv _ => "CINV"
  | .cvalid _ => "CVALID"
  | .cinvall => "CINVALL"
  | .refresh => "REFRESH"
  | .refreshG => "REFRESH.G"
  | .refreshV => "REFRESH.V"
  | .init => "INIT"
  | .getVbus _ => "GET.VBUS"
  | .getVbusavg _ => "GET.VBUSAVG"
  | .getVsense _ => "GET.VSENSE"
  | .getVsenseavg _ => "GET.VSENSEAVG"
  | .getCurrent _ => "GET.CURRENT"
  | .getCurrentavg _ => "GET.CURRENTAVG"
  | .getPower _ => "GET.POWER"
  | .getVacc _ => "GET.VACC"
  | .getEnergy _ => "GET.ENERGY"
  | .getFs => "GET.FS"
  | .lsbVbus _ => "LSB.VBUS"
  | .lsbVsense _ => "LSB.VSENSE"
  | .lsbPower _ => "LSB.POWER"
  | .getVcfg _ => "GET.VCFG"
  | .getIcfg _ => "GET.ICFG"
  | .getAccmode _ => "GET.ACCMODE"

/-- The name rule R53 gives a logical register; channel index `ch` is written `ch + 1`. A register that
rule R53 does not have takes the model's name `REG` and its number. -/
def regName : Reg → String
  | .refresh => "REFRESH"
  | .ctrl => "CTRL"
  | .accCount => "ACC_COUNT"
  | .smbusSettings => "SMBUS_SETTINGS"
  | .negPwrFsr => "NEG_PWR_FSR"
  | .refreshG => "REFRESH_G"
  | .refreshV => "REFRESH_V"
  | .slow => "SLOW"
  | .ctrlAct => "CTRL_ACT"
  | .negPwrFsrAct => "NEG_PWR_FSR_ACT"
  | .ctrlLat => "CTRL_LAT"
  | .negPwrFsrLat => "NEG_PWR_FSR_LAT"
  | .accumConfig => "ACCUM_CONFIG"
  | .alertStatus => "ALERT_STATUS"
  | .slowAlert1 => "SLOW_ALERT1"
  | .gpioAlert2 => "GPIO_ALERT2"
  | .accFullnessLimits => "ACC_FULLNESS_LIMITS"
  | .ocLimitNsamples => "OC_LIMIT_NSAMPLES"
  | .ucLimitNsamples => "UC_LIMIT_NSAMPLES"
  | .opLimitNsamples => "OP_LIMIT_NSAMPLES"
  | .ovLimitNsamples => "OV_LIMIT_NSAMPLES"
  | .uvLimitNsamples => "UV_LIMIT_NSAMPLES"
  | .alertEnable => "ALERT_ENABLE"
  | .accumConfigAct => "ACCUM_CONFIG_ACT"
  | .accumConfigLat => "ACCUM_CONFIG_LAT"
  | .productId => "PRODUCT_ID"
  | .manufacturerId => "MANUFACTURER_ID"
  | .revisionId => "REVISION_ID"
  | .vacc ch => "VACC" ++ toString (ch.val + 1)
  | .vbus ch => "VBUS" ++ toString (ch.val + 1)
  | .vsense ch => "VSENSE" ++ toString (ch.val + 1)
  | .vbusAvg ch => "VBUS" ++ toString (ch.val + 1) ++ "_AVG"
  | .vsenseAvg ch => "VSENSE" ++ toString (ch.val + 1) ++ "_AVG"
  | .vpower ch => "VPOWER" ++ toString (ch.val + 1)
  | .ocLimit ch => "OC_LIMIT" ++ toString (ch.val + 1)
  | .ucLimit ch => "UC_LIMIT" ++ toString (ch.val + 1)
  | .opLimit ch => "OP_LIMIT" ++ toString (ch.val + 1)
  | .ovLimit ch => "OV_LIMIT" ++ toString (ch.val + 1)
  | .uvLimit ch => "UV_LIMIT" ++ toString (ch.val + 1)
  | .other n => "REG" ++ toString n

/-- A list as rule R64 writes it. -/
def listText (l : List String) : String := "[" ++ String.intercalate ", " l ++ "]"

/-- A binary64 operand. Rule R64 writes numbers in decimal; the text here is the whole number that the
value's bits are, and `NaN` for a NaN, whose bits are open (decision D7). -/
def floatText (x : F64) : String :=
  match x.toBits with
  | some b => toString b.toNat
  | none => "NaN"

/-- The data operands of a request that rule R59's table lists for the operation. `CWRITE` is written with
`S` for a byte-array register, `withStr`, and with `A` for the others (rule R111). -/
def dataText (i : Instr) (withStr : Bool) (r : Request) : List String :=
  let a := "A=" ++ toString r.a.toNat
  let b := "B=" ++ floatText r.b
  let str := "S=" ++ listText (r.str.map fun x => toString x.toNat)
  match i with
  | .decV | .decU8 | .decU16 | .decU32 | .decU56 | .decPid | .decBa _ | .encBa _ => [str]
  | .encU8 | .encU16 | .encU32 | .encU56 | .encPid | .xbits _ _ | .sext16 | .sext32 | .sext56 => [a]
  | .i2fS | .i2fU | .cfgdec | .accdec | .smdec | .actcnt _ | .fsdec _ => [a]
  | .fscale | .scale _ => [a, b]
  | .cwrite _ => if withStr then [str] else [a]
  | .init => ["CAL=" ++ listText (r.cal.toList.map floatText)]
  | .encV | .lookup _ | .cread _ | .cinv _ | .cvalid _ | .cinvall => []
  | .refresh | .refreshG | .refreshV | .getFs => []
  | .getVbus _ | .getVbusavg _ | .getVsense _ | .getVsenseavg _ | .getCurrent _ => []
  | .getCurrentavg _ | .getPower _ | .getVacc _ | .getEnergy _ => []
  | .lsbVbus _ | .lsbVsense _ | .lsbPower _ | .getVcfg _ | .getIcfg _ | .getAccmode _ => []

/-- The request-word operands, in rule R64's order; `SCALE` writes its width and its direction bit. -/
def wordText : Instr → List String
  | .decBa n | .encBa n => [toString n.toNat]
  | .xbits pos width => [toString pos.toNat, toString width.toNat]
  | .actcnt cap | .fsdec cap => [toString cap.toNat]
  | .scale mode =>
    [match scaleWidth mode with
      | some w => toString w.bits
      | none => "reserved",
     if mode.getLsbD 2 then "1" else "0"]
  | .lookup addr | .cread addr | .cwrite addr | .cinv addr | .cvalid addr => [toString addr.toNat]
  | .getVbus ch | .getVbusavg ch | .getVsense ch | .getVsenseavg ch | .getCurrent ch => [toString ch.toNat]
  | .getCurrentavg ch | .getPower ch | .getVacc ch | .getEnergy ch => [toString ch.toNat]
  | .lsbVbus ch | .lsbVsense ch | .lsbPower ch | .getVcfg ch | .getIcfg ch => [toString ch.toNat]
  | .getAccmode ch => [toString ch.toNat]
  | .decV | .decU8 | .decU16 | .decU32 | .decU56 | .decPid => []
  | .encV | .encU8 | .encU16 | .encU32 | .encU56 | .encPid => []
  | .sext16 | .sext32 | .sext56 | .i2fS | .i2fU | .fscale | .cfgdec | .accdec | .smdec => []
  | .cinvall | .refresh | .refreshG | .refreshV | .init | .getFs => []

/-- Rule R64: the mnemonic, then the request-word operands, then the data operands. -/
def requestText (i : Instr) (withStr : Bool) (r : Request) : String :=
  match wordText i ++ dataText i withStr r with
  | [] => mnemonic i
  | ops => mnemonic i ++ " " ++ String.intercalate ", " ops

/-- The three copies of a configuration register that rule R65 names. -/
inductive Copy where
  | live
  | act
  | lat
  deriving DecidableEq, Repr

/-- The pseudo-operations of rule R65, each a getter (`set` false) or a setter of one copy of a register. -/
inductive Pseudo where
  | ctrl (set : Bool) (copy : Copy)
  | accumcfg (set : Bool) (copy : Copy)
  | negpwrfsr (set : Bool) (copy : Copy)
  deriving DecidableEq, Repr

/-- The register a pseudo-operation names. -/
def Pseudo.reg : Pseudo → Reg
  | .ctrl _ .live => .ctrl
  | .ctrl _ .act => .ctrlAct
  | .ctrl _ .lat => .ctrlLat
  | .accumcfg _ .live => .accumConfig
  | .accumcfg _ .act => .accumConfigAct
  | .accumcfg _ .lat => .accumConfigLat
  | .negpwrfsr _ .live => .negPwrFsr
  | .negpwrfsr _ .act => .negPwrFsrAct
  | .negpwrfsr _ .lat => .negPwrFsrLat

/-- The address of the default table that rule R65's expansion has. -/
def Pseudo.address : Pseudo → Byte
  | .ctrl _ .live => 0x01
  | .ctrl _ .act => 0x20
  | .ctrl _ .lat => 0x22
  | .accumcfg _ .live => 0x24
  | .accumcfg _ .act => 0x43
  | .accumcfg _ .lat => 0x44
  | .negpwrfsr _ .live => 0x1C
  | .negpwrfsr _ .act => 0x21
  | .negpwrfsr _ .lat => 0x23

/-- Whether it is a setter. -/
def Pseudo.isSet : Pseudo → Bool
  | .ctrl set _ => set
  | .accumcfg set _ => set
  | .negpwrfsr set _ => set

/-- Rule R65: the one request a pseudo-operation expands to, a `CREAD` or a `CWRITE` with its `A`. -/
def Pseudo.expand (p : Pseudo) (v : Word) : Request :=
  if p.isSet then { Request.idle with word := encode (.cwrite p.address), a := v }
  else { Request.idle with word := encode (.cread p.address) }

/-- The name of a pseudo-operation in rule R65's table. -/
def Pseudo.name (p : Pseudo) : String :=
  let verb := if p.isSet then "SET." else "GET."
  let copy : Copy → String
    | .live => ""
    | .act => ".ACT"
    | .lat => ".LAT"
  match p with
  | .ctrl _ c => verb ++ "CTRL" ++ copy c
  | .accumcfg _ c => verb ++ "ACCUMCFG" ++ copy c
  | .negpwrfsr _ c => verb ++ "NEGPWRFSR" ++ copy c

end Sys2Proof.Machine
end

