-- ==== Sys2Proof/Safety.lean ====
section
/-! DEFINITION. What a good state and a good step of the block are, in the words the statements use: the
legality of the parameters, the invariant of spec/10_state.md, and the shape of the transactions. -/

namespace Sys2Proof.Machine

/-- The Register Descriptor Table of this block (rule R53), in its order. -/
def State.table (s : State) : List Descriptor := s.cache.map (·.desc)

/-- The parameters have values the spec allows (rules R8, R14, R52, R54, R100, R118). -/
def State.legal (s : State) : Bool := tableLegal s.table && s.params.legal

/-- A value of the codec's value type (rules R14, R50). A 7-byte register's value is any 64 bits: a CWRITE
caches what it was given (rule R110). -/
def Value.fits : Codec → Value → Bool
  | .void, v => v == {}
  | .u8, v => v.ival.toNat < 2 ^ 8 && v.bytes.isEmpty
  | .u16, v => v.ival.toNat < 2 ^ 16 && v.bytes.isEmpty
  | .u32, v => v.ival.toNat < 2 ^ 32 && v.bytes.isEmpty
  | .u56, v => v.bytes.isEmpty
  | .pid, v => v.ival.toNat < 2 ^ 8 && v.bytes.isEmpty
  | .ba n, v => v.ival == 0 && v.bytes.length == n

/-- A valid Cache Register is cacheable (rule R16) and holds a value of its codec's type (rule R14). -/
def CacheReg.coherent (c : CacheReg) : Bool :=
  !c.valid || (c.desc.cacheable && Value.fits c.desc.codec c.value)

/-- An initialised handle is what `P_PRODUCT_TABLE` says of its product (rules R9, R29, R119). -/
def State.handleOk (s : State) : Bool :=
  !s.handle.initialised ||
    match productOf s.params s.handle.productId with
    | some p => s.handle.channelCount == p.channelCount && s.handle.isHighRes == p.isHighRes
    | none => false

/-- The block's invariant: legal parameters, coherent Cache Registers, a handle that fits its product. -/
def State.inv (s : State) : Bool :=
  s.legal && s.cache.all CacheReg.coherent && s.handleOk

/-- A transaction goes to the address of a row and has that row's wire length (rule R31); the refresh delay
is no transaction. -/
def BusEvent.inTable (t : List Descriptor) : BusEvent → Prop
  | .read addr n _ => ∃ d ∈ t, d.address = addr ∧ d.wireLength = n
  | .write addr bytes _ => ∃ d ∈ t, d.address = addr ∧ d.wireLength = bytes.length
  | .delay _ => True

/-- Whether the event is a transaction (rules R33, R34). -/
def BusEvent.isTransaction : BusEvent → Bool
  | .read _ _ _ => true
  | .write _ _ _ => true
  | .delay _ => false

/-- How many transactions the block has issued. -/
def State.transactions (s : State) : Nat := (s.trace.filter BusEvent.isTransaction).length

/-- A safe step: the block answers and goes on; it neither faults nor refuses (rule R159). -/
def State.stepsOn (s : State) : Prop := ∃ t, step s = .next t

/-! ## The words of the statements

These restate in plain arithmetic what a rule says, apart from the definitions the machine runs on. -/

/-- The block answers `r` and changes nothing else. -/
def State.answered (s : State) (r : Response) : Out := .next { s with responses := r :: s.responses }

/-- The block answers an error and changes nothing else (rule R146). -/
def State.answeredError (s : State) (status : BitVec 4) (info : Word) : Out :=
  s.answered { status := status, ival := info }

/-- A `width`-bit number read as two's complement (rules R89, R90). -/
def twosComplement (width : Nat) (v : Nat) : Int :=
  if v < 2 ^ (width - 1) then (v : Int) else (v : Int) - 2 ^ width

/-- The accumulator sign rule (rule R91): with bit 47 set, the low 47 bits count up from -2^47; else the
number is what it is. -/
def bit47Signed (v : Nat) : Int :=
  if v / 2 ^ 47 % 2 = 1 then ((v % 2 ^ 47 : Nat) : Int) - 2 ^ 47 else (v : Int)

/-- A raw register value of 16, 32 or 56 bits as an integer (rule R93). -/
def readRaw (width : Nat) (bidirectional : Bool) (v : Nat) : Int :=
  if bidirectional then (if width = 56 then bit47Signed v else twosComplement width v) else (v : Int)

/-- The 2-bit code at a position (rules R25, R26). -/
def codeAt (v : Word) (position : Nat) : Nat := v.toNat / 2 ^ position % 4

/-- The flags of a configuration code (rule R85). -/
def flagsOf (p : Params) (code : Nat) : CfgFlags :=
  ⟨code == 1 || code == 2, code == 0 || code == 1 || (code == 3 && p.code3Fsr)⟩

/-- Channel `c`'s voltage flags in a value of `NEG_PWR_FSR_LAT` (rule R122). -/
def voltageFlags (p : Params) (c : Fin 4) (cfg : Value) : CfgFlags := flagsOf p (codeAt cfg.ival (6 - 2 * c.val))

/-- Channel `c`'s current flags in a value of `NEG_PWR_FSR_LAT` (rule R122). -/
def currentFlags (p : Params) (c : Fin 4) (cfg : Value) : CfgFlags :=
  flagsOf p (codeAt cfg.ival (14 - 2 * c.val))

/-- How many of bits 7:4 are clear (rule R102). -/
def clearBits (ctrl : Nat) : Nat := ((List.range 4).filter fun k => ctrl / 2 ^ (4 + k) % 2 == 0).length

/-- The distance between two numbers. -/
def distance (x y : Nat) : Nat := ((x : Int) - (y : Int)).natAbs

/-- `x` is the binary64 number nearest to `n / d` quanta with the sign `neg`, ties to even; an infinity where
that number is at or past the midpoint above the largest finite one (decision D6). -/
def isNearest (x : F64) (neg : Bool) (n d : Nat) : Prop :=
  match x with
  | .nan => False
  | .inf t => t = neg ∧ d * ((2 ^ 54 - 1) * 2 ^ 2045) ≤ 2 * n
  | .finite t e f =>
    t = neg ∧ 2 * n < d * ((2 ^ 54 - 1) * 2 ^ 2045) ∧
    ∀ e' f',
      distance (F64.quanta e f * d) n < distance (F64.quanta e' f' * d) n ∨
      (distance (F64.quanta e f * d) n = distance (F64.quanta e' f' * d) n ∧
        (F64.quanta e f = F64.quanta e' f' ∨ f.getLsbD 0 = false))

/-- A `CacheRead` of register `r` in state `s` answers `v` and leaves the state `t` (rule R108). -/
def State.reads (s : State) (r : Reg) (v : Value) (t : State) : Prop :=
  ∃ c, s.cacheReg r = some c ∧ cacheRead c.desc s = .ok v t

/-- A `CacheRead` of register `r` in state `s` raises `e` and leaves the state `t` (rule R108). -/
def State.readFails (s : State) (r : Reg) (e : Err) (t : State) : Prop :=
  ∃ c, s.cacheReg r = some c ∧ cacheRead c.desc s = .error e t

/-- `CacheRead`s of these registers, one after another from state `s`, all answer and leave the state `t`. -/
def State.readsAll (s : State) : List Reg → State → Prop
  | [], t => t = s
  | r :: rest, t => ∃ v u, s.reads r v u ∧ State.readsAll u rest t

/-- The block has a handle whose channel `b` is its channel `c`, and legal parameters (rule R121). -/
def State.serves (s : State) (b : Byte) (c : Fin 4) : Prop :=
  s.legal = true ∧ s.handle.initialised = true ∧ c.val = b.toNat ∧ b.toNat < s.handle.channelCount.val

/-- The block has a handle, legal parameters, and the Cache Register `c` at address `addr` (rule R106). -/
def State.holds (s : State) (addr : Byte) (c : CacheReg) : Prop :=
  s.legal = true ∧ s.handle.initialised = true ∧ c ∈ s.cache ∧ c.desc.address = addr

/-- The Cache Register file after a fill of register `r` with `v` (rules R108, R110). -/
def filled (l : List CacheReg) (r : Reg) (v : Value) : List CacheReg :=
  l.map fun c => if c.desc.reg = r then { c with valid := true, value := v } else c

/-- The operation codes rule R60 reserves. -/
def reservedOpc (o : Nat) : Prop :=
  o = 0x00 ∨ o = 0x08 ∨ (0x1D ≤ o ∧ o ≤ 0x1F) ∨ (0x29 ≤ o ∧ o ≤ 0x2E) ∨ 0x40 ≤ o

end Sys2Proof.Machine

namespace Sys2Proof

/-- The operand of a `CWRITE` to a register of this codec is good, and is the value `v` (rule R111). -/
def Codec.takes (c : Codec) (r : Machine.Request) (v : Machine.Value) : Prop :=
  match c with
  | .void => False
  | .u8 => r.a.toNat < 2 ^ 8 ∧ v = { ival := r.a }
  | .pid => r.a.toNat < 2 ^ 8 ∧ v = { ival := r.a }
  | .u16 => r.a.toNat < 2 ^ 16 ∧ v = { ival := r.a }
  | .u32 => r.a.toNat < 2 ^ 32 ∧ v = { ival := r.a }
  | .u56 => v = { ival := r.a }
  | .ba n => r.str.length = n ∧ v = { bytes := r.str }

/-- The operations that read the handle or the Cache Register file and so need a successful INIT
(rule R155). -/
def Instr.needsInit : Instr → Bool
  | .cread _ | .cwrite _ | .cinv _ | .cvalid _ | .cinvall => true
  | .refresh | .refreshG | .refreshV | .getFs => true
  | .getVbus _ | .getVbusavg _ | .getVsense _ | .getVsenseavg _ | .getCurrent _ => true
  | .getCurrentavg _ | .getPower _ | .getVacc _ | .getEnergy _ => true
  | .lsbVbus _ | .lsbVsense _ | .lsbPower _ | .getVcfg _ | .getIcfg _ | .getAccmode _ => true
  | .decV | .decU8 | .decU16 | .decU32 | .decU56 | .decPid | .decBa _ => false
  | .encV | .encU8 | .encU16 | .encU32 | .encU56 | .encPid | .encBa _ => false
  | .xbits _ _ | .sext16 | .sext32 | .sext56 | .i2fS | .i2fU | .fscale | .cfgdec => false
  | .accdec | .smdec | .actcnt _ | .fsdec _ | .scale _ | .lookup _ | .init => false

/-- The channel index of a per-channel telemetry operation (rule R121). -/
def Instr.channel : Instr → Option Byte
  | .getVbus ch | .getVbusavg ch | .getVsense ch | .getVsenseavg ch | .getCurrent ch => some ch
  | .getCurrentavg ch | .getPower ch | .getVacc ch | .getEnergy ch => some ch
  | .lsbVbus ch | .lsbVsense ch | .lsbPower ch | .getVcfg ch | .getIcfg ch | .getAccmode ch => some ch
  | .cread _ | .cwrite _ | .cinv _ | .cvalid _ | .cinvall => none
  | .refresh | .refreshG | .refreshV | .getFs => none
  | .decV | .decU8 | .decU16 | .decU32 | .decU56 | .decPid | .decBa _ => none
  | .encV | .encU8 | .encU16 | .encU32 | .encU56 | .encPid | .encBa _ => none
  | .xbits _ _ | .sext16 | .sext32 | .sext56 | .i2fS | .i2fU | .fscale | .cfgdec => none
  | .accdec | .smdec | .actcnt _ | .fsdec _ | .scale _ | .lookup _ | .init => none

/-- The operations that clear `valid` flags: `CINV`, `CINVALL`, the refresh operations and `INIT` (rule R15). -/
def Instr.invalidates : Instr → Bool
  | .cinv _ | .cinvall | .refresh | .refreshG | .refreshV | .init => true
  | .cread _ | .cwrite _ | .cvalid _ | .lookup _ | .getFs => false
  | .getVbus _ | .getVbusavg _ | .getVsense _ | .getVsenseavg _ | .getCurrent _ => false
  | .getCurrentavg _ | .getPower _ | .getVacc _ | .getEnergy _ => false
  | .lsbVbus _ | .lsbVsense _ | .lsbPower _ | .getVcfg _ | .getIcfg _ | .getAccmode _ => false
  | .decV | .decU8 | .decU16 | .decU32 | .decU56 | .decPid | .decBa _ => false
  | .encV | .encU8 | .encU16 | .encU32 | .encU56 | .encPid | .encBa _ => false
  | .xbits _ _ | .sext16 | .sext32 | .sext56 | .i2fS | .i2fU | .fscale | .cfgdec => false
  | .accdec | .smdec | .actcnt _ | .fsdec _ | .scale _ => false

end Sys2Proof
end

