-- ==== Sys2Proof/Certificates/Slice0/Obligations.lean ====
section
/-! DEFINITION. The statements for the provers. `State.answered r` is the same state with the one response
`r` more; `State.reads r v t` says that a CacheRead of register `r` answers `v` and leaves `t` (both in
Sys2Proof/Safety.lean), and CacheReadRule says what such a read is. -/

open Sys2Proof Sys2Proof.Machine

/-- For every operation, with every value its 8-bit operand fields can have, the decoder reads the word the
encoder writes as that operation with those operands. It covers all 53 operations; no bit of an encoding
is dropped. -/
def Obligations.DecodeInvertsEncode : Prop :=
  ∀ i : Instr, decode (encode i) = .ok i

/-- Whenever the decoder reads a 32-bit word as an operation, that word is the encoding of the operation: no
two words mean the same operation and no ignored bit exists. -/
def Obligations.DecodedWordIsUnique : Prop :=
  ∀ (w : ReqWord) (i : Instr), decode w = .ok i → encode i = w

/-- The decoder calls a word reserved exactly when its operation code is 0x00, 0x08, 0x1D to 0x1F, 0x29 to
0x2E or 0x40 to 0xFF. A step on a request with such a word answers status 6 with the word as info, takes
the request off the queue, issues no transaction and changes nothing else. -/
def Obligations.ReservedOpcodeIsIllegal : Prop :=
  (∀ w : ReqWord, decode w = .error .reservedOpcode ↔ reservedOpc (ReqWord.opc w).toNat) ∧
  ∀ (s : State) (r : Request) (rest : List Request),
    s.incoming = r :: rest → reservedOpc (ReqWord.opc r.word).toNat →
    step s = .next { s with
      port := r
      incoming := rest
      responses := { status := 6, ival := r.word.setWidth 64 } :: s.responses }

/-- Take any operation. A request whose word has that operation's code but differs from the row's pattern in a
bit the row fixes (a must-be-zero field, and for SCALE also ARG[7:3]) is answered with status 6 and the
word as info; no transaction, no other change. -/
def Obligations.NonzeroFieldIsIllegal : Prop :=
  ∀ (i : Instr) (s : State) (r : Request) (rest : List Request),
    s.incoming = r :: rest → ReqWord.opc r.word = ReqWord.opc i.tableRow.pattern →
    r.word &&& i.tableRow.mask ≠ i.tableRow.pattern →
    step s = .next { s with
      port := r
      incoming := rest
      responses := { status := 6, ival := r.word.setWidth 64 } :: s.responses }

/-- When the requester's next request has a word that decodes to operation i, step puts that request on the
port, takes it off the queue and is exec of i there. With no request waiting a step leaves the state as it
is; that this waiting is a step of its own is the model's choice (assumption log 1). -/
def Obligations.StepRunsDecodedRequest : Prop :=
  (∀ (s : State) (r : Request) (rest : List Request) (i : Instr),
    s.incoming = r :: rest → decode r.word = .ok i →
    step s = exec i { s with port := r, incoming := rest }) ∧
  ∀ s : State, s.incoming = [] → step s = .next s

/-- Eight request words taken from the spec's worked examples decode to the operations those examples name,
and two illegal ones are refused for the reason the spec gives. -/
def Obligations.SampleWordsDecode : Prop :=
  decode 0x07000003 = .ok (.decBa 3) ∧ decode 0x0D000000 = .ok .encU56 ∧
  decode 0x10000E02 = .ok (.xbits 14 2) ∧ decode 0x1C000006 = .ok (.scale 6) ∧
  decode 0x21000700 = .ok (.cread 7) ∧ decode 0x2F000000 = .ok .init ∧
  decode 0x3E030000 = .ok (.getIcfg 3) ∧ decode 0x39000000 = .ok .getFs ∧
  decode 0x08000000 = .error .reservedOpcode ∧ decode 0x39010000 = .error .nonzeroField

/-- For each of the 18 pseudo-operations the expansion is one request that decodes to a CREAD (getters) or
CWRITE with A the value (setters), at an address whose row of the default table is the named register, a
register with an integer codec. -/
def Obligations.PseudoOperationsExpand : Prop :=
  ∀ (p : Pseudo) (v : Word),
    decode (p.expand v).word = .ok (if p.isSet then .cwrite p.address else .cread p.address) ∧
    (p.isSet = true → (p.expand v).a = v) ∧
    ∃ d ∈ defaultTable, d.address = p.address ∧ d.reg = p.reg ∧ d.codec.isInt = true

/-- With a string of exactly the codec's length each decode answers the big-endian number its bytes are
(nothing for the void codec, top byte zero for the 7-byte one). With a string of any other length it
answers LengthMismatch with codec id, wire length and the length it got. Every form changes nothing else.
The 7-byte clause follows the pseudocode of rule R73 with rules R51 and R37, not the worked example of
rule R73, which disagrees with them: a reading of the model (assumption log 23). -/
def Obligations.DecodeOperations : Prop :=
  ∀ s : State,
    (s.port.str = [] → exec .decV s = s.answered {}) ∧
    (∀ b0, s.port.str = [b0] →
      exec .decU8 s = s.answered { ival := b0.setWidth 64 } ∧
      exec .decPid s = s.answered { ival := b0.setWidth 64 }) ∧
    (∀ b0 b1, s.port.str = [b0, b1] →
      exec .decU16 s = s.answered { ival := (b0 ++ b1).setWidth 64 }) ∧
    (∀ b0 b1 b2 b3, s.port.str = [b0, b1, b2, b3] →
      exec .decU32 s = s.answered { ival := (b0 ++ b1 ++ b2 ++ b3).setWidth 64 }) ∧
    (∀ b0 b1 b2 b3 b4 b5 b6, s.port.str = [b0, b1, b2, b3, b4, b5, b6] →
      exec .decU56 s =
        s.answered { ival := (0#8) ++ b0 ++ b1 ++ b2 ++ b3 ++ b4 ++ b5 ++ b6 }) ∧
    ∀ (i : Instr) (id length : Nat),
      (i, id, length) ∈ [(.decV, 0, 0), (.decU8, 1, 1), (.decU16, 2, 2), (.decU32, 3, 4),
        (.decU56, 4, 7), (.decPid, 5, 1)] →
      s.port.str.length ≠ length →
      exec i s = s.answeredError 2 (BitVec.ofNat 64 id ||| (BitVec.ofNat 64 length <<< 8) |||
        (BitVec.ofNat 64 s.port.str.length <<< 16))

/-- Each encode answers the bytes of A, most significant first, the 7-byte one without A[63:56] and without a
check. For the other integer codecs an A with a bit at or above the codec's width is answered with
OperandRange and A. Every form changes nothing else. The 7-byte clause follows the pseudocode of rule R80
with rules R51 and R37, not the worked example of rule R80, which disagrees with them: a reading of the
model (assumption log 23). -/
def Obligations.EncodeOperations : Prop :=
  ∀ s : State,
    let a := s.port.a
    exec .encV s = s.answered { bytes := [] } ∧
    (a.toNat < 2 ^ 8 →
      exec .encU8 s = s.answered { bytes := [a.extractLsb' 0 8] } ∧
      exec .encPid s = s.answered { bytes := [a.extractLsb' 0 8] }) ∧
    (a.toNat < 2 ^ 16 →
      exec .encU16 s = s.answered { bytes := [a.extractLsb' 8 8, a.extractLsb' 0 8] }) ∧
    (a.toNat < 2 ^ 32 →
      exec .encU32 s = s.answered { bytes :=
        [a.extractLsb' 24 8, a.extractLsb' 16 8, a.extractLsb' 8 8, a.extractLsb' 0 8] }) ∧
    exec .encU56 s = s.answered { bytes :=
      [a.extractLsb' 48 8, a.extractLsb' 40 8, a.extractLsb' 32 8, a.extractLsb' 24 8,
       a.extractLsb' 16 8, a.extractLsb' 8 8, a.extractLsb' 0 8] } ∧
    ∀ (i : Instr) (width : Nat),
      (i, width) ∈ [(.encU8, 8), (.encPid, 8), (.encU16, 16), (.encU32, 32)] → 2 ^ width ≤ a.toNat →
      exec i s = s.answeredError 8 a

/-- For n at most 8 and a string of length n both answer the string itself; for a string of another length
LengthMismatch with id 6, n and the length; for n above 8 OperandRange with n, whatever the string.
Nothing else changes. -/
def Obligations.ByteArrayOperations : Prop :=
  ∀ (s : State) (n : Byte) (i : Instr), (i = .decBa n ∨ i = .encBa n) →
    (n.toNat ≤ 8 → s.port.str.length = n.toNat → exec i s = s.answered { bytes := s.port.str }) ∧
    (n.toNat ≤ 8 → s.port.str.length ≠ n.toNat →
      exec i s = s.answeredError 2 (6 ||| (BitVec.ofNat 64 n.toNat <<< 8) |||
        (BitVec.ofNat 64 s.port.str.length <<< 16))) ∧
    (8 < n.toNat → exec i s = s.answeredError 8 (n.setWidth 64))

/-- For every codec but the 7-byte one, decode of encode is the value for each value of the codec's type, and
encode of decode is the string for each string of its length. For the 7-byte codec decode of encode is the
value exactly when the top byte is zero, and encode of decode is the string for every 7-byte string. -/
def Obligations.CodecRoundTrip : Prop :=
  (∀ (c : Codec) (v : Value), c ≠ .u56 → v.fits c = true → decodeWire c (encodeWire c v) = .ok v) ∧
  (∀ (c : Codec) (b : List Byte), b.length = c.wireLength →
    ∃ v, decodeWire c b = .ok v ∧ encodeWire c v = b) ∧
  ∀ v : Value, v.fits .u56 = true →
    (decodeWire .u56 (encodeWire .u56 v) = .ok v ↔ v.ival.extractLsb' 56 8 = 0)

/-- For a position up to 63 and a width up to 64 XBITS answers A divided by 2^position, modulo 2^width. A
position above 63 is answered with OperandRange and the position; else a width above 64 with OperandRange
and the width. Nothing else changes. -/
def Obligations.ExtractBits : Prop :=
  ∀ (s : State) (p w : Byte),
    (p.toNat ≤ 63 → w.toNat ≤ 64 → exec (.xbits p w) s =
      s.answered { ival := BitVec.ofNat 64 (s.port.a.toNat / 2 ^ p.toNat % 2 ^ w.toNat) }) ∧
    (63 < p.toNat → exec (.xbits p w) s = s.answeredError 8 (p.setWidth 64)) ∧
    (p.toNat ≤ 63 → 64 < w.toNat → exec (.xbits p w) s = s.answeredError 8 (w.setWidth 64))

/-- For A from 0 to 3 CFGDEC answers bit 0 bipolar and bit 1 full scale by the table: 0b10, 0b11, 0b01, and
for code 3 unipolar with the full-scale bit P_CODE3_FSR. A larger A is answered with OperandRange. Nothing
else changes. -/
def Obligations.ConfigurationDecode : Prop :=
  ∀ s : State,
    (s.port.a = 0 → exec .cfgdec s = s.answered { ival := 0b10 }) ∧
    (s.port.a = 1 → exec .cfgdec s = s.answered { ival := 0b11 }) ∧
    (s.port.a = 2 → exec .cfgdec s = s.answered { ival := 0b01 }) ∧
    (s.port.a = 3 → exec .cfgdec s = s.answered { ival := if s.params.code3Fsr then 0b10 else 0b00 }) ∧
    (4 ≤ s.port.a.toNat → exec .cfgdec s = s.answeredError 8 s.port.a)

/-- For A below 16, with mode A mod 4, voltage bipolar A[2] and current bipolar A[3], ACCDEC answers the mode
as tag and as LSB kind, and the direction: mode 0 either flag, mode 1 the current flag, mode 2 the voltage
flag, mode 3 none. A larger A is answered with OperandRange. Nothing else changes. -/
def Obligations.AccumulatorModeDecode : Prop :=
  ∀ s : State,
    let a := s.port.a.toNat
    let vbip := a / 4 % 2 == 1
    let ibip := a / 8 % 2 == 1
    (a < 16 → a % 4 = 0 → exec .accdec s = s.answered { tag := 0, ival := 0, flag := vbip || ibip }) ∧
    (a < 16 → a % 4 = 1 → exec .accdec s = s.answered { tag := 1, ival := 1, flag := ibip }) ∧
    (a < 16 → a % 4 = 2 → exec .accdec s = s.answered { tag := 2, ival := 2, flag := vbip }) ∧
    (a < 16 → a % 4 = 3 → exec .accdec s = s.answered { tag := 3, ival := 3, flag := false }) ∧
    (16 ≤ a → exec .accdec s = s.answeredError 8 s.port.a)

/-- SEXT16 and SEXT32 answer the 64-bit pattern of A read as two's complement of their width. SEXT56 answers A
for a clear bit 47, and the low 47 bits counted up from -2^47 for a set one, whatever bits 55 to 48 were.
An A wider than the operation's width is answered with OperandRange. Nothing else changes. -/
def Obligations.SignExtension : Prop :=
  ∀ s : State,
    let a := s.port.a.toNat
    (a < 2 ^ 16 → exec .sext16 s = s.answered { ival := BitVec.ofInt 64 (twosComplement 16 a) }) ∧
    (a < 2 ^ 32 → exec .sext32 s = s.answered { ival := BitVec.ofInt 64 (twosComplement 32 a) }) ∧
    (a < 2 ^ 56 → exec .sext56 s = s.answered { ival := BitVec.ofInt 64 (bit47Signed a) }) ∧
    (2 ^ 16 ≤ a → exec .sext16 s = s.answeredError 8 s.port.a) ∧
    (2 ^ 32 ≤ a → exec .sext32 s = s.answeredError 8 s.port.a) ∧
    (2 ^ 56 ≤ a → exec .sext56 s = s.answeredError 8 s.port.a)

/-- For every integer the conversion answers the binary64 number nearest to it among all finite ones, ties to
the even significand, with its sign; below 2^53 in magnitude the number it answers has exactly that value. -/
def Obligations.IntegerConversionIsNearest : Prop :=
  ∀ n : Int,
    isNearest (F64.i2f n) (decide (n < 0)) (n.natAbs * F64.one) 1 ∧
    (n.natAbs < 2 ^ 53 →
      ∃ e f, F64.i2f n = .finite (decide (n < 0)) e f ∧ F64.quanta e f = n.natAbs * F64.one)

/-- The product of two finite numbers, and their quotient for a divisor that is not zero, are the binary64
number nearest to the exact result, with the sign the exclusive or of the signs. A NaN operand gives NaN;
zero times infinity, zero over zero and infinity over infinity give NaN. A number that is not zero over
zero, infinity times infinity or a number that is not zero, and infinity over a finite number are
infinities, a finite number over infinity is a zero, each with that sign. The special cases and signs are
IEEE 754's, which D6 names (assumption log 19, DEDUCED). -/
def Obligations.FloatArithmeticIsNearest : Prop :=
  (∀ s t e e' f f',
    isNearest (F64.mul (.finite s e f) (.finite t e' f')) (s != t)
      (F64.quanta e f * F64.quanta e' f') F64.one) ∧
  (∀ s t e e' f f', F64.quanta e' f' ≠ 0 →
    isNearest (F64.div (.finite s e f) (.finite t e' f')) (s != t)
      (F64.quanta e f * F64.one) (F64.quanta e' f')) ∧
  (∀ s t e e' f f', F64.quanta e' f' = 0 →
    F64.div (.finite s e f) (.finite t e' f') =
      if F64.quanta e f = 0 then .nan else .inf (s != t)) ∧
  (∀ x, F64.mul .nan x = .nan ∧ F64.mul x .nan = .nan ∧ F64.div .nan x = .nan ∧ F64.div x .nan = .nan) ∧
  (∀ s t e f, F64.quanta e f = 0 →
    F64.mul (.inf s) (.finite t e f) = .nan ∧ F64.mul (.finite t e f) (.inf s) = .nan) ∧
  (∀ s t e f, F64.quanta e f ≠ 0 →
    F64.mul (.inf s) (.finite t e f) = .inf (s != t) ∧ F64.mul (.finite t e f) (.inf s) = .inf (t != s)) ∧
  (∀ s t, F64.mul (.inf s) (.inf t) = .inf (s != t) ∧ F64.div (.inf s) (.inf t) = .nan) ∧
  ∀ s t e f,
    F64.div (.inf s) (.finite t e f) = .inf (s != t) ∧
    F64.div (.finite s e f) (.inf t) = .finite (s != t) 0 0

/-- I2F.S answers the conversion of A read as signed, I2F.U that of A read as unsigned, FSCALE the binary64
product of the values whose bits are A and of B. None raises an error and nothing else changes. The value
of 64 bits has bit 63 as its sign, bits 62:52 as its exponent and bits 51:0 as its fraction; with exponent
2047 it is an infinity for fraction 0 and else NaN. That layout is IEEE 754 binary64, the format
00_scope.md section 4 and D6 name, and not a clause of R95 to R97; that every NaN pattern is one and the
same NaN is the model's choice (assumption log 3). -/
def Obligations.ConversionAndScalingOperations : Prop :=
  (∀ s : State,
    exec .i2fS s = s.answered { fval := F64.i2f (twosComplement 64 s.port.a.toNat) } ∧
    exec .i2fU s = s.answered { fval := F64.i2f s.port.a.toNat } ∧
    exec .fscale s = s.answered { fval := F64.mul (F64.ofBits s.port.a) s.port.b }) ∧
  ∀ b : Word,
    let sign := b.getLsbD 63
    let exponent := b.toNat / 2 ^ 52 % 2 ^ 11
    let fraction := b.toNat % 2 ^ 52
    (∀ h : exponent < 2047, F64.ofBits b = .finite sign ⟨exponent, h⟩ (BitVec.ofNat 52 fraction)) ∧
    (exponent = 2047 → fraction = 0 → F64.ofBits b = .inf sign) ∧
    (exponent = 2047 → fraction ≠ 0 → F64.ofBits b = .nan)

/-- With ARG[7:3] zero, width select 0, 1 or 2 for 16, 32 or 56 bits, and A within that width, SCALE answers
the conversion of A, read unsigned or by the width's sign rule as ARG[2] says, times B. A reserved mode is
answered with IllegalOperation and the request word; else an A too wide with OperandRange. Nothing else
changes. -/
def Obligations.ScaleOperation : Prop :=
  ∀ (s : State) (mode : Byte),
    (∀ select width, (select, width) ∈ [(0, 16), (1, 32), (2, 56)] →
      mode.toNat < 8 → mode.toNat % 4 = select →
      (s.port.a.toNat < 2 ^ width →
        let n := readRaw width (mode.toNat / 4 == 1) s.port.a.toNat
        exec (.scale mode) s = s.answered { fval := F64.mul (F64.i2f n) s.port.b }) ∧
      (2 ^ width ≤ s.port.a.toNat → exec (.scale mode) s = s.answeredError 8 s.port.a)) ∧
    ((8 ≤ mode.toNat ∨ mode.toNat % 4 = 3) →
      exec (.scale mode) s = s.answeredError 6 (s.port.word.setWidth 64))

/-- For A below 16 SMDEC answers the id of the class P_SAMPLE_MODE_CLASS gives the code, ids 0 to 8 in the
order adaptive, 1024, 256, 64, 8 samples per second, single-shot, sleep, fast or burst, reserved. A larger
A is answered with OperandRange. Nothing else changes. -/
def Obligations.SampleModeDecode : Prop :=
  ∀ s : State,
    (∀ (k : Fin 16) (id : Nat), s.port.a.toNat = k.val →
      (s.params.smClass[k], id) ∈ [(.adaptive, 0), (.sps1024, 1), (.sps256, 2), (.sps64, 3), (.sps8, 4),
        (.singleShot, 5), (.sleep, 6), (.fastBurst, 7), (.reserved, 8)] →
      exec .smdec s = s.answered { ival := BitVec.ofNat 64 id }) ∧
    (16 ≤ s.port.a.toNat → exec .smdec s = s.answeredError 8 s.port.a)

/-- For a cap of 1 to 4 and A below 2^16 ACTCNT answers the number of clear bits among A[7:4], at most the
cap. A cap outside 1 to 4 is answered with OperandRange and the cap; else a wider A with OperandRange and
A. Nothing else changes. -/
def Obligations.ActiveChannelCount : Prop :=
  ∀ (s : State) (cap : Byte),
    (1 ≤ cap.toNat → cap.toNat ≤ 4 → s.port.a.toNat < 2 ^ 16 → exec (.actcnt cap) s =
      s.answered { ival := BitVec.ofNat 64 (min (clearBits s.port.a.toNat) cap.toNat) }) ∧
    ((cap.toNat < 1 ∨ 4 < cap.toNat) → exec (.actcnt cap) s = s.answeredError 8 (cap.setWidth 64)) ∧
    (1 ≤ cap.toNat → cap.toNat ≤ 4 → 2 ^ 16 ≤ s.port.a.toNat →
      exec (.actcnt cap) s = s.answeredError 8 s.port.a)

/-- For a cap of 1 to 4 and A below 2^16 FSDEC answers, by the class of A[15:12]: 1024, 1024, 256, 64 or 8;
NaN for single-shot and sleep; P_RESERVED_FS for reserved; for fast or burst NaN with no active channel,
else 5120 over the active count, as an integer quotient if P_FS_INTDIV. Errors as ACTCNT. Nothing else
changes. -/
def Obligations.SampleFrequencyDecode : Prop :=
  ∀ (s : State) (cap : Byte),
    (∀ k : Fin 16, 1 ≤ cap.toNat → cap.toNat ≤ 4 → s.port.a.toNat < 2 ^ 16 →
      s.port.a.toNat / 2 ^ 12 = k.val →
      let n := min (clearBits s.port.a.toNat) cap.toNat
      exec (.fsdec cap) s = s.answered { fval :=
        match s.params.smClass[k] with
        | .adaptive => F64.i2f 1024
        | .sps1024 => F64.i2f 1024
        | .sps256 => F64.i2f 256
        | .sps64 => F64.i2f 64
        | .sps8 => F64.i2f 8
        | .singleShot => .nan
        | .sleep => .nan
        | .reserved => s.params.reservedFs
        | .fastBurst =>
          if n = 0 then .nan
          else if s.params.fsIntDiv then F64.i2f (5120 / n : Nat)
          else F64.div (F64.i2f 5120) (F64.i2f n) }) ∧
    ((cap.toNat < 1 ∨ 4 < cap.toNat) → exec (.fsdec cap) s = s.answeredError 8 (cap.setWidth 64)) ∧
    (1 ≤ cap.toNat → cap.toNat ≤ 4 → 2 ^ 16 ≤ s.port.a.toNat →
      exec (.fsdec cap) s = s.answeredError 8 s.port.a)

/-- The next transaction takes the first listed answer, which is then no longer listed; with none listed it
takes the free value of the counter, which then counts on. Nothing else changes. The list and the counter
are the model's (assumption log 2). -/
def Obligations.TransportDraw : Prop :=
  ∀ s : State,
    (∀ a rest, s.answers = a :: rest → s.draw = (a, { s with answers := rest })) ∧
    (s.answers = [] → s.draw = (Config.freeAnswer s.drawn, { s with drawn := s.drawn + 1 }))

/-- A valid register is read with no transaction and no change. Otherwise exactly one read goes to its address
with its wire length: a good answer is decoded, and fills the register (valid, that value) exactly when it
is cacheable; a string the codec refuses raises the codec's error and a transport error is raised
unchanged, both with the Cache Register file as it was. -/
def Obligations.CacheReadRule : Prop :=
  ∀ (s : State) (r : Reg) (c : CacheReg), s.cacheReg r = some c →
    let d := c.desc
    (c.valid = true → s.reads r c.value s) ∧
    (∀ bytes u v, c.valid = false → s.draw = (.ok bytes, u) → decodeWire d.codec bytes = .ok v →
      s.reads r v { u with
        trace := .read d.address d.wireLength (.ok bytes) :: u.trace
        cache := if d.cacheable then filled u.cache r v else u.cache }) ∧
    (∀ bytes u e, c.valid = false → s.draw = (.ok bytes, u) → decodeWire d.codec bytes = .error e →
      s.readFails r e { u with trace := .read d.address d.wireLength (.ok bytes) :: u.trace }) ∧
    (∀ p u, c.valid = false → s.draw = (.err p, u) →
      s.readFails r (.transportError p)
        { u with trace := .read d.address d.wireLength (.err p) :: u.trace })

/-- For an address that a row of a legal table has, LOOKUP answers address + wire length * 2^8 + codec id *
2^16 + cacheable * 2^24, with codec ids 0 to 6; for an address no row has it answers UnknownRegister with
the address. It needs no INIT and changes nothing else. -/
def Obligations.LookupOperation : Prop :=
  ∀ (s : State) (addr : Byte), s.legal = true →
    (∀ d ∈ s.table, d.address = addr →
      let id : Nat := match d.codec with
        | .void => 0 | .u8 => 1 | .u16 => 2 | .u32 => 3 | .u56 => 4 | .pid => 5 | .ba _ => 6
      let flag : Nat := if d.cacheable then 1 else 0
      let n := addr.toNat + d.wireLength * 2 ^ 8 + id * 2 ^ 16 + flag * 2 ^ 24
      exec (.lookup addr) s = s.answered { ival := BitVec.ofNat 64 n }) ∧
    ((∀ d ∈ s.table, d.address ≠ addr) →
      exec (.lookup addr) s = s.answeredError 5 (addr.setWidth 64))

/-- On a block with a handle that keeps its invariant, CREAD of a void register answers IllegalOperation with
the request word. Of any other register it answers what CacheRead gives: the string for a byte-array
register, the number for the others, with the state CacheRead leaves; where CacheRead raises it answers
that error. Without a handle, or at an address no row has, it answers NotInitialised or UnknownRegister,
in that order. -/
def Obligations.CreadOperation : Prop :=
  ∀ (s : State) (addr : Byte), s.inv = true →
    (∀ c v t, s.holds addr c → c.desc.codec ≠ .void → s.reads c.desc.reg v t →
      exec (.cread addr) s = t.answered
        (match c.desc.codec with
          | .ba _ => { bytes := v.bytes }
          | _ => { ival := v.ival })) ∧
    (∀ c e t, s.holds addr c → c.desc.codec ≠ .void → s.readFails c.desc.reg e t →
      exec (.cread addr) s = t.answered e.response) ∧
    (∀ c, s.holds addr c → c.desc.codec = .void →
      exec (.cread addr) s = s.answeredError 6 (s.port.word.setWidth 64)) ∧
    (s.handle.initialised = false → exec (.cread addr) s = s.answeredError 7 0) ∧
    (s.handle.initialised = true → (∀ d ∈ s.table, d.address ≠ addr) →
      exec (.cread addr) s = s.answeredError 5 (addr.setWidth 64))

/-- With a handle and legal parameters, and an operand good for the codec of the register at the address:
exactly one write of the encoded operand; if the transport takes it, the register is filled with the
operand as given exactly when it is cacheable, and the answer is a success; if not, TransportError with
the payload and the Cache Register file as it was. A void register, a number too wide and a string of the
wrong length are refused before any transaction. -/
def Obligations.CwriteOperation : Prop :=
  ∀ (s : State) (addr : Byte) (c : CacheReg), s.holds addr c →
    let d := c.desc
    let r := s.port
    (∀ v b u, d.codec.takes r v → s.draw = (.ok b, u) →
      exec (.cwrite addr) s = .next { u with
        trace := .write addr (encodeWire d.codec v) none :: u.trace
        cache := if d.cacheable then filled u.cache d.reg v else u.cache
        responses := {} :: u.responses }) ∧
    (∀ v p u, d.codec.takes r v → s.draw = (.err p, u) →
      exec (.cwrite addr) s = .next { u with
        trace := .write addr (encodeWire d.codec v) (some p) :: u.trace
        responses := { status := 1, payload := some p } :: u.responses }) ∧
    (d.codec = .void → exec (.cwrite addr) s = s.answeredError 6 (r.word.setWidth 64)) ∧
    (∀ width, (d.codec, width) ∈ [(.u8, 8), (.pid, 8), (.u16, 16), (.u32, 32)] → 2 ^ width ≤ r.a.toNat →
      exec (.cwrite addr) s = s.answeredError 8 r.a) ∧
    (∀ n, d.codec = .ba n → r.str.length ≠ n →
      exec (.cwrite addr) s = s.answeredError 2 (6 ||| (BitVec.ofNat 64 n <<< 8) |||
        (BitVec.ofNat 64 r.str.length <<< 16)))

/-- With a handle and legal parameters, CINV of the register at an address clears that register's valid flag,
keeps its stored value and every other register, issues no transaction and answers a success. That the
stale value is kept, not dropped, is the model's choice (rule R18 allows either; assumption log 8). -/
def Obligations.CinvOperation : Prop :=
  ∀ (s : State) (addr : Byte) (c : CacheReg), s.holds addr c →
    exec (.cinv addr) s = .next { s with
      cache := s.cache.map fun k => if k.desc.reg = c.desc.reg then { k with valid := false } else k
      responses := {} :: s.responses }

/-- With a handle and legal parameters CVALID answers the valid flag of the register at the address; without a
handle NotInitialised; at an address no row has UnknownRegister. It issues no transaction and changes
nothing else. -/
def Obligations.CvalidOperation : Prop :=
  ∀ (s : State) (addr : Byte),
    (∀ c, s.holds addr c → exec (.cvalid addr) s = s.answered { flag := c.valid }) ∧
    (s.handle.initialised = false → exec (.cvalid addr) s = s.answeredError 7 0) ∧
    (s.handle.initialised = true → (∀ d ∈ s.table, d.address ≠ addr) →
      exec (.cvalid addr) s = s.answeredError 5 (addr.setWidth 64))

/-- With a handle CINVALL clears the valid flag of every cacheable register, keeps the rest of the Cache
Register file, issues no transaction and answers a success; on a block that keeps its invariant no
register is valid afterwards. Without a handle it answers NotInitialised. That the stale values stay under
the cleared flags is the model's choice (rule R18 allows either; assumption log 8). -/
def Obligations.CinvallOperation : Prop :=
  ∀ s : State,
    (s.handle.initialised = true →
      exec .cinvall s = .next { s with
        cache := s.cache.map fun k => if k.desc.cacheable then { k with valid := false } else k
        responses := {} :: s.responses }) ∧
    (s.handle.initialised = false → exec .cinvall s = s.answeredError 7 0) ∧
    (s.inv = true → s.handle.initialised = true →
      ∃ t, exec .cinvall s = .next t ∧ ∀ r, t.valid r = false)

/-- With a handle and legal parameters each refresh clears the valid flag of every cacheable register, then
issues one zero-length write to its own command register. If the transport takes it, the delay follows and
the answer is a success; if not, TransportError with the payload, no delay, and the flags stay cleared.
Without a handle: NotInitialised. That the stale values stay under the cleared flags is the model's choice
(rule R18 allows either; assumption log 8), and the delay is one event whose length is a free value
(assumption log 4). -/
def Obligations.RefreshOperations : Prop :=
  ∀ (s : State) (i : Instr) (r : Reg) (c : CacheReg),
    (i, r) ∈ [(.refresh, .refresh), (.refreshG, .refreshG), (.refreshV, .refreshV)] →
    let cleared := s.cache.map fun k => if k.desc.cacheable then { k with valid := false } else k
    (s.legal = true → s.handle.initialised = true → s.cacheReg r = some c →
      (∀ b u, s.draw = (.ok b, u) →
        exec i s = .next { u with
          cache := cleared
          trace := .delay Config.refreshDelay :: .write c.desc.address [] none :: u.trace
          responses := {} :: u.responses }) ∧
      (∀ p u, s.draw = (.err p, u) →
        exec i s = .next { u with
          cache := cleared
          trace := .write c.desc.address [] (some p) :: u.trace
          responses := { status := 1, payload := some p } :: u.responses })) ∧
    (s.handle.initialised = false → exec i s = s.answeredError 7 0)

/-- Whatever state the block is in, with legal parameters: when the transport answers the product-ID read with
one byte that the product table knows, INIT clears every valid flag, issues that one read, latches
identifier, channel count, generation and the eight calibration values, and answers the byte. The
product-ID register itself is filled exactly when it is cacheable. The stale values kept under cleared
flags are the model's choice (assumption log 8). -/
def Obligations.InitBuildsHandle : Prop :=
  ∀ (s : State) (c : CacheReg) (b : Byte) (u : State) (p : Product),
    s.legal = true → s.cacheReg .productId = some c → s.draw = (.ok [b], u) →
    p ∈ s.params.products → p.id = b →
    let cleared := u.cache.map fun k => { k with valid := false }
    exec .init s = .next { u with
      handle := {
        initialised := true
        productId := b
        isHighRes := p.isHighRes
        channelCount := p.channelCount
        voltageRatio := #v[s.port.cal[0], s.port.cal[1], s.port.cal[2], s.port.cal[3]]
        senseResistance := #v[s.port.cal[4], s.port.cal[5], s.port.cal[6], s.port.cal[7]] }
      cache := if c.desc.cacheable then filled cleared .productId { ival := b.setWidth 64 } else cleared
      trace := .read c.desc.address 1 (.ok [b]) :: u.trace
      responses := { ival := b.setWidth 64 } :: u.responses }

/-- With legal parameters: a transport error, an answer that is not one byte, and a byte no product has are
answered with TransportError, LengthMismatch and UnknownProductId. Each leaves initialised false and every
valid flag cleared, also where the product-ID register is cacheable and the read of an unknown byte filled
it (assumption log 10). The other handle fields keep what they held, and the cleared registers their
values, which no rule reads (the model's choices, assumption logs 9 and 8). -/
def Obligations.InitFailures : Prop :=
  ∀ (s : State) (c : CacheReg) (u : State),
    s.legal = true → s.cacheReg .productId = some c →
    let failed (l : List CacheReg) (e : BusEvent) (r : Response) : State := { u with
      handle := { s.handle with initialised := false }
      cache := l.map fun k => { k with valid := false }
      trace := e :: u.trace
      responses := r :: u.responses }
    (∀ p, s.draw = (.err p, u) → exec .init s = .next
      (failed u.cache (.read c.desc.address 1 (.err p)) { status := 1, payload := some p })) ∧
    (∀ bytes, s.draw = (.ok bytes, u) → bytes.length ≠ 1 → exec .init s = .next
      (failed u.cache (.read c.desc.address 1 (.ok bytes))
        { status := 2, ival := 5 ||| (1 <<< 8) ||| (BitVec.ofNat 64 bytes.length <<< 16) })) ∧
    (∀ b, s.draw = (.ok [b], u) → (∀ p ∈ s.params.products, p.id ≠ b) → exec .init s = .next
      (failed (if c.desc.cacheable then filled u.cache .productId { ival := b.setWidth 64 } else u.cache)
        (.read c.desc.address 1 (.ok [b])) { status := 4, ival := b.setWidth 64 }))

/-- On a block that keeps its invariant and has a handle: (1) after a successful CWRITE of v to a cacheable
register the register holds v, every further operation but an invalidation, a refresh, INIT or a CWRITE of
that register keeps it so, and a CREAD then answers v without a transaction; (2) after CINV the next CREAD
issues exactly one read; (3) a CREAD of a register that is not cacheable always issues exactly one read. -/
def Obligations.CacheLaws : Prop :=
  ∀ (s : State) (addr : Byte) (c : CacheReg), s.inv = true → s.holds addr c →
    (∀ v t, c.desc.cacheable = true → c.desc.codec.takes s.port v → exec (.cwrite addr) s = .next t →
      t.responses = {} :: s.responses → t.hit c.desc.reg = some v) ∧
    (∀ v i t, s.hit c.desc.reg = some v → i.invalidates = false → i ≠ .cwrite addr →
      exec i s = .next t → t.hit c.desc.reg = some v) ∧
    (∀ v, s.hit c.desc.reg = some v → c.desc.codec ≠ .void →
      exec (.cread addr) s = s.answered { ival := v.ival, bytes := v.bytes }) ∧
    (∀ r t u, c.desc.codec ≠ .void → exec (.cinv addr) s = .next t →
      exec (.cread addr) { t with port := r } = .next u →
      ∃ a, u.trace = .read addr c.desc.wireLength a :: s.trace) ∧
    (∀ t, c.desc.cacheable = false → c.desc.codec ≠ .void → exec (.cread addr) s = .next t →
      ∃ a, t.trace = .read addr c.desc.wireLength a :: s.trace)

/-- On a block without a handle a per-channel telemetry operation answers NotInitialised; with a handle, a
channel at or above the channel count is answered with InvalidChannel and the channel. Neither issues a
transaction or changes anything else. -/
def Obligations.ChannelCheck : Prop :=
  ∀ (s : State) (i : Instr) (ch : Byte), i.channel = some ch →
    (s.handle.initialised = false → exec i s = s.answeredError 7 0) ∧
    (s.handle.initialised = true → s.handle.channelCount.val ≤ ch.toNat →
      exec i s = s.answeredError 3 (ch.setWidth 64))

/-- When the configuration read answers cfg, each operation answers its LSB: base scale (9 or 32) over 65536;
100 over 65536; 100 times base scale over (resistance times 1000) times 2^30; doubled once if bipolar
(power: either flag), halved once if not full scale (power: either not). The state is the one the read
leaves. -/
def Obligations.LsbOperations : Prop :=
  ∀ (s t : State) (b : Byte) (c : Fin 4) (cfg : Value), s.serves b c → s.reads .negPwrFsrLat cfg t →
    let v := voltageFlags s.params c cfg
    let i := currentFlags s.params c cfg
    let base := F64.i2f (if s.handle.isHighRes then 32 else 9)
    let steps (x : F64) (bipolar fsr : Bool) : F64 :=
      let x := if bipolar then F64.mul x (F64.i2f 2) else x
      if fsr then x else F64.mul x (.finite false 1022 0)
    exec (.lsbVbus b) s = t.answered { fval := steps (F64.div base (F64.i2f 65536)) v.bipolar v.fsr } ∧
    exec (.lsbVsense b) s =
      t.answered { fval := steps (F64.div (F64.i2f 100) (F64.i2f 65536)) i.bipolar i.fsr } ∧
    let power := F64.div (F64.mul (F64.i2f 100) base)
      (F64.mul (F64.mul s.handle.senseResistance[c] (F64.i2f 1000)) (F64.i2f 1073741824))
    exec (.lsbPower b) s =
      t.answered { fval := steps power (v.bipolar || i.bipolar) (v.fsr && i.fsr) }

/-- When the configuration register reads as cfg and reads again as cfg2 (the same value without a transaction
when the register is cacheable), each operation answers bit 0 bipolar and bit 1 full scale of the
channel's code in cfg, and as tag the channel's code in cfg2; voltage codes stand at 6-2ch, current codes
at 14-2ch. The current clause follows the pseudocode of rule R132 with rules R25 and R122, not the worked
example of rule R132, which disagrees with them: a reading of the model (assumption log 24). -/
def Obligations.ConfigurationReadings : Prop :=
  ∀ (s t u : State) (b : Byte) (c : Fin 4) (cfg cfg2 : Value),
    s.serves b c → s.reads .negPwrFsrLat cfg t → t.reads .negPwrFsrLat cfg2 u →
    let flags (f : CfgFlags) : Word := BitVec.ofNat 64 ((if f.fsr then 2 else 0) + (if f.bipolar then 1 else 0))
    exec (.getVcfg b) s = u.answered
      { ival := flags (voltageFlags s.params c cfg)
        tag := BitVec.ofNat 2 (codeAt cfg2.ival (6 - 2 * c.val)) } ∧
    exec (.getIcfg b) s = u.answered
      { ival := flags (currentFlags s.params c cfg)
        tag := BitVec.ofNat 2 (codeAt cfg2.ival (14 - 2 * c.val)) } ∧
    (∀ k, s.cacheReg .negPwrFsrLat = some k → k.desc.cacheable = true → u = t ∧ cfg2 = cfg)

/-- When the register P_ACCMODE_REG names (live, active or latched accumulator configuration) reads as acc,
GET.ACCMODE answers the 2-bit code at position 6-2ch; the state is the one the read leaves. -/
def Obligations.AccumulatorModeReading : Prop :=
  ∀ (s t : State) (b : Byte) (c : Fin 4) (acc : Value), s.serves b c →
    s.reads (match s.params.accModeReg with
      | .live => .accumConfig | .active => .accumConfigAct | .latched => .accumConfigLat) acc t →
    exec (.getAccmode b) s =
      t.answered { ival := BitVec.ofNat 64 (codeAt acc.ival (6 - 2 * c.val)) }

/-- When the configuration reads as cfg and then the channel's bus-voltage (or average) register reads as raw,
the answer is the 16-bit raw value, signed exactly when the voltage code is bipolar, times the bus LSB,
times the channel's voltage ratio when P_VRATIO_SCOPE is BUS or ALL. The state is the one the two reads
leave, in that order. -/
def Obligations.BusVoltageReadings : Prop :=
  ∀ (s t u : State) (b : Byte) (c : Fin 4) (cfg raw : Value) (i : Instr) (r : Reg),
    (i, r) ∈ [(.getVbus b, .vbus c), (.getVbusavg b, .vbusAvg c)] →
    s.serves b c → s.reads .negPwrFsrLat cfg t → t.reads r raw u → raw.ival.toNat < 2 ^ 16 →
    let v := voltageFlags s.params c cfg
    let x := F64.mul (F64.i2f (readRaw 16 v.bipolar raw.ival.toNat)) (vbusLsb s.handle v)
    exec i s = u.answered { fval :=
      if s.params.vratioScope = .none then x else F64.mul x s.handle.voltageRatio[c] }

/-- When the configuration reads as cfg and then the channel's sense-voltage (or average) register reads as
raw, the sense operations answer the 16-bit raw value, signed exactly when the current code is bipolar,
times the sense LSB; the current operations answer that over the channel's sense resistance. The state is
the one the two reads leave, in that order. -/
def Obligations.SenseVoltageAndCurrentReadings : Prop :=
  ∀ (s t u : State) (b : Byte) (c : Fin 4) (cfg raw : Value) (r : Reg) (volts amps : Instr),
    (volts, amps, r) ∈ [(.getVsense b, .getCurrent b, .vsense c),
      (.getVsenseavg b, .getCurrentavg b, .vsenseAvg c)] →
    s.serves b c → s.reads .negPwrFsrLat cfg t → t.reads r raw u → raw.ival.toNat < 2 ^ 16 →
    let i := currentFlags s.params c cfg
    let x := F64.mul (F64.i2f (readRaw 16 i.bipolar raw.ival.toNat)) (vsenseLsb i)
    exec volts s = u.answered { fval := x } ∧
    exec amps s = u.answered { fval := F64.div x s.handle.senseResistance[c] }

/-- When the configuration reads as cfg and then the channel's power register reads as raw, GET.POWER answers
the 32-bit raw value, signed when either code is bipolar, times the power LSB, times the voltage ratio
only when P_VRATIO_SCOPE is ALL. The state is the one the two reads leave, in that order. -/
def Obligations.PowerReading : Prop :=
  ∀ (s t u : State) (b : Byte) (c : Fin 4) (cfg raw : Value),
    s.serves b c → s.reads .negPwrFsrLat cfg t → t.reads (.vpower c) raw u → raw.ival.toNat < 2 ^ 32 →
    let v := voltageFlags s.params c cfg
    let i := currentFlags s.params c cfg
    let x := F64.mul (F64.i2f (readRaw 32 (v.bipolar || i.bipolar) raw.ival.toNat)) (powerLsb s.handle c v i)
    exec (.getPower b) s = u.answered { fval :=
      if s.params.vratioScope = .all then F64.mul x s.handle.voltageRatio[c] else x }

/-- When the accumulator configuration reads as acc, then the configuration as cfg, then the accumulator as
raw, GET.VACC answers as tag the channel's mode and as value the raw number by the bit-47 rule or
unsigned, times the mode's LSB: mode 0 power (either flag), 1 sense voltage (current flag), 2 bus voltage
(voltage flag), 3 zero and unsigned; modes 0 and 2 times the voltage ratio when P_VRATIO_SCOPE is ALL. The
state is the one the three reads leave, in that order. A cached accumulator whose top byte a CWRITE set
counts with all its 64 bits, a reading of rules R91 and R93 (assumption log 13, DEDUCED). -/
def Obligations.AccumulatorReading : Prop :=
  ∀ (s t u w : State) (b : Byte) (c : Fin 4) (acc cfg raw : Value),
    s.serves b c → s.reads (accModeReg s.params) acc t → t.reads .negPwrFsrLat cfg u →
    u.reads (.vacc c) raw w →
    let mode := codeAt acc.ival (6 - 2 * c.val)
    let v := voltageFlags s.params c cfg
    let i := currentFlags s.params c cfg
    let scaled (dir : Bool) (lsb : F64) : F64 := F64.mul
      (F64.i2f (if dir ∧ raw.ival.getLsbD 47 then ((raw.ival.toNat % 2 ^ 47 : Nat) : Int) - 2 ^ 47
        else if dir then raw.ival.toInt else raw.ival.toNat)) lsb
    let ratio (x : F64) : F64 :=
      if s.params.vratioScope = .all then F64.mul x s.handle.voltageRatio[c] else x
    let value : F64 :=
      if mode = 0 then ratio (scaled (v.bipolar || i.bipolar) (powerLsb s.handle c v i))
      else if mode = 1 then scaled i.bipolar (vsenseLsb i)
      else if mode = 2 then ratio (scaled v.bipolar (vbusLsb s.handle v))
      else scaled false F64.zero
    exec (.getVacc b) s = w.answered { fval := value, tag := BitVec.ofNat 2 mode }

/-- In accumulator mode 3, whatever the accumulator holds and whatever the flags are, GET.VACC answers exactly
+0.0 with tag 3 and status 0. -/
def Obligations.AccumulatorModeThreeIsZero : Prop :=
  ∀ (s t u w : State) (b : Byte) (c : Fin 4) (acc cfg raw : Value),
    s.serves b c → s.reads (accModeReg s.params) acc t → t.reads .negPwrFsrLat cfg u →
    u.reads (.vacc c) raw w → codeAt acc.ival (6 - 2 * c.val) = 3 →
    exec (.getVacc b) s = w.answered { tag := 3, fval := F64.zero }

/-- With a handle and legal parameters, when the latched control register reads as ctrl, GET.FS answers the
sample frequency of ctrl with the channel count as cap, the function FSDEC answers with; the state is the
one the read leaves. Without a handle it answers NotInitialised. -/
def Obligations.SampleFrequencyReading : Prop :=
  ∀ (s t : State) (ctrl : Value),
    (s.legal = true → s.handle.initialised = true → s.reads .ctrlLat ctrl t →
      exec .getFs s = t.answered { fval := sampleFreq s.params ctrl.ival s.handle.channelCount.val }) ∧
    (s.handle.initialised = false → exec .getFs s = s.answeredError 7 0)

/-- In an accumulator mode other than 0 GET.ENERGY answers NaN after one read; in mode 0 and a single-shot
sample mode NaN after two; else, after the configuration and accumulator reads, the accumulator value in
power units over the sample frequency times the energy constant. The state is the one those reads leave,
in that order. Under P_VRATIO_SCOPE = ALL the ratio is in the accumulator value and not applied again
(assumption log 21, DEDUCED); a top byte that a CWRITE cached counts (assumption log 13, DEDUCED). -/
def Obligations.EnergyReading : Prop :=
  ∀ (s t u w x : State) (b : Byte) (c : Fin 4) (acc ctrl cfg raw : Value),
    s.serves b c → s.reads (accModeReg s.params) acc t →
    let mode := codeAt acc.ival (6 - 2 * c.val)
    (mode ≠ 0 → exec (.getEnergy b) s = t.answered { fval := .nan }) ∧
    (mode = 0 → t.reads .ctrlLat ctrl u → smClassOf s.params (modeCode ctrl.ival) = .singleShot →
      exec (.getEnergy b) s = u.answered { fval := .nan }) ∧
    (mode = 0 → t.reads .ctrlLat ctrl u → smClassOf s.params (modeCode ctrl.ival) ≠ .singleShot →
      u.reads .negPwrFsrLat cfg w → w.reads (.vacc c) raw x →
      let power := accScaled s.params s.handle c 0 (voltageFlags s.params c cfg)
        (currentFlags s.params c cfg) raw.ival
      let fs := sampleFreq s.params ctrl.ival s.handle.channelCount.val
      let energy := F64.mul (F64.div power fs) (F64.ofBits 0x40715C71C71C71C7)
      exec (.getEnergy b) s = x.answered { fval := energy })

/-- The constant with the bits 0x40715C71C71C71C7 is the binary64 number nearest to one million over 3600,
ties to even, and it is the constant GET.ENERGY multiplies by. -/
def Obligations.EnergyConstant : Prop :=
  F64.kEnergy = F64.ofBits 0x40715C71C71C71C7 ∧ isNearest F64.kEnergy false (10 ^ 6 * F64.one) 3600

/-- For every telemetry operation, when the reads before one of its reads answer and that one raises an error,
the operation answers that error with the state those reads and the failed one leave: no later register is
touched and registers filled before stay filled. The reads are the configuration (LSB, and twice for
GET.VCFG and GET.ICFG), or it and then the measurement; the accumulator mode, the configuration and the
accumulator for GET.VACC; the accumulator mode for GET.ACCMODE; the latched control register for GET.FS;
for GET.ENERGY the accumulator mode, in mode 0 the latched control register, and unless single-shot the
configuration and the accumulator. -/
def Obligations.TelemetryReadFailure : Prop :=
  (∀ (s t u : State) (b : Byte) (c : Fin 4) (e : Err) (i : Instr) (before after : List Reg) (r : Reg),
    (i, before ++ r :: after) ∈
      [(.lsbVbus b, [.negPwrFsrLat]), (.lsbVsense b, [.negPwrFsrLat]), (.lsbPower b, [.negPwrFsrLat]),
       (.getVcfg b, [.negPwrFsrLat, .negPwrFsrLat]), (.getIcfg b, [.negPwrFsrLat, .negPwrFsrLat]),
       (.getAccmode b, [accModeReg s.params]),
       (.getVbus b, [.negPwrFsrLat, .vbus c]), (.getVbusavg b, [.negPwrFsrLat, .vbusAvg c]),
       (.getVsense b, [.negPwrFsrLat, .vsense c]), (.getVsenseavg b, [.negPwrFsrLat, .vsenseAvg c]),
       (.getCurrent b, [.negPwrFsrLat, .vsense c]), (.getCurrentavg b, [.negPwrFsrLat, .vsenseAvg c]),
       (.getPower b, [.negPwrFsrLat, .vpower c]),
       (.getVacc b, [accModeReg s.params, .negPwrFsrLat, .vacc c])] →
    s.serves b c → s.readsAll before t → t.readFails r e u → exec i s = u.answered e.response) ∧
  (∀ (s u : State) (e : Err), s.legal = true → s.handle.initialised = true →
    s.readFails .ctrlLat e u → exec .getFs s = u.answered e.response) ∧
  ∀ (s : State) (b : Byte) (c : Fin 4), s.serves b c →
    let ends (e : Err) (u : State) : Prop := exec (.getEnergy b) s = u.answered e.response
    (∀ e u, s.readFails (accModeReg s.params) e u → ends e u) ∧
    ∀ acc t, s.reads (accModeReg s.params) acc t → codeAt acc.ival (6 - 2 * c.val) = 0 →
      (∀ e u, t.readFails .ctrlLat e u → ends e u) ∧
      ∀ ctrl w, t.reads .ctrlLat ctrl w → smClassOf s.params (modeCode ctrl.ival) ≠ .singleShot →
        (∀ e u, w.readFails .negPwrFsrLat e u → ends e u) ∧
        ∀ cfg x, w.reads .negPwrFsrLat cfg x → ∀ e u, x.readFails (.vacc c) e u → ends e u

/-- After power-up the invariant holds: the parameters are legal (the default table's rows have their codecs'
lengths, no two share an address or a name, every named register has its row; the default sample-mode map
has the class counts), every valid register is cacheable and fits its codec, and an initialised handle
fits its product. No register is valid and there is no handle. -/
def Obligations.InvariantHoldsAtReset : Prop :=
  State.reset.inv = true ∧ (∀ c ∈ State.reset.cache, c.valid = false) ∧
  State.reset.handle.initialised = false

/-- From every state in which the parameters are legal, every valid Cache Register is cacheable and holds a
value of its codec's type, and an initialised handle has the channel count and generation of its product,
every step leads to such a state again. -/
def Obligations.InvariantKeptByEveryStep : Prop :=
  ∀ s t : State, s.inv = true → step s = .next t → t.inv = true

/-- After power-up there is no handle, no Cache Register of the default table's 72 is valid, the parameters
have the spec's defaults, no transaction has happened and no answer was drawn. The class ids of the
sample-mode codes 0 to 15 are 0 0 0 0 1 2 3 4 5 5 7 7 8 8 8 6. The parameter defaults, this map too, rest
on the spec's own general knowledge (assumption log 7, PRESUMED); the empty record and the counter at 0
are the model's choices for fields of its own (assumption logs 1 and 2). -/
def Obligations.ResetState : Prop :=
  State.reset.handle.initialised = false ∧ State.reset.cache.length = 72 ∧
  (∀ c ∈ State.reset.cache, c.valid = false) ∧ State.reset.table = defaultTable ∧
  State.reset.params = defaultParams ∧ State.reset.trace = [] ∧ State.reset.drawn = 0 ∧
  ∀ k : Fin 16, classId (State.reset.params.smClass[k]) =
    (#v[0, 0, 0, 0, 1, 2, 3, 4, 5, 5, 7, 7, 8, 8, 8, 6] : Vector Word 16)[k]

/-- From every state with legal parameters, whatever requests wait and whatever the transport answers, a step
gives a next state: no fault and no refusal. -/
def Obligations.LegalBlockAlwaysAnswers : Prop :=
  ∀ s : State, s.legal = true → s.stepsOn

/-- When a step serves a request and gives a next state, exactly one response has been added, the request
stands on the port, and the requests still waiting are the others. -/
def Obligations.ExactlyOneResponse : Prop :=
  ∀ (s t : State) (r : Request) (rest : List Request),
    s.incoming = r :: rest → step s = .next t →
    t.port = r ∧ t.incoming = rest ∧ ∃ x, t.responses = x :: s.responses

/-- For every operation other than INIT that gives a next state, every handle field is as it was. -/
def Obligations.HandleWrittenOnlyByInit : Prop :=
  ∀ (i : Instr) (s t : State), i ≠ .init → exec i s = .next t → t.handle = s.handle

/-- Whatever a step does, the descriptor of every Cache Register, in its order, and every other parameter are
as before. -/
def Obligations.DescriptorTableNeverMutated : Prop :=
  ∀ s t : State, step s = .next t → t.table = s.table ∧ t.params = s.params

/-- From every state with legal parameters, each event a step adds to the bus is a read or write at the
address of a row of the descriptor table with exactly that row's wire length, or the refresh delay;
nothing is taken off the record. An address no row has gives UnknownRegister and no transaction. -/
def Obligations.TransactionsStayInTable : Prop :=
  (∀ s t : State, s.legal = true → step s = .next t →
    ∃ l, t.trace = l ++ s.trace ∧ ∀ e ∈ l, e.inTable s.table) ∧
  ∀ (s : State) (addr : Byte) (i : Instr),
    i ∈ [.cread addr, .cwrite addr, .cinv addr, .cvalid addr] → s.handle.initialised = true →
    (∀ d ∈ s.table, d.address ≠ addr) → exec i s = s.answeredError 5 (addr.setWidth 64)

/-- Without a handle every operation that reads the handle or the cache answers NotInitialised and changes
nothing else. The codec and pipeline operations, LOOKUP and INIT never answer it, and no operation answers
it once there is a handle. -/
def Obligations.NotInitialisedExactly : Prop :=
  (∀ (i : Instr) (s : State), i.needsInit = true → s.handle.initialised = false →
    exec i s = s.answeredError 7 0) ∧
  ∀ (i : Instr) (s t : State) (x : Response),
    (i.needsInit = false ∨ s.handle.initialised = true) → exec i s = .next t →
    t.responses = x :: s.responses → x.status ≠ 7

/-- Two states with the same request on the port, the same parameters and the same descriptor table, however
else they differ (handle, valid flags, cached values, transport), get the same response to a codec or
pipeline operation or LOOKUP, and both states are otherwise unchanged. -/
def Obligations.StatelessOperations : Prop :=
  ∀ (i : Instr) (s s' : State), i.needsInit = false → i ≠ .init →
    s.port = s'.port → s.params = s'.params → s.table = s'.table →
    ∃ x, exec i s = s.answered x ∧ exec i s' = s'.answered x

/-- An answer of InvalidChannel, UnknownRegister, IllegalOperation, NotInitialised or OperandRange, and any
error answer after which no bus event was added, leaves all state as it was. An error of CREAD or CWRITE
leaves handle and Cache Register file as they were. An error of a telemetry operation leaves the handle,
and every register that was valid, as they were. -/
def Obligations.ErrorsLeaveState : Prop :=
  ∀ (i : Instr) (s t : State) (x : Response), exec i s = .next t → t.responses = x :: s.responses →
    x.status ≠ 0 →
    (x.status ∈ [3, 5, 6, 7, 8] → t = { s with responses := x :: s.responses }) ∧
    (t.trace = s.trace → i ≠ .init → t = { s with responses := x :: s.responses }) ∧
    (∀ a, (i = .cread a ∨ i = .cwrite a) → t.handle = s.handle ∧ t.cache = s.cache) ∧
    ((i.channel.isSome = true ∨ i = .getFs) →
      t.handle = s.handle ∧ ∀ r v, s.hit r = some v → t.hit r = some v)

/-- Every response an operation gives has a status of 0 to 8; a transport payload stands in it exactly when
the status is 1; an error response sets no tag, flag, value or bytes. From a block that keeps its
invariant no response carries more than 8 bytes. -/
def Obligations.StatusCodes : Prop :=
  ∀ (i : Instr) (s t : State) (x : Response), exec i s = .next t → t.responses = x :: s.responses →
    x.status.toNat ≤ 8 ∧ (x.payload.isSome = true ↔ x.status = 1) ∧
    (x.status ≠ 0 → x.fval = F64.zero ∧ x.tag = 0 ∧ x.flag = false ∧ x.bytes = []) ∧
    (s.inv = true → x.bytes.length ≤ 8)

/-- On a block that keeps its invariant and has a handle, after REFRESH, REFRESH.G or REFRESH.V no Cache
Register is valid, even when the command write failed. -/
def Obligations.RefreshLeavesNothingValid : Prop :=
  ∀ (i : Instr) (s t : State), i ∈ [.refresh, .refreshG, .refreshV] → s.inv = true →
    s.handle.initialised = true → exec i s = .next t → ∀ r, t.valid r = false
end

