-- ==== Sys2Proof/Laws/State.lean ====
section
/-! SUPPORT. For every update of the state, what it leaves in each field: one lemma per field per update,
true by unfolding, so that no proof unfolds a record update again. -/

namespace Sys2Proof.Machine

section
variable (s : State) (r : Response)

@[simp] theorem State.reply_handle : (s.reply r).handle = s.handle := rfl
@[simp] theorem State.reply_cache : (s.reply r).cache = s.cache := rfl
@[simp] theorem State.reply_params : (s.reply r).params = s.params := rfl
@[simp] theorem State.reply_port : (s.reply r).port = s.port := rfl
@[simp] theorem State.reply_incoming : (s.reply r).incoming = s.incoming := rfl
@[simp] theorem State.reply_answers : (s.reply r).answers = s.answers := rfl
@[simp] theorem State.reply_drawn : (s.reply r).drawn = s.drawn := rfl
@[simp] theorem State.reply_trace : (s.reply r).trace = s.trace := rfl
@[simp] theorem State.reply_responses : (s.reply r).responses = r :: s.responses := rfl

end

section
variable (s : State) (e : Err)

@[simp] theorem State.raise_handle : (s.raise e).handle = s.handle := rfl
@[simp] theorem State.raise_cache : (s.raise e).cache = s.cache := rfl
@[simp] theorem State.raise_params : (s.raise e).params = s.params := rfl
@[simp] theorem State.raise_port : (s.raise e).port = s.port := rfl
@[simp] theorem State.raise_incoming : (s.raise e).incoming = s.incoming := rfl
@[simp] theorem State.raise_answers : (s.raise e).answers = s.answers := rfl
@[simp] theorem State.raise_drawn : (s.raise e).drawn = s.drawn := rfl
@[simp] theorem State.raise_trace : (s.raise e).trace = s.trace := rfl
@[simp] theorem State.raise_responses : (s.raise e).responses = e.response :: s.responses := rfl

end

section
variable (s : State) (r : Request) (rest : List Request)

@[simp] theorem State.accept_handle : (s.accept r rest).handle = s.handle := rfl
@[simp] theorem State.accept_cache : (s.accept r rest).cache = s.cache := rfl
@[simp] theorem State.accept_params : (s.accept r rest).params = s.params := rfl
@[simp] theorem State.accept_port : (s.accept r rest).port = r := rfl
@[simp] theorem State.accept_incoming : (s.accept r rest).incoming = rest := rfl
@[simp] theorem State.accept_answers : (s.accept r rest).answers = s.answers := rfl
@[simp] theorem State.accept_drawn : (s.accept r rest).drawn = s.drawn := rfl
@[simp] theorem State.accept_trace : (s.accept r rest).trace = s.trace := rfl
@[simp] theorem State.accept_responses : (s.accept r rest).responses = s.responses := rfl

end

section
variable (s : State) (e : BusEvent)

@[simp] theorem State.log_handle : (s.log e).handle = s.handle := rfl
@[simp] theorem State.log_cache : (s.log e).cache = s.cache := rfl
@[simp] theorem State.log_params : (s.log e).params = s.params := rfl
@[simp] theorem State.log_port : (s.log e).port = s.port := rfl
@[simp] theorem State.log_incoming : (s.log e).incoming = s.incoming := rfl
@[simp] theorem State.log_answers : (s.log e).answers = s.answers := rfl
@[simp] theorem State.log_drawn : (s.log e).drawn = s.drawn := rfl
@[simp] theorem State.log_trace : (s.log e).trace = e :: s.trace := rfl
@[simp] theorem State.log_responses : (s.log e).responses = s.responses := rfl

end

section
variable (s : State) (r : Reg) (v : Value)

@[simp] theorem State.fill_handle : (s.fill r v).handle = s.handle := rfl
@[simp] theorem State.fill_cache : (s.fill r v).cache = s.cache.map fun c => if c.desc.reg = r then { c with valid := true, value := v } else c := rfl
@[simp] theorem State.fill_params : (s.fill r v).params = s.params := rfl
@[simp] theorem State.fill_port : (s.fill r v).port = s.port := rfl
@[simp] theorem State.fill_incoming : (s.fill r v).incoming = s.incoming := rfl
@[simp] theorem State.fill_answers : (s.fill r v).answers = s.answers := rfl
@[simp] theorem State.fill_drawn : (s.fill r v).drawn = s.drawn := rfl
@[simp] theorem State.fill_trace : (s.fill r v).trace = s.trace := rfl
@[simp] theorem State.fill_responses : (s.fill r v).responses = s.responses := rfl

end

section
variable (s : State) (r : Reg)

@[simp] theorem State.invalidate_handle : (s.invalidate r).handle = s.handle := rfl
@[simp] theorem State.invalidate_cache : (s.invalidate r).cache = s.cache.map fun c => if c.desc.reg = r then { c with valid := false } else c := rfl
@[simp] theorem State.invalidate_params : (s.invalidate r).params = s.params := rfl
@[simp] theorem State.invalidate_port : (s.invalidate r).port = s.port := rfl
@[simp] theorem State.invalidate_incoming : (s.invalidate r).incoming = s.incoming := rfl
@[simp] theorem State.invalidate_answers : (s.invalidate r).answers = s.answers := rfl
@[simp] theorem State.invalidate_drawn : (s.invalidate r).drawn = s.drawn := rfl
@[simp] theorem State.invalidate_trace : (s.invalidate r).trace = s.trace := rfl
@[simp] theorem State.invalidate_responses : (s.invalidate r).responses = s.responses := rfl

end

section
variable (s : State)

@[simp] theorem State.invalidateAll_handle : (s.invalidateAll).handle = s.handle := rfl
@[simp] theorem State.invalidateAll_cache : (s.invalidateAll).cache = s.cache.map fun c => if c.desc.cacheable then { c with valid := false } else c := rfl
@[simp] theorem State.invalidateAll_params : (s.invalidateAll).params = s.params := rfl
@[simp] theorem State.invalidateAll_port : (s.invalidateAll).port = s.port := rfl
@[simp] theorem State.invalidateAll_incoming : (s.invalidateAll).incoming = s.incoming := rfl
@[simp] theorem State.invalidateAll_answers : (s.invalidateAll).answers = s.answers := rfl
@[simp] theorem State.invalidateAll_drawn : (s.invalidateAll).drawn = s.drawn := rfl
@[simp] theorem State.invalidateAll_trace : (s.invalidateAll).trace = s.trace := rfl
@[simp] theorem State.invalidateAll_responses : (s.invalidateAll).responses = s.responses := rfl

end

section
variable (s : State)

@[simp] theorem State.clearValid_handle : (s.clearValid).handle = s.handle := rfl
@[simp] theorem State.clearValid_cache : (s.clearValid).cache = s.cache.map fun c => { c with valid := false } := rfl
@[simp] theorem State.clearValid_params : (s.clearValid).params = s.params := rfl
@[simp] theorem State.clearValid_port : (s.clearValid).port = s.port := rfl
@[simp] theorem State.clearValid_incoming : (s.clearValid).incoming = s.incoming := rfl
@[simp] theorem State.clearValid_answers : (s.clearValid).answers = s.answers := rfl
@[simp] theorem State.clearValid_drawn : (s.clearValid).drawn = s.drawn := rfl
@[simp] theorem State.clearValid_trace : (s.clearValid).trace = s.trace := rfl
@[simp] theorem State.clearValid_responses : (s.clearValid).responses = s.responses := rfl

end

section
variable (s : State)

@[simp] theorem State.uninit_handle : (s.uninit).handle = { s.handle with initialised := false } := rfl
@[simp] theorem State.uninit_cache : (s.uninit).cache = s.cache.map fun c => { c with valid := false } := rfl
@[simp] theorem State.uninit_params : (s.uninit).params = s.params := rfl
@[simp] theorem State.uninit_port : (s.uninit).port = s.port := rfl
@[simp] theorem State.uninit_incoming : (s.uninit).incoming = s.incoming := rfl
@[simp] theorem State.uninit_answers : (s.uninit).answers = s.answers := rfl
@[simp] theorem State.uninit_drawn : (s.uninit).drawn = s.drawn := rfl
@[simp] theorem State.uninit_trace : (s.uninit).trace = s.trace := rfl
@[simp] theorem State.uninit_responses : (s.uninit).responses = s.responses := rfl

end

/-! Drawing the transport's answer writes the two fields that hold answers, nothing else. -/

section
variable (s : State)

@[simp] theorem State.draw_handle : s.draw.2.handle = s.handle := by
  unfold State.draw; split <;> rfl
@[simp] theorem State.draw_cache : s.draw.2.cache = s.cache := by
  unfold State.draw; split <;> rfl
@[simp] theorem State.draw_params : s.draw.2.params = s.params := by
  unfold State.draw; split <;> rfl
@[simp] theorem State.draw_port : s.draw.2.port = s.port := by
  unfold State.draw; split <;> rfl
@[simp] theorem State.draw_incoming : s.draw.2.incoming = s.incoming := by
  unfold State.draw; split <;> rfl
@[simp] theorem State.draw_trace : s.draw.2.trace = s.trace := by
  unfold State.draw; split <;> rfl
@[simp] theorem State.draw_responses : s.draw.2.responses = s.responses := by
  unfold State.draw; split <;> rfl

/-- The listed answer is drawn, and is then no longer listed. -/
theorem State.draw_cons {a : Answer} {rest : List Answer} (h : s.answers = a :: rest) :
    s.draw = (a, { s with answers := rest }) := by
  simp [State.draw, h]

/-- With no answer listed, the free value of this draw. -/
theorem State.draw_nil (h : s.answers = []) :
    s.draw = (Config.freeAnswer s.drawn, { s with drawn := s.drawn + 1 }) := by
  simp [State.draw, h]

end

/-! `State.withFetchWord` writes the requests to come and nothing else. -/

section
variable (s : State) (nbits w : Nat)

@[simp] theorem State.withFetchWord_handle : (s.withFetchWord nbits w).handle = s.handle := by
  unfold State.withFetchWord; split <;> rfl
@[simp] theorem State.withFetchWord_cache : (s.withFetchWord nbits w).cache = s.cache := by
  unfold State.withFetchWord; split <;> rfl
@[simp] theorem State.withFetchWord_params : (s.withFetchWord nbits w).params = s.params := by
  unfold State.withFetchWord; split <;> rfl
@[simp] theorem State.withFetchWord_port : (s.withFetchWord nbits w).port = s.port := by
  unfold State.withFetchWord; split <;> rfl
@[simp] theorem State.withFetchWord_answers : (s.withFetchWord nbits w).answers = s.answers := by
  unfold State.withFetchWord; split <;> rfl
@[simp] theorem State.withFetchWord_drawn : (s.withFetchWord nbits w).drawn = s.drawn := by
  unfold State.withFetchWord; split <;> rfl
@[simp] theorem State.withFetchWord_trace : (s.withFetchWord nbits w).trace = s.trace := by
  unfold State.withFetchWord; split <;> rfl
@[simp] theorem State.withFetchWord_responses : (s.withFetchWord nbits w).responses = s.responses := by
  unfold State.withFetchWord; split <;> rfl

end

end Sys2Proof.Machine
end

