-- ==== Sys2Proof/Laws/Ops.lean ====
section
/-! SUPPORT. What each shared operation can do, said once. The first part runs an operation on a state
(simp unfolds an operation's steps with it and no proof unfolds the monad again); the second part turns
the outcome of an operation back into what happened. -/

namespace Sys2Proof.Machine

section Run
variable {α β : Type} (s : State)

@[simp] theorem Op.pure_run (a : α) : (pure a : Op α) s = .ok a s := rfl
@[simp] theorem Op.throw_run (e : Err) : (throw e : Op α) s = .error e s := rfl
@[simp] theorem Op.get_run : (get : Op State) s = .ok s s := rfl
@[simp] theorem Op.modify_run (f : State → State) : (modify f : Op PUnit) s = .ok ⟨⟩ (f s) := rfl
@[simp] theorem Op.bind_run (x : Op α) (f : α → Op β) :
    (x >>= f) s = match x s with
      | .ok a t => f a t
      | .error e t => .error e t := by
  change EStateM.bind x f s = _
  unfold EStateM.bind
  cases x s <;> rfl

@[simp] theorem failIf_run (bad : Bool) (e : Err) :
    failIf bad e s = if bad then .error e s else .ok () s := by cases bad <;> rfl

@[simp] theorem needWidth_run (width : Nat) (v : Word) :
    needWidth width v s = if v >>> width = 0 then .ok () s else .error (.operandRange v) s := by
  simp [needWidth]

@[simp] theorem liftCodec_ok (v : Value) : liftCodec (.ok v) s = .ok v s := rfl
@[simp] theorem liftCodec_error (e : Err) : liftCodec (.error e) s = .error e s := rfl

theorem liftCodec_run (x : Except Err Value) :
    liftCodec x s = match x with
      | .ok v => .ok v s
      | .error e => .error e s := by cases x <;> rfl

@[simp] theorem needInit_run :
    needInit s = if s.handle.initialised then .ok () s else .error .notInitialised s := by
  cases h : s.handle.initialised <;> simp [needInit, h]

@[simp] theorem needLegal_run (ok : Bool) :
    needLegal ok s = if ok then .ok () s else .error (.illegalOperation s.port.word) s := by
  cases ok <;> simp [needLegal]

@[simp] theorem lookupAddr_run (addr : Byte) :
    lookupAddr addr s = match s.lookup addr with
      | some d => .ok d s
      | none => .error (.unknownRegister addr) s := by
  simp only [lookupAddr, Op.bind_run, Op.get_run]
  cases s.lookup addr <;> rfl

@[simp] theorem fillIfCacheable_run (d : Descriptor) (v : Value) :
    fillIfCacheable d v s = .ok () (if d.cacheable then s.fill d.reg v else s) := rfl

@[simp] theorem waitRefresh_run : waitRefresh s = .ok () (s.log (.delay Config.refreshDelay)) := rfl

theorem memRead_run (addr : Byte) (n : Nat) :
    memRead addr n s = match s.draw.1 with
      | .ok bytes => .ok bytes (s.draw.2.log (.read addr n (.ok bytes)))
      | .err e => .error (.transportError e) (s.draw.2.log (.read addr n (.err e))) := by
  unfold memRead
  rcases s.draw with ⟨a, t⟩
  cases a <;> rfl

theorem memWrite_run (addr : Byte) (bytes : List Byte) :
    memWrite addr bytes s = match s.draw.1 with
      | .ok _ => .ok () (s.draw.2.log (.write addr bytes none))
      | .err e => .error (.transportError e) (s.draw.2.log (.write addr bytes (some e))) := by
  unfold memWrite
  rcases s.draw with ⟨a, t⟩
  cases a <;> rfl

/-- A register that is valid is read without a transaction (rule R108). -/
theorem cacheRead_hit {d : Descriptor} {v : Value} (h : s.hit d.reg = some v) :
    cacheRead d s = .ok v s := by
  simp [cacheRead, h]

/-- A register that is not valid is read with one transaction, decoded, and filled if it is cacheable
(rule R108). -/
theorem cacheRead_miss {d : Descriptor} (h : s.hit d.reg = none) :
    cacheRead d s = match s.draw.1 with
      | .err e => .error (.transportError e) (s.draw.2.log (.read d.address d.wireLength (.err e)))
      | .ok bytes =>
        let t := s.draw.2.log (.read d.address d.wireLength (.ok bytes))
        match decodeWire d.codec bytes with
        | .error e => .error e t
        | .ok v => .ok v (if d.cacheable then t.fill d.reg v else t) := by
  simp only [cacheRead, Op.bind_run, Op.get_run, h, memRead_run]
  cases s.draw.1 with
  | err e => rfl
  | ok bytes =>
    simp only [liftCodec_run]
    cases decodeWire d.codec bytes <;> rfl

theorem cacheWrite_run (d : Descriptor) (v : Value) :
    cacheWrite d v s = match s.draw.1 with
      | .err e =>
        .error (.transportError e)
          (s.draw.2.log (.write d.address (encodeWire d.codec v) (some e)))
      | .ok _ =>
        let t := s.draw.2.log (.write d.address (encodeWire d.codec v) none)
        .ok () (if d.cacheable then t.fill d.reg v else t) := by
  simp only [cacheWrite, Op.bind_run, memWrite_run]
  cases s.draw.1 <;> rfl

/-- `ReadCfg` is one Cache Register read and the two decodes (rule R122). -/
theorem readCfg_run (cfg : Descriptor) (ch : Fin 4) :
    readCfg cfg ch s = match cacheRead cfg s with
      | .ok v t => .ok (cfgDecode t.params.code3Fsr (field2 v.ival (vPos ch)),
          cfgDecode t.params.code3Fsr (field2 v.ival (iPos ch))) t
      | .error e t => .error e t := by
  simp only [readCfg, Op.bind_run, Op.get_run, Op.pure_run]
  cases cacheRead cfg s <;> rfl

end Run

section Serve
variable (s : State) (op : Op Response)

/-- An operation that ends with success is answered by its response. -/
theorem serve_ok {r : Response} {t : State} (h : op s = .ok r t) : serve s op = .next (t.reply r) := by
  simp [serve, h]

/-- An operation that raises is answered by the error response. -/
theorem serve_error {e : Err} {t : State} (h : op s = .error e t) : serve s op = .next (t.raise e) := by
  simp [serve, h]

/-- What a served operation can answer: a next state, one response on. -/
theorem serve_next {t : State} (h : serve s op = .next t) :
    (∃ r u, op s = .ok r u ∧ t = u.reply r) ∨ (∃ e u, op s = .error e u ∧ t = u.raise e) := by
  unfold serve at h
  cases hop : op s with
  | ok r u => exact .inl ⟨r, u, rfl, by simpa [hop] using h.symm⟩
  | error e u => exact .inr ⟨e, u, rfl, by simpa [hop] using h.symm⟩

end Serve

/-- What the check of rule R155 can lead to. -/
theorem whenInit_cases {s : State} {k o : Out} (h : whenInit s k = o) :
    (s.handle.initialised = false ∧ o = .next (s.raise .notInitialised)) ∨
    (s.handle.initialised = true ∧ o = k) := by
  unfold whenInit at h
  split at h
  · exact .inr ⟨‹_›, h.symm⟩
  · rename_i hi
    exact .inl ⟨by simpa using hi, h.symm⟩

/-- A block with a handle passes the check of rule R155. -/
theorem whenInit_pass {s : State} {k : Out} (h : s.handle.initialised = true) : whenInit s k = k := by
  simp [whenInit, h]

/-- A block without a handle answers `NotInitialised` (rule R155). -/
theorem whenInit_fail {s : State} {k : Out} (h : s.handle.initialised = false) :
    whenInit s k = .next (s.raise .notInitialised) := by
  simp [whenInit, h]

/-- What the check of rule R121 can lead to. -/
theorem checkCh_cases {ch : Byte} {s : State} {k : Fin 4 → Out} {o : Out} (h : checkCh ch s k = o) :
    (s.handle.initialised = false ∧ o = .next (s.raise .notInitialised)) ∨
    (s.handle.initialised = true ∧ s.handle.channelCount.val ≤ ch.toNat ∧
      o = .next (s.raise (.invalidChannel ch))) ∨
    (s.handle.initialised = true ∧ ∃ c : Fin 4, c.val = ch.toNat ∧ ch.toNat < s.handle.channelCount.val ∧
      o = k c) := by
  rcases whenInit_cases h with ⟨hi, he⟩ | ⟨hi, he⟩
  · exact .inl ⟨hi, he⟩
  · right
    split at he
    · exact .inr ⟨hi, _, rfl, ‹_›, he⟩
    · exact .inl ⟨hi, by omega, he⟩

/-- A channel the block has passes the check of rule R121. -/
theorem checkCh_pass {ch : Byte} {s : State} {k : Fin 4 → Out} (c : Fin 4) (hi : s.handle.initialised = true)
    (hc : c.val = ch.toNat) (h : ch.toNat < s.handle.channelCount.val) : checkCh ch s k = k c := by
  have : (⟨ch.toNat, Nat.lt_of_lt_of_le h (Nat.le_of_lt_succ s.handle.channelCount.isLt)⟩ : Fin 4) = c :=
    Fin.ext hc.symm
  simp [checkCh, whenInit, hi, h, this]

/-- A named register with a row of the right kind is handed on; any other faults. -/
theorem withDesc_cases {s : State} {r : Reg} {ok : Codec → Bool} {k : Descriptor → Out} {o : Out}
    (h : withDesc s r ok k = o) :
    o = .fault (.noDescriptor r) ∨
      ∃ c, s.cacheReg r = some c ∧ ok c.desc.codec = true ∧ o = k c.desc := by
  unfold withDesc at h
  split at h
  · exact .inl h.symm
  · split at h
    · exact .inr ⟨_, ‹_›, ‹_›, h.symm⟩
    · exact .inl h.symm

theorem withDesc_pass {s : State} {r : Reg} {ok : Codec → Bool} {k : Descriptor → Out} {c : CacheReg}
    (h : s.cacheReg r = some c) (hc : ok c.desc.codec = true) : withDesc s r ok k = k c.desc := by
  simp [withDesc, h, hc]

end Sys2Proof.Machine
end

