-- ==== Sys2Proof/Laws/Cache.lean ====
section
/-! SUPPORT. The Cache Register file under its four writers (spec/10_state.md rule R15): what each does to
the descriptor table (nothing), to the register it names and to every other register. -/

namespace Sys2Proof.Machine

/-- A search by descriptor goes through an update that keeps descriptors. -/
theorem find_map_desc (l : List CacheReg) (f : CacheReg → CacheReg) (p : Descriptor → Bool)
    (hf : ∀ c, (f c).desc = c.desc) :
    (l.map f).find? (fun c => p c.desc) = (l.find? fun c => p c.desc).map f := by
  induction l with
  | nil => rfl
  | cons c l ih =>
    simp only [List.map_cons, List.find?_cons, hf]
    cases p c.desc <;> simp [ih]

/-- An update of the file that keeps every descriptor. -/
def State.mapCache (s : State) (f : CacheReg → CacheReg) : State := { s with cache := s.cache.map f }

section Map
variable (s : State) (f : CacheReg → CacheReg) (hf : ∀ c, (f c).desc = c.desc)
include hf

theorem State.mapCache_table : (s.mapCache f).table = s.table := by
  simp [State.table, State.mapCache, Function.comp_def, hf]

theorem State.mapCache_cacheReg (r : Reg) : (s.mapCache f).cacheReg r = (s.cacheReg r).map f :=
  find_map_desc s.cache f (fun d => d.reg = r) hf

theorem State.mapCache_lookup (a : Byte) : (s.mapCache f).lookup a = s.lookup a := by
  simp only [State.lookup, State.mapCache,
    find_map_desc s.cache f (fun d => d.address = a) hf, Option.map_map]
  congr 1
  funext c
  exact hf c

end Map

section Writers
variable (s : State) (r : Reg) (v : Value)

@[simp] theorem State.fill_table : (s.fill r v).table = s.table :=
  s.mapCache_table _ fun c => by split <;> rfl
@[simp] theorem State.invalidate_table : (s.invalidate r).table = s.table :=
  s.mapCache_table _ fun c => by split <;> rfl
@[simp] theorem State.invalidateAll_table : s.invalidateAll.table = s.table :=
  s.mapCache_table _ fun c => by split <;> rfl
@[simp] theorem State.uninit_table : s.uninit.table = s.table :=
  s.mapCache_table _ fun _ => rfl
@[simp] theorem State.log_table (e : BusEvent) : (s.log e).table = s.table := rfl
@[simp] theorem State.reply_table (x : Response) : (s.reply x).table = s.table := rfl
@[simp] theorem State.accept_table (x : Request) (l : List Request) : (s.accept x l).table = s.table := rfl
@[simp] theorem State.draw_table : s.draw.2.table = s.table := by simp [State.table]

theorem State.fill_cacheReg (r' : Reg) :
    (s.fill r v).cacheReg r' =
      (s.cacheReg r').map fun c => if c.desc.reg = r then { c with valid := true, value := v } else c :=
  s.mapCache_cacheReg _ (fun c => by split <;> rfl) r'
theorem State.invalidate_cacheReg (r' : Reg) :
    (s.invalidate r).cacheReg r' =
      (s.cacheReg r').map fun c => if c.desc.reg = r then { c with valid := false } else c :=
  s.mapCache_cacheReg _ (fun c => by split <;> rfl) r'
theorem State.invalidateAll_cacheReg (r' : Reg) :
    s.invalidateAll.cacheReg r' =
      (s.cacheReg r').map fun c => if c.desc.cacheable then { c with valid := false } else c :=
  s.mapCache_cacheReg _ (fun c => by split <;> rfl) r'
theorem State.uninit_cacheReg (r' : Reg) :
    s.uninit.cacheReg r' = (s.cacheReg r').map fun c => { c with valid := false } :=
  s.mapCache_cacheReg (fun c => { c with valid := false }) (fun _ => rfl) r'

@[simp] theorem State.fill_lookup (a : Byte) : (s.fill r v).lookup a = s.lookup a :=
  s.mapCache_lookup _ (fun c => by split <;> rfl) a
@[simp] theorem State.invalidate_lookup (a : Byte) : (s.invalidate r).lookup a = s.lookup a :=
  s.mapCache_lookup _ (fun c => by split <;> rfl) a
@[simp] theorem State.invalidateAll_lookup (a : Byte) : s.invalidateAll.lookup a = s.lookup a :=
  s.mapCache_lookup _ (fun c => by split <;> rfl) a
@[simp] theorem State.uninit_lookup (a : Byte) : s.uninit.lookup a = s.lookup a :=
  s.mapCache_lookup (fun c => { c with valid := false }) (fun _ => rfl) a
@[simp] theorem State.log_lookup (e : BusEvent) (a : Byte) : (s.log e).lookup a = s.lookup a := rfl
@[simp] theorem State.reply_lookup (x : Response) (a : Byte) : (s.reply x).lookup a = s.lookup a := rfl
@[simp] theorem State.accept_lookup (x : Request) (l : List Request) (a : Byte) :
    (s.accept x l).lookup a = s.lookup a := rfl
@[simp] theorem State.draw_lookup (a : Byte) : s.draw.2.lookup a = s.lookup a := by simp [State.lookup]

@[simp] theorem State.log_cacheReg (e : BusEvent) : (s.log e).cacheReg r = s.cacheReg r := rfl
@[simp] theorem State.reply_cacheReg (x : Response) : (s.reply x).cacheReg r = s.cacheReg r := rfl
@[simp] theorem State.accept_cacheReg (x : Request) (l : List Request) :
    (s.accept x l).cacheReg r = s.cacheReg r := rfl
@[simp] theorem State.draw_cacheReg : s.draw.2.cacheReg r = s.cacheReg r := by simp [State.cacheReg]

@[simp] theorem State.log_hit (e : BusEvent) : (s.log e).hit r = s.hit r := rfl
@[simp] theorem State.reply_hit (x : Response) : (s.reply x).hit r = s.hit r := rfl
@[simp] theorem State.accept_hit (x : Request) (l : List Request) : (s.accept x l).hit r = s.hit r := rfl
@[simp] theorem State.draw_hit : s.draw.2.hit r = s.hit r := by simp [State.hit]

end Writers

/-- A Cache Register found under a name has that name, and stands in the file. -/
theorem State.cacheReg_some {s : State} {r : Reg} {c : CacheReg} (h : s.cacheReg r = some c) :
    c.desc.reg = r ∧ c ∈ s.cache :=
  ⟨by simpa using List.find?_some h, List.mem_of_find?_eq_some h⟩

/-- A descriptor found at an address has that address, and is a row of the table. -/
theorem State.lookup_some {s : State} {a : Byte} {d : Descriptor} (h : s.lookup a = some d) :
    d.address = a ∧ d ∈ s.table := by
  simp only [State.lookup, Option.map_eq_some_iff] at h
  obtain ⟨c, hc, rfl⟩ := h
  exact ⟨by simpa using List.find?_some hc, List.mem_map_of_mem (List.mem_of_find?_eq_some hc)⟩

section Reads
variable {s : State} {r r' : Reg} {v : Value}

theorem State.hit_eq_some : s.hit r = some v ↔ ∃ c, s.cacheReg r = some c ∧ c.valid = true ∧ c.value = v := by
  unfold State.hit
  cases s.cacheReg r with
  | none => simp
  | some c => cases hv : c.valid <;> simp [hv]

theorem State.valid_eq_hit : s.valid r = (s.hit r).isSome := by
  unfold State.valid State.hit
  cases s.cacheReg r with
  | none => rfl
  | some c => cases hv : c.valid <;> simp [hv]

/-- A filled register is valid and reads as what filled it. -/
theorem State.fill_hit_same (h : (s.cacheReg r).isSome) : (s.fill r v).hit r = some v := by
  obtain ⟨c, hc⟩ := Option.isSome_iff_exists.mp h
  simp [State.hit, State.fill_cacheReg, hc, (State.cacheReg_some hc).1]

/-- A fill leaves every other register alone. -/
theorem State.fill_hit_other (h : r' ≠ r) : (s.fill r v).hit r' = s.hit r' := by
  unfold State.hit
  rw [State.fill_cacheReg]
  cases hc : s.cacheReg r' with
  | none => rfl
  | some c => simp [(State.cacheReg_some hc).1, h]

/-- An invalidated register is not valid (rule R112). -/
theorem State.invalidate_hit_same : (s.invalidate r).hit r = none := by
  unfold State.hit
  rw [State.invalidate_cacheReg]
  cases hc : s.cacheReg r with
  | none => rfl
  | some c => simp [(State.cacheReg_some hc).1]

/-- An invalidation leaves every other register alone. -/
theorem State.invalidate_hit_other (h : r' ≠ r) : (s.invalidate r).hit r' = s.hit r' := by
  unfold State.hit
  rw [State.invalidate_cacheReg]
  cases hc : s.cacheReg r' with
  | none => rfl
  | some c => simp [(State.cacheReg_some hc).1, h]

/-- After INIT has cleared the cache no register is valid (rule R119). -/
theorem State.uninit_hit : s.uninit.hit r = none := by
  unfold State.hit
  rw [State.uninit_cacheReg]
  cases s.cacheReg r <;> rfl

/-- `InvalidateAll` leaves no cacheable register valid, and the others as they were (rule R114). -/
theorem State.invalidateAll_hit {c : CacheReg} (h : s.cacheReg r = some c) :
    s.invalidateAll.hit r = if c.desc.cacheable then none else s.hit r := by
  unfold State.hit
  rw [State.invalidateAll_cacheReg, h]
  cases hc : c.desc.cacheable <;> simp [hc]

/-- The registers of the Cache Invalidation Set are the cacheable ones (rule R20). -/
theorem State.mem_invSet : r ∈ s.invSet ↔ ∃ c ∈ s.cache, c.desc.cacheable = true ∧ c.desc.reg = r := by
  simp [State.invSet, and_assoc]

end Reads

/-- The state after a transaction, an event recorded. -/
abbrev State.afterEvent (s : State) (e : BusEvent) : State := s.draw.2.log e

/-- Everything a Cache Register read can do (rule R108): answer the valid value and change nothing, or issue
one read and then fail on the transport, fail on the codec, or fill and answer. -/
theorem cacheRead_cases (d : Descriptor) (s : State) :
    (∃ v, s.hit d.reg = some v ∧ cacheRead d s = .ok v s) ∨
    (s.hit d.reg = none ∧
      ((∃ p, s.draw.1 = .err p ∧
          cacheRead d s = .error (.transportError p)
            (s.afterEvent (.read d.address d.wireLength (.err p)))) ∨
       (∃ bytes, s.draw.1 = .ok bytes ∧
          ((∃ e, decodeWire d.codec bytes = .error e ∧
              cacheRead d s = .error e (s.afterEvent (.read d.address d.wireLength (.ok bytes)))) ∨
           (∃ v, decodeWire d.codec bytes = .ok v ∧
              cacheRead d s = .ok v
                (if d.cacheable then (s.afterEvent (.read d.address d.wireLength (.ok bytes))).fill d.reg v
                 else s.afterEvent (.read d.address d.wireLength (.ok bytes)))))))) := by
  cases hh : s.hit d.reg with
  | some v => exact .inl ⟨v, rfl, cacheRead_hit s hh⟩
  | none =>
    right
    refine ⟨rfl, ?_⟩
    rw [cacheRead_miss s hh]
    cases hd : s.draw.1 with
    | err p => exact .inl ⟨p, rfl, rfl⟩
    | ok bytes =>
      right
      refine ⟨bytes, rfl, ?_⟩
      cases hw : decodeWire d.codec bytes with
      | error e => exact .inl ⟨e, rfl, by simp [hw]⟩
      | ok v => exact .inr ⟨v, rfl, by simp [hw]⟩

/-- Everything a Cache Register write can do (rule R110): issue one write and fail, or fill. -/
theorem cacheWrite_cases (d : Descriptor) (v : Value) (s : State) :
    (∃ p, s.draw.1 = .err p ∧
      cacheWrite d v s = .error (.transportError p)
        (s.afterEvent (.write d.address (encodeWire d.codec v) (some p)))) ∨
    (∃ b, s.draw.1 = .ok b ∧
      cacheWrite d v s = .ok ()
        (if d.cacheable then (s.afterEvent (.write d.address (encodeWire d.codec v) none)).fill d.reg v
         else s.afterEvent (.write d.address (encodeWire d.codec v) none))) := by
  rw [cacheWrite_run]
  cases hd : s.draw.1 with
  | err p => exact .inl ⟨p, rfl, rfl⟩
  | ok b => exact .inr ⟨b, rfl, rfl⟩

end Sys2Proof.Machine
end

