-- ==== Sys2Proof/Laws/Codec.lean ====
section
/-! SUPPORT. The codecs: lengths, and what a decode that succeeds says. -/

namespace Sys2Proof.Machine

@[simp] theorem toBytes_length (n : Nat) (v : Word) : (toBytes n v).length = n := by
  induction n with
  | zero => rfl
  | succ n ih => simp [toBytes, ih]

/-- An encode of an integer codec has the codec's wire length (rule R67). -/
theorem encodeWire_length_int {c : Codec} (v : Value) (h : c.isInt = true) :
    (encodeWire c v).length = c.wireLength := by
  cases c <;> simp_all [encodeWire, Codec.wireLength, Codec.isInt]

/-- A string of another length than the codec's is a `LengthMismatch` (rule R66). -/
theorem decodeWire_length {c : Codec} {s : List Byte} (h : s.length ≠ c.wireLength) :
    decodeWire c s = .error (.lengthMismatch (codecId c) c.wireLength s.length) := by
  simp [decodeWire, h]

/-- A decode can only fail on the length (rule R66). -/
theorem decodeWire_error {c : Codec} {s : List Byte} {e : Err} (h : decodeWire c s = .error e) :
    s.length ≠ c.wireLength ∧ e = .lengthMismatch (codecId c) c.wireLength s.length := by
  by_cases hl : s.length = c.wireLength
  · cases c <;> simp_all [decodeWire, Codec.wireLength]
  · exact ⟨hl, by simpa [decodeWire, hl] using h.symm⟩

/-- What a decode of an integer codec answers (rules R70 to R74). -/
theorem decodeWire_int {c : Codec} {s : List Byte} (hc : c.isInt = true) (h : s.length = c.wireLength) :
    decodeWire c s = .ok { ival := fromBytes s } := by
  cases c <;> simp_all [decodeWire, Codec.isInt]

/-- What a decode of a byte array answers (rule R75). -/
theorem decodeWire_ba {n : Nat} {s : List Byte} (h : s.length = n) :
    decodeWire (.ba n) s = .ok { bytes := s } := by
  simp [decodeWire, Codec.wireLength, h]

/-- The number a byte string is, in `Nat` (rule R37). -/
def natOfBytes (s : List Byte) : Nat := s.foldl (fun (n : Nat) (b : Byte) => n * 256 + b.toNat) 0

theorem shift_or_toNat (v : Word) (b : Byte) :
    ((v <<< 8) ||| b.setWidth 64).toNat = (v.toNat * 256 + b.toNat) % 2 ^ 64 := by
  have hb := b.isLt
  have hv := v.isLt
  have hsplit : v.toNat * 2 ^ 8 % 2 ^ 64 = (v.toNat % 2 ^ 56) <<< 8 := by
    rw [Nat.shiftLeft_eq]; omega
  simp only [BitVec.toNat_or, BitVec.toNat_shiftLeft, BitVec.toNat_setWidth, Nat.shiftLeft_eq, hsplit]
  rw [Nat.mod_eq_of_lt (show b.toNat < 2 ^ 64 by omega), ← Nat.shiftLeft_eq,
    ← Nat.shiftLeft_add_eq_or_of_lt hb, Nat.shiftLeft_eq]
  omega

theorem foldl_bytes_toNat (s : List Byte) (v : Word) :
    (s.foldl (fun (v : Word) (b : Byte) => (v <<< 8) ||| b.setWidth 64) v).toNat =
      s.foldl (fun (n : Nat) (b : Byte) => n * 256 + b.toNat) v.toNat % 2 ^ 64 := by
  suffices h : ∀ (n : Nat) (w : Word), w.toNat = n % 2 ^ 64 →
      (s.foldl (fun (v : Word) (b : Byte) => (v <<< 8) ||| b.setWidth 64) w).toNat =
        s.foldl (fun (n : Nat) (b : Byte) => n * 256 + b.toNat) n % 2 ^ 64 from
    h v.toNat v (Nat.mod_eq_of_lt v.isLt).symm
  induction s with
  | nil => intro n w h; simpa using h
  | cons b s ih =>
    intro n w h
    simp only [List.foldl_cons]
    apply ih
    rw [shift_or_toNat, h]
    omega

/-- The decoder's big-endian number (rule R37). -/
theorem fromBytes_toNat (s : List Byte) : (fromBytes s).toNat = natOfBytes s % 2 ^ 64 := by
  simpa [fromBytes, natOfBytes] using foldl_bytes_toNat s 0

theorem foldl_bytes_lt (s : List Byte) (n : Nat) :
    s.foldl (fun (n : Nat) (b : Byte) => n * 256 + b.toNat) n < (n + 1) * 256 ^ s.length := by
  induction s generalizing n with
  | nil => simp
  | cons b s ih =>
    have hb := b.isLt
    calc _ < (n * 256 + b.toNat + 1) * 256 ^ s.length := ih _
      _ ≤ ((n + 1) * 256) * 256 ^ s.length := Nat.mul_le_mul_right _ (by omega)
      _ = (n + 1) * 256 ^ (b :: s).length := by rw [List.length_cons, Nat.pow_succ]; ring

theorem natOfBytes_lt (s : List Byte) : natOfBytes s < 256 ^ s.length := by
  simpa [natOfBytes] using foldl_bytes_lt s 0

/-- A decoded value has its codec's type (rules R14, R50). -/
theorem decodeWire_fits {c : Codec} {s : List Byte} {v : Value} (h : decodeWire c s = .ok v) :
    v.fits c = true := by
  by_cases hl : s.length = c.wireLength
  · have hlt := natOfBytes_lt s
    have hto := fromBytes_toNat s
    cases c <;> simp only [Codec.wireLength] at hl <;>
      simp_all [decodeWire, Codec.wireLength] <;> subst h <;> simp [Value.fits, hl] <;> omega
  · simp [decodeWire, hl] at h

/-- An encode of a value of the codec's type has the codec's wire length (rule R67). -/
theorem encodeWire_length {c : Codec} {v : Value} (h : v.fits c = true) :
    (encodeWire c v).length = c.wireLength := by
  cases c <;> simp_all [encodeWire, Codec.wireLength, Value.fits]

end Sys2Proof.Machine
end

