-- ==== Sys2Proof/Laws/Decode.lean ====
section
/-! SUPPORT. The fields of a packed request word, and a word from its fields (spec/30_encoding.md rule
R56). -/

namespace Sys2Proof

@[simp] theorem ReqWord.opc_pack (o c a g : Byte) : ReqWord.opc (packWord o c a g) = o := by
  apply BitVec.eq_of_getLsbD_eq
  intro i hi
  simp only [ReqWord.opc, packWord, BitVec.getLsbD_extractLsb', BitVec.getLsbD_append]
  interval_cases i <;> simp

@[simp] theorem ReqWord.ch_pack (o c a g : Byte) : ReqWord.ch (packWord o c a g) = c := by
  apply BitVec.eq_of_getLsbD_eq
  intro i hi
  simp only [ReqWord.ch, packWord, BitVec.getLsbD_extractLsb', BitVec.getLsbD_append]
  interval_cases i <;> simp

@[simp] theorem ReqWord.addr_pack (o c a g : Byte) : ReqWord.addr (packWord o c a g) = a := by
  apply BitVec.eq_of_getLsbD_eq
  intro i hi
  simp only [ReqWord.addr, packWord, BitVec.getLsbD_extractLsb', BitVec.getLsbD_append]
  interval_cases i <;> simp

@[simp] theorem ReqWord.arg_pack (o c a g : Byte) : ReqWord.arg (packWord o c a g) = g := by
  apply BitVec.eq_of_getLsbD_eq
  intro i hi
  simp only [ReqWord.arg, packWord, BitVec.getLsbD_extractLsb', BitVec.getLsbD_append]
  interval_cases i <;> simp

/-- A request word is its four fields (rule R56). -/
theorem packWord_fields (w : ReqWord) :
    packWord (ReqWord.opc w) (ReqWord.ch w) (ReqWord.addr w) (ReqWord.arg w) = w := by
  apply BitVec.eq_of_getLsbD_eq
  intro i hi
  simp only [packWord, ReqWord.opc, ReqWord.ch, ReqWord.addr, ReqWord.arg, BitVec.getLsbD_append,
    BitVec.getLsbD_extractLsb']
  interval_cases i <;> simp

end Sys2Proof
end

