-- ==== Sys2Proof/Laws/Effects.lean ====
section
/-! SUPPORT. Everything a served operation can do to the state, said once for all operations: the atomic
effects (a transaction at a table row, a fill with a value of the register's type, an invalidation, a
refresh command with its delay, INIT's two writes), and which operations have which. An invariant or a
frame of every step follows from its atomic cases, by `exec_effects`. -/

namespace Sys2Proof.Machine

/-- The operations that perform `InvalidateAll` (rules R114 to R117). -/
def Instr.invalidatesAll (i : Instr) : Prop :=
  i = .cinvall ∨ i = .refresh ∨ i = .refreshG ∨ i = .refreshV

/-- The operations that write a command register (rules R115 to R117). -/
def Instr.commands (i : Instr) : Prop := i = .refresh ∨ i = .refreshG ∨ i = .refreshV

/-- A relation between states that every atomic effect of operation `i` on a block with descriptor table
`T` satisfies. -/
structure Effects (i : Instr) (T : List Descriptor) (R : State → State → Prop) : Prop where
  refl : ∀ s, R s s
  trans : ∀ a b c, R a b → R b c → R a c
  read : ∀ s d, s.table = T → d ∈ T → R s (s.afterEvent (.read d.address d.wireLength s.draw.1))
  fill : ∀ s d v, s.table = T → d ∈ T → d.cacheable = true → v.fits d.codec = true →
    R s (s.fill d.reg v)
  write : (∃ a, i = .cwrite a) → ∀ s d v e, s.table = T → d ∈ T → v.fits d.codec = true →
    R s (s.afterEvent (.write d.address (encodeWire d.codec v) e))
  invalidate : (∃ a, i = .cinv a) → ∀ s r, s.table = T → R s (s.invalidate r)
  invalidateAll : Instr.invalidatesAll i → ∀ s, s.table = T → R s s.invalidateAll
  command : Instr.commands i → ∀ s d e, s.table = T → d ∈ T → d.codec = .void →
    R s (s.afterEvent (.write d.address [] e))
  delay : Instr.commands i → ∀ s, s.table = T → R s (s.log (.delay Config.refreshDelay))
  uninit : i = .init → ∀ s, s.table = T → R s s.uninit
  latch : i = .init → ∀ s id p, s.table = T → productOf s.params id = some p →
    R s { s with handle := Handle.ofInit p s.port.cal }

/-- `x` keeps the table `T`, relates the state before it to the state after it, and answers only results
that satisfy `Q`. -/
def Op.Sound {α : Type} (T : List Descriptor) (R : State → State → Prop) (Q : α → Prop) (x : Op α) : Prop :=
  ∀ s, s.table = T →
    match x s with
    | .ok a t => t.table = T ∧ R s t ∧ Q a
    | .error _ t => t.table = T ∧ R s t

section Sound
variable {α β : Type} {i : Instr} {T : List Descriptor} {R : State → State → Prop} (E : Effects i T R)
include E

theorem Op.sound_pure {Q : α → Prop} {a : α} (h : Q a) : Op.Sound T R Q (pure a) :=
  fun s hs => ⟨hs, E.refl s, h⟩
theorem Op.sound_throw {Q : α → Prop} (e : Err) : Op.Sound T R Q (throw e : Op α) :=
  fun s hs => ⟨hs, E.refl s⟩
theorem Op.sound_get : Op.Sound T R (fun _ => True) (get : Op State) := fun s hs => ⟨hs, E.refl s, trivial⟩

theorem Op.sound_bind {Q : α → Prop} {P : β → Prop} {x : Op α} {f : α → Op β} (hx : Op.Sound T R Q x)
    (hf : ∀ a, Q a → Op.Sound T R P (f a)) : Op.Sound T R P (x >>= f) := by
  intro s hs
  have h1 := hx s hs
  simp only [Op.bind_run]
  cases hxs : x s with
  | error e t => rw [hxs] at h1; exact h1
  | ok a t =>
    rw [hxs] at h1
    obtain ⟨ht, hR, hQ⟩ := h1
    have h2 := hf a hQ t ht
    simp only
    cases hft : f a t with
    | ok b u => rw [hft] at h2; exact ⟨h2.1, E.trans _ _ _ hR h2.2.1, h2.2.2⟩
    | error e u => rw [hft] at h2; exact ⟨h2.1, E.trans _ _ _ hR h2.2⟩

theorem failIf_sound (bad : Bool) (e : Err) : Op.Sound T R (fun _ => True) (failIf bad e) := by
  intro s hs; cases bad <;> simp [hs, E.refl]

theorem needWidth_sound (w : Nat) (v : Word) : Op.Sound T R (fun _ => True) (needWidth w v) :=
  failIf_sound E _ _

theorem needInit_sound : Op.Sound T R (fun _ => True) needInit := by
  intro s hs; cases h : s.handle.initialised <;> simp [h, hs, E.refl]

theorem needLegal_sound (ok : Bool) : Op.Sound T R (fun _ => True) (needLegal ok) := by
  intro s hs; cases ok <;> simp [hs, E.refl]

theorem liftCodec_sound (c : Codec) (b : List Byte) :
    Op.Sound T R (fun v => v.fits c = true) (liftCodec (decodeWire c b)) := by
  intro s hs
  cases h : decodeWire c b with
  | ok v => exact ⟨hs, E.refl s, decodeWire_fits h⟩
  | error e => exact ⟨hs, E.refl s⟩

theorem lookupAddr_sound (addr : Byte) : Op.Sound T R (fun d => d ∈ T) (lookupAddr addr) := by
  intro s hs
  rw [lookupAddr_run]
  cases h : s.lookup addr with
  | none => exact ⟨hs, E.refl s⟩
  | some d => exact ⟨hs, E.refl s, hs ▸ (State.lookup_some h).2⟩

theorem fillIfCacheable_sound {d : Descriptor} (hd : d ∈ T) {v : Value} (hv : v.fits d.codec = true) :
    Op.Sound T R (fun _ => True) (fillIfCacheable d v) := by
  intro s hs
  rw [fillIfCacheable_run]
  cases hc : d.cacheable with
  | false => exact ⟨by simpa using hs, by simpa using E.refl s, trivial⟩
  | true => exact ⟨by simpa using hs, by simpa using E.fill s d v hs hd hc hv, trivial⟩

theorem memRead_sound {d : Descriptor} (hd : d ∈ T) :
    Op.Sound T R (fun _ => True) (memRead d.address d.wireLength) := by
  intro s hs
  have h := E.read s d hs hd
  rw [memRead_run]
  cases ha : s.draw.1 <;> simp only [State.afterEvent, ha] at h <;> simp [hs, h]

theorem cacheRead_sound {d : Descriptor} (hd : d ∈ T) : Op.Sound T R (fun _ => True) (cacheRead d) := by
  unfold cacheRead
  refine Op.sound_bind E (Op.sound_get E) fun s _ => ?_
  cases s.hit d.reg with
  | some v => exact Op.sound_pure E trivial
  | none =>
    refine Op.sound_bind E (memRead_sound E hd) fun b _ => ?_
    refine Op.sound_bind E (liftCodec_sound E _ _) fun v hv => ?_
    exact Op.sound_bind E (fillIfCacheable_sound E hd hv) fun _ _ => Op.sound_pure E trivial

theorem readCfg_sound {d : Descriptor} (hd : d ∈ T) (ch : Fin 4) :
    Op.Sound T R (fun _ => True) (readCfg d ch) := by
  unfold readCfg
  refine Op.sound_bind E (cacheRead_sound E hd) fun v _ => ?_
  exact Op.sound_bind E (Op.sound_get E) fun s _ => Op.sound_pure E trivial

theorem readAccMode_sound {d : Descriptor} (hd : d ∈ T) (ch : Fin 4) :
    Op.Sound T R (fun _ => True) (readAccMode d ch) := by
  unfold readAccMode
  exact Op.sound_bind E (cacheRead_sound E hd) fun v _ => Op.sound_pure E trivial

theorem vsenseValue_sound {c r : Descriptor} (hc : c ∈ T) (hr : r ∈ T) (ch : Fin 4) :
    Op.Sound T R (fun _ => True) (vsenseValue ch c r) := by
  unfold vsenseValue
  refine Op.sound_bind E (readCfg_sound E hc ch) fun f _ => ?_
  exact Op.sound_bind E (cacheRead_sound E hr) fun v _ => Op.sound_pure E trivial

theorem currentResult_sound {c r : Descriptor} (hc : c ∈ T) (hr : r ∈ T) (ch : Fin 4) :
    Op.Sound T R (fun _ => True) (currentResult ch c r) := by
  unfold currentResult
  refine Op.sound_bind E (vsenseValue_sound E hc hr ch) fun f _ => ?_
  exact Op.sound_bind E (Op.sound_get E) fun t _ => Op.sound_pure E trivial

theorem vbusValue_sound {c r : Descriptor} (hc : c ∈ T) (hr : r ∈ T) (ch : Fin 4) :
    Op.Sound T R (fun _ => True) (vbusValue ch c r) := by
  unfold vbusValue
  refine Op.sound_bind E (readCfg_sound E hc ch) fun f _ => ?_
  refine Op.sound_bind E (cacheRead_sound E hr) fun v _ => ?_
  exact Op.sound_bind E (Op.sound_get E) fun t _ => Op.sound_pure E trivial

theorem vaccValue_sound {c r : Descriptor} (hc : c ∈ T) (hr : r ∈ T) (ch : Fin 4) (m : BitVec 2) :
    Op.Sound T R (fun _ => True) (vaccValue ch m c r) := by
  unfold vaccValue
  refine Op.sound_bind E (readCfg_sound E hc ch) fun f _ => ?_
  refine Op.sound_bind E (cacheRead_sound E hr) fun v _ => ?_
  exact Op.sound_bind E (Op.sound_get E) fun t _ => Op.sound_pure E trivial

theorem cfgResult_sound {c : Descriptor} (hc : c ∈ T) (f : CfgFlags) (pos : Nat) :
    Op.Sound T R (fun _ => True) (cfgResult c f pos) := by
  unfold cfgResult
  exact Op.sound_bind E (cacheRead_sound E hc) fun v _ => Op.sound_pure E trivial

theorem cacheWrite_sound (hi : ∃ a, i = .cwrite a) {d : Descriptor} (hd : d ∈ T) {v : Value}
    (hv : v.fits d.codec = true) : Op.Sound T R (fun _ => True) (cacheWrite d v) := by
  unfold cacheWrite
  refine Op.sound_bind E (Q := fun _ => True) ?_ fun _ _ => fillIfCacheable_sound E hd hv
  intro s hs
  rw [memWrite_run]
  cases s.draw.1 with
  | ok b => exact ⟨by simpa using hs, E.write hi s d v none hs hd hv, trivial⟩
  | err e => exact ⟨by simpa using hs, E.write hi s d v (some e) hs hd hv⟩

theorem writeOperand_sound (c : Codec) (r : Request) :
    Op.Sound T R (fun v => v.fits c = true) (writeOperand c r) := by
  have width : ∀ w : Nat, w < 64 → ∀ s : State, s.table = T →
      match (do needWidth w r.a; return { ival := r.a } : Op Value) s with
      | .ok v t => t.table = T ∧ R s t ∧ (v = { ival := r.a } ∧ r.a.toNat < 2 ^ w)
      | .error _ t => t.table = T ∧ R s t := by
    intro w hw s hs
    by_cases h : r.a >>> w = 0#64
    · have hlt : r.a.toNat < 2 ^ w := by
        have := congrArg BitVec.toNat h
        simpa [Nat.shiftRight_eq_div_pow, Nat.div_eq_zero_iff] using this
      simp [h, hs, E.refl, hlt]
    · simp [h, hs, E.refl]
  cases c with
  | void => exact Op.sound_throw E _
  | u56 => exact Op.sound_pure E (by simp [Value.fits])
  | ba n => exact liftCodec_sound E _ _
  | u8 | pid =>
    intro s hs
    have h := width 8 (by omega) s hs
    simp only [writeOperand]
    split at h <;> simp_all [Value.fits]
  | u16 =>
    intro s hs
    have h := width 16 (by omega) s hs
    simp only [writeOperand]
    split at h <;> simp_all [Value.fits]
  | u32 =>
    intro s hs
    have h := width 32 (by omega) s hs
    simp only [writeOperand]
    split at h <;> simp_all [Value.fits]

omit E in
theorem modify_sound {f : State → State} (h : ∀ s, s.table = T → (f s).table = T ∧ R s (f s)) :
    Op.Sound T R (fun _ => True) (modify f : Op PUnit) :=
  fun s hs => ⟨(h s hs).1, (h s hs).2, trivial⟩

theorem refreshWith_sound (hi : Instr.commands i) (ha : Instr.invalidatesAll i) {d : Descriptor}
    (hd : d ∈ T) (hv : d.codec = .void) : Op.Sound T R (fun _ => True) (refreshWith d) := by
  unfold refreshWith
  refine Op.sound_bind E (modify_sound fun s hs => ⟨by simpa using hs, E.invalidateAll ha s hs⟩)
    fun _ _ => ?_
  refine Op.sound_bind E (Q := fun _ => True) ?_ fun _ _ => ?_
  · intro s hs
    rw [memWrite_run]
    cases s.draw.1 with
    | ok b => exact ⟨by simpa using hs, E.command hi s d none hs hd hv, trivial⟩
    | err e => exact ⟨by simpa using hs, E.command hi s d (some e) hs hd hv⟩
  · refine Op.sound_bind E (Q := fun _ => True) ?_ fun _ _ => Op.sound_pure E trivial
    intro s hs
    exact ⟨by simpa using hs, E.delay hi s hs, trivial⟩

theorem initWith_sound (hi : i = .init) {d : Descriptor} (hd : d ∈ T) :
    Op.Sound T R (fun _ => True) (initWith d) := by
  unfold initWith
  refine Op.sound_bind E (modify_sound fun s hs => ⟨by simpa using hs, E.uninit hi s hs⟩) fun _ _ => ?_
  refine Op.sound_bind E (cacheRead_sound E hd) fun v _ => ?_
  intro s hs
  simp only [Op.bind_run, Op.get_run]
  cases hp : productOf s.params (v.ival.setWidth 8) with
  | none => exact ⟨by simpa [hp] using hs, by simpa [hp] using E.uninit hi s hs⟩
  | some p => exact ⟨hs, E.latch hi s _ p hs hp, trivial⟩

omit E in
/-- The next states of a served operation. -/
theorem serve_sound {op : Op Response} (h : Op.Sound T R (fun _ => True) op) {s t : State} (hT : s.table = T)
    (hs : serve s op = .next t) : ∃ u r, R s u ∧ u.table = T ∧ t = u.reply r := by
  have h1 := h s hT
  rcases serve_next s op hs with ⟨r, u, hu, rfl⟩ | ⟨e, u, hu, rfl⟩ <;> rw [hu] at h1
  · exact ⟨u, r, h1.2.1, h1.1, rfl⟩
  · exact ⟨u, e.response, h1.2, h1.1, rfl⟩

/-- What the check of rule R121 leads to, where the operation behind it is sound. -/
theorem checkCh_sound {ch : Byte} {s t : State} {k : Fin 4 → Out} (hT : s.table = T)
    (hk : ∀ c, k c = .next t → ∃ u r, R s u ∧ u.table = T ∧ t = u.reply r)
    (h : checkCh ch s k = .next t) : ∃ u r, R s u ∧ u.table = T ∧ t = u.reply r := by
  rcases checkCh_cases h with ⟨-, he⟩ | ⟨-, -, he⟩ | ⟨-, c, -, -, he⟩
  · exact ⟨s, _, E.refl s, hT, by simpa [State.raise] using he⟩
  · exact ⟨s, _, E.refl s, hT, by simpa [State.raise] using he⟩
  · exact hk c he.symm

/-- What the check of rule R155 leads to, where the operation behind it is sound. -/
theorem whenInit_sound {s t : State} {k : Out} (hT : s.table = T)
    (hk : k = .next t → ∃ u r, R s u ∧ u.table = T ∧ t = u.reply r)
    (h : whenInit s k = .next t) : ∃ u r, R s u ∧ u.table = T ∧ t = u.reply r := by
  rcases whenInit_cases h with ⟨-, he⟩ | ⟨-, he⟩
  · exact ⟨s, _, E.refl s, hT, by simpa [State.raise] using he⟩
  · exact hk he.symm

omit E in
/-- A named register's descriptor is a row of the table. -/
theorem withDesc_sound {r : Reg} {ok : Codec → Bool} {s t : State} {k : Descriptor → Out} (hT : s.table = T)
    (hk : ∀ d ∈ T, ok d.codec = true → k d = .next t → ∃ u r, R s u ∧ u.table = T ∧ t = u.reply r)
    (h : withDesc s r ok k = .next t) : ∃ u r, R s u ∧ u.table = T ∧ t = u.reply r := by
  rcases withDesc_cases h with he | ⟨c, hc, hok, he⟩
  · simp at he
  · exact hk c.desc (hT ▸ List.mem_map_of_mem (State.cacheReg_some hc).2) hok he.symm

theorem measureOp_sound {ch : Byte} {s t : State} {reg : Fin 4 → Reg}
    {op : Fin 4 → Descriptor → Descriptor → Op Response} (hT : s.table = T)
    (hop : ∀ ch c r, c ∈ T → r ∈ T → Op.Sound T R (fun _ => True) (op ch c r))
    (h : measureOp ch s reg op = .next t) : ∃ u r, R s u ∧ u.table = T ∧ t = u.reply r := by
  refine checkCh_sound E hT (fun c h1 => ?_) h
  refine withDesc_sound hT (fun d hd _ h2 => ?_) h1
  exact withDesc_sound hT (fun d' hd' _ h3 => serve_sound (hop c d d' hd hd') hT h3) h2

theorem cfgOp_sound {ch : Byte} {s t : State} {op : Fin 4 → Descriptor → Op Response} (hT : s.table = T)
    (hop : ∀ ch c, c ∈ T → Op.Sound T R (fun _ => True) (op ch c))
    (h : cfgOp ch s op = .next t) : ∃ u r, R s u ∧ u.table = T ∧ t = u.reply r := by
  refine checkCh_sound E hT (fun c h1 => ?_) h
  exact withDesc_sound hT (fun d hd _ h2 => serve_sound (hop c d hd) hT h2) h1

end Sound

section Exec
variable {i : Instr} {T : List Descriptor} {R : State → State → Prop}

theorem decodeInt_sound (E : Effects i T R) (c : Codec) {s t : State} (hT : s.table = T)
    (h : decodeInt c s = .next t) : ∃ u r, R s u ∧ u.table = T ∧ t = u.reply r :=
  serve_sound (Op.sound_bind E (liftCodec_sound E _ _) fun _ _ => Op.sound_pure E trivial) hT h

theorem encodeInt_sound (E : Effects i T R) (c : Codec) (w : Nat) {s t : State} (hT : s.table = T)
    (h : encodeInt c w s = .next t) : ∃ u r, R s u ∧ u.table = T ∧ t = u.reply r :=
  serve_sound (Op.sound_bind E (needWidth_sound E _ _) fun _ _ => Op.sound_pure E trivial) hT h

theorem byteArray_sound (E : Effects i T R) (n : Byte) {s t : State} (hT : s.table = T)
    (h : byteArray n s = .next t) : ∃ u r, R s u ∧ u.table = T ∧ t = u.reply r :=
  serve_sound (Op.sound_bind E (failIf_sound E _ _) fun _ _ =>
    Op.sound_bind E (liftCodec_sound E _ _) fun _ _ => Op.sound_pure E trivial) hT h

theorem needCap_sound (E : Effects i T R) (cap : Byte) (a : Word) :
    Op.Sound T R (fun _ => True) (needCap cap a) :=
  Op.sound_bind E (failIf_sound E _ _) fun _ _ => needWidth_sound E _ _

/-- A pure operation with one check. -/
theorem checked_sound (E : Effects i T R) {x : Op Unit} (hx : Op.Sound T R (fun _ => True) x) {a : Response}
    {s t : State} (hT : s.table = T) (h : serve s (x >>= fun _ => pure a) = .next t) :
    ∃ u r, R s u ∧ u.table = T ∧ t = u.reply r :=
  serve_sound (Op.sound_bind E hx fun _ _ => Op.sound_pure E trivial) hT h

theorem scale_sound (E : Effects i T R) (mode : Byte) {s t : State} (hT : s.table = T)
    (h : execScale mode s = .next t) : ∃ u r, R s u ∧ u.table = T ∧ t = u.reply r := by
  refine serve_sound (Op.sound_bind E (needLegal_sound E _) fun _ _ => ?_) hT h
  cases scaleWidth mode with
  | none => exact Op.sound_throw E _
  | some w => exact Op.sound_bind E (needWidth_sound E _ _) fun _ _ => Op.sound_pure E trivial

theorem getVacc_sound (E : Effects i T R) (ch : Byte) {s t : State} (hT : s.table = T)
    (h : execGetVacc ch s = .next t) : ∃ u r, R s u ∧ u.table = T ∧ t = u.reply r := by
  refine checkCh_sound E hT (fun c h1 => ?_) h
  refine withDesc_sound hT (fun a ha _ h2 => ?_) h1
  refine withDesc_sound hT (fun d hd _ h3 => ?_) h2
  refine withDesc_sound hT (fun r hr _ h4 => serve_sound ?_ hT h4) h3
  refine Op.sound_bind E (readAccMode_sound E ha c) fun m _ => ?_
  exact Op.sound_bind E (vaccValue_sound E hd hr c m) fun _ _ => Op.sound_pure E trivial

theorem getFs_sound (E : Effects i T R) {s t : State} (hT : s.table = T)
    (h : execGetFs s = .next t) : ∃ u r, R s u ∧ u.table = T ∧ t = u.reply r := by
  unfold execGetFs at h
  refine whenInit_sound E hT (fun h1 => ?_) h
  refine withDesc_sound hT (fun d hd _ h2 => serve_sound ?_ hT h2) h1
  refine Op.sound_bind E (cacheRead_sound E hd) fun _ _ => ?_
  exact Op.sound_bind E (Op.sound_get E) fun _ _ => Op.sound_pure E trivial

theorem getEnergy_sound (E : Effects i T R) (ch : Byte) {s t : State} (hT : s.table = T)
    (h : execGetEnergy ch s = .next t) : ∃ u r, R s u ∧ u.table = T ∧ t = u.reply r := by
  refine checkCh_sound E hT (fun c h1 => ?_) h
  refine withDesc_sound hT (fun a ha _ h2 => ?_) h1
  refine withDesc_sound hT (fun l hl _ h3 => ?_) h2
  refine withDesc_sound hT (fun d hd _ h4 => ?_) h3
  refine withDesc_sound hT (fun r hr _ h5 => serve_sound ?_ hT h5) h4
  refine Op.sound_bind E (readAccMode_sound E ha c) fun m _ => ?_
  split
  · exact Op.sound_pure E trivial
  · refine Op.sound_bind E (cacheRead_sound E hl) fun v _ => ?_
    refine Op.sound_bind E (Op.sound_get E) fun u _ => ?_
    split
    · exact Op.sound_pure E trivial
    · exact Op.sound_bind E (vaccValue_sound E hd hr c 0) fun _ _ => Op.sound_pure E trivial

/-- EVERYTHING A SERVED OPERATION CAN DO. If a relation holds across every atomic effect of operation `i`,
it holds between the state before the operation and a state that differs from the next one only by the
one response. -/
theorem exec_effects (E : Effects i T R) {s t : State} (hT : s.table = T) (h : exec i s = .next t) :
    ∃ u r, R s u ∧ u.table = T ∧ t = u.reply r := by
  cases i with
  | decV => exact decodeInt_sound E _ hT h
  | decU8 => exact decodeInt_sound E _ hT h
  | decU16 => exact decodeInt_sound E _ hT h
  | decU32 => exact decodeInt_sound E _ hT h
  | decU56 => exact decodeInt_sound E _ hT h
  | decPid => exact decodeInt_sound E _ hT h
  | decBa n => exact byteArray_sound E n hT h
  | encV => exact serve_sound (Op.sound_pure E trivial) hT h
  | encU8 => exact encodeInt_sound E _ _ hT h
  | encU16 => exact encodeInt_sound E _ _ hT h
  | encU32 => exact encodeInt_sound E _ _ hT h
  | encU56 => exact encodeInt_sound E _ _ hT h
  | encPid => exact encodeInt_sound E _ _ hT h
  | encBa n => exact byteArray_sound E n hT h
  | xbits pos width =>
    exact serve_sound (Op.sound_bind E (failIf_sound E _ _) fun _ _ =>
      Op.sound_bind E (failIf_sound E _ _) fun _ _ => Op.sound_pure E trivial) hT h
  | sext16 => exact checked_sound E (needWidth_sound E _ _) hT h
  | sext32 => exact checked_sound E (needWidth_sound E _ _) hT h
  | sext56 => exact checked_sound E (needWidth_sound E _ _) hT h
  | i2fS => exact serve_sound (Op.sound_pure E trivial) hT h
  | i2fU => exact serve_sound (Op.sound_pure E trivial) hT h
  | fscale => exact serve_sound (Op.sound_pure E trivial) hT h
  | cfgdec => exact checked_sound E (needWidth_sound E _ _) hT h
  | accdec => exact checked_sound E (needWidth_sound E _ _) hT h
  | smdec => exact checked_sound E (needWidth_sound E _ _) hT h
  | actcnt cap => exact checked_sound E (needCap_sound E _ _) hT h
  | fsdec cap => exact checked_sound E (needCap_sound E _ _) hT h
  | scale mode => exact scale_sound E mode hT h
  | lookup addr =>
    exact serve_sound (Op.sound_bind E (lookupAddr_sound E _) fun _ _ => Op.sound_pure E trivial) hT h
  | cread addr =>
    exact serve_sound (Op.sound_bind E (needInit_sound E) fun _ _ =>
      Op.sound_bind E (lookupAddr_sound E _) fun d hd =>
      Op.sound_bind E (needLegal_sound E _) fun _ _ =>
      Op.sound_bind E (cacheRead_sound E hd) fun _ _ => Op.sound_pure E trivial) hT h
  | cwrite addr =>
    refine serve_sound (Op.sound_bind E (needInit_sound E) fun _ _ =>
      Op.sound_bind E (lookupAddr_sound E _) fun d hd =>
      Op.sound_bind E (writeOperand_sound E _ _) fun v hv => ?_) hT h
    exact Op.sound_bind E (cacheWrite_sound E ⟨_, rfl⟩ hd hv) fun _ _ => Op.sound_pure E trivial
  | cinv addr =>
    exact serve_sound (Op.sound_bind E (needInit_sound E) fun _ _ =>
      Op.sound_bind E (lookupAddr_sound E _) fun d hd =>
      Op.sound_bind E (modify_sound fun s hs => ⟨by simpa using hs, E.invalidate ⟨_, rfl⟩ s d.reg hs⟩)
        fun _ _ => Op.sound_pure E trivial) hT h
  | cvalid addr =>
    exact serve_sound (Op.sound_bind E (needInit_sound E) fun _ _ =>
      Op.sound_bind E (lookupAddr_sound E _) fun d _ =>
      Op.sound_bind E (Op.sound_get E) fun _ _ => Op.sound_pure E trivial) hT h
  | cinvall =>
    exact serve_sound (Op.sound_bind E (needInit_sound E) fun _ _ =>
      Op.sound_bind E (modify_sound fun s hs => ⟨by simpa using hs, E.invalidateAll (.inl rfl) s hs⟩)
        fun _ _ => Op.sound_pure E trivial) hT h
  | refresh =>
    rw [exec, execRefresh] at h
    exact whenInit_sound E hT (fun h1 => withDesc_sound hT (fun d hd hc h2 => serve_sound
      (refreshWith_sound E (.inl rfl) (.inr (.inl rfl)) hd (by simpa using hc)) hT h2) h1) h
  | refreshG =>
    rw [exec, execRefreshG] at h
    exact whenInit_sound E hT (fun h1 => withDesc_sound hT (fun d hd hc h2 => serve_sound
      (refreshWith_sound E (.inr (.inl rfl)) (.inr (.inr (.inl rfl))) hd (by simpa using hc)) hT h2) h1) h
  | refreshV =>
    rw [exec, execRefreshV] at h
    exact whenInit_sound E hT (fun h1 => withDesc_sound hT (fun d hd hc h2 => serve_sound
      (refreshWith_sound E (.inr (.inr rfl)) (.inr (.inr (.inr rfl))) hd (by simpa using hc)) hT h2) h1) h
  | init =>
    rw [exec, execInit] at h
    exact withDesc_sound hT (fun d hd _ h2 => serve_sound (initWith_sound E rfl hd) hT h2) h
  | getVbus ch => exact measureOp_sound E hT (fun ch c r hc hr => vbusValue_sound E hc hr ch) h
  | getVbusavg ch => exact measureOp_sound E hT (fun ch c r hc hr => vbusValue_sound E hc hr ch) h
  | getVsense ch =>
    rw [exec, execGetVsense] at h
    refine measureOp_sound E hT (fun ch c r hc hr => ?_) h
    exact Op.sound_bind E (vsenseValue_sound E hc hr ch) fun _ _ => Op.sound_pure E trivial
  | getVsenseavg ch =>
    rw [exec, execGetVsenseavg] at h
    refine measureOp_sound E hT (fun ch c r hc hr => ?_) h
    exact Op.sound_bind E (vsenseValue_sound E hc hr ch) fun _ _ => Op.sound_pure E trivial
  | getCurrent ch =>
    rw [exec, execGetCurrent] at h
    exact measureOp_sound E hT (fun ch c r hc hr => currentResult_sound E hc hr ch) h
  | getCurrentavg ch =>
    rw [exec, execGetCurrentavg] at h
    exact measureOp_sound E hT (fun ch c r hc hr => currentResult_sound E hc hr ch) h
  | getPower ch =>
    rw [exec, execGetPower] at h
    refine measureOp_sound E hT (fun ch c r hc hr => ?_) h
    refine Op.sound_bind E (readCfg_sound E hc ch) fun _ _ => ?_
    refine Op.sound_bind E (cacheRead_sound E hr) fun _ _ => ?_
    exact Op.sound_bind E (Op.sound_get E) fun _ _ => Op.sound_pure E trivial
  | getVacc ch => exact getVacc_sound E ch hT h
  | getEnergy ch => exact getEnergy_sound E ch hT h
  | getFs => exact getFs_sound E hT h
  | lsbVbus ch =>
    rw [exec, execLsbVbus] at h
    refine cfgOp_sound E hT (fun ch c hc => ?_) h
    refine Op.sound_bind E (readCfg_sound E hc ch) fun _ _ => ?_
    exact Op.sound_bind E (Op.sound_get E) fun _ _ => Op.sound_pure E trivial
  | lsbVsense ch =>
    rw [exec, execLsbVsense] at h
    refine cfgOp_sound E hT (fun ch c hc => ?_) h
    exact Op.sound_bind E (readCfg_sound E hc ch) fun _ _ => Op.sound_pure E trivial
  | lsbPower ch =>
    rw [exec, execLsbPower] at h
    refine cfgOp_sound E hT (fun ch c hc => ?_) h
    refine Op.sound_bind E (readCfg_sound E hc ch) fun _ _ => ?_
    exact Op.sound_bind E (Op.sound_get E) fun _ _ => Op.sound_pure E trivial
  | getVcfg ch =>
    rw [exec, execGetVcfg] at h
    refine cfgOp_sound E hT (fun ch c hc => ?_) h
    exact Op.sound_bind E (readCfg_sound E hc ch) fun _ _ => cfgResult_sound E hc _ _
  | getIcfg ch =>
    rw [exec, execGetIcfg] at h
    refine cfgOp_sound E hT (fun ch c hc => ?_) h
    exact Op.sound_bind E (readCfg_sound E hc ch) fun _ _ => cfgResult_sound E hc _ _
  | getAccmode ch =>
    rw [exec, execGetAccmode] at h
    refine checkCh_sound E hT (fun c h1 => ?_) h
    exact withDesc_sound hT (fun a ha _ h2 => serve_sound
      (Op.sound_bind E (readAccMode_sound E ha c) fun _ _ => Op.sound_pure E trivial) hT h2) h1

end Exec

end Sys2Proof.Machine
end

