-- ==== Sys2Proof/Laws/Legal.lean ====
section
/-! SUPPORT. What legal parameters give (Sys2Proof/Safety.lean, State.legal): one Cache Register for an
address and for a name, and a row with the right codec for every register a rule names. -/

namespace Sys2Proof.Machine

section Unique
variable {s : State}

/-- The parts of legality, as propositions. -/
theorem State.legal_parts (h : s.legal = true) :
    (∀ d ∈ s.table, d.legal = true) ∧ (s.table.map (·.address)).Nodup ∧ (s.table.map (·.reg)).Nodup ∧
    (∀ rc ∈ namedRegs, ∃ d ∈ s.table, d.reg = rc.1 ∧ d.codec = rc.2) ∧
    (∀ r ∈ accModeRegs, ∃ d ∈ s.table, d.reg = r ∧ d.codec.isInt = true) ∧ s.params.legal = true := by
  simp only [State.legal, tableLegal, Bool.and_eq_true, List.all_eq_true, decide_eq_true_eq,
    List.any_eq_true, beq_iff_eq] at h
  exact ⟨h.1.1.1.1.1, h.1.1.1.1.2, h.1.1.1.2, fun rc hrc => h.1.1.2 rc hrc, fun r hr => h.1.2 r hr, h.2⟩

/-- A search that one element passes, when the searched attribute has no repeats, finds that element. -/
theorem find_of_nodup {α β : Type} [DecidableEq β] {l : List α} {f : α → β} {a : α}
    (h : (l.map f).Nodup) (ha : a ∈ l) : l.find? (fun x => decide (f x = f a)) = some a := by
  induction l with
  | nil => cases ha
  | cons x l ih =>
    rw [List.map_cons, List.nodup_cons] at h
    by_cases hx : f x = f a
    · rcases List.mem_cons.mp ha with rfl | hm
      · simp
      · exact absurd (hx ▸ List.mem_map_of_mem hm) h.1
    · rcases List.mem_cons.mp ha with rfl | hm
      · exact absurd rfl hx
      · simp [hx, ih h.2 hm]

/-- The Cache Register at an address (rule R106). -/
theorem State.legal_lookup (h : s.legal = true) {c : CacheReg} (hc : c ∈ s.cache) :
    s.lookup c.desc.address = some c.desc := by
  have hn := (State.legal_parts h).2.1
  rw [State.table, List.map_map] at hn
  simp only [State.lookup, Option.map_eq_some_iff]
  exact ⟨c, find_of_nodup (f := fun c : CacheReg => c.desc.address) hn hc, rfl⟩

/-- The Cache Register of a name (rule R14). -/
theorem State.legal_cacheReg (h : s.legal = true) {c : CacheReg} (hc : c ∈ s.cache) :
    s.cacheReg c.desc.reg = some c := by
  have hn := (State.legal_parts h).2.2.1
  rw [State.table, List.map_map] at hn
  exact find_of_nodup (f := fun c : CacheReg => c.desc.reg) hn hc

/-- An address no row has is not found. -/
theorem State.lookup_none {addr : Byte} (h : ∀ d ∈ s.table, d.address ≠ addr) : s.lookup addr = none := by
  simp only [State.lookup, Option.map_eq_none_iff, List.find?_eq_none, decide_eq_true_eq]
  exact fun c hc => h c.desc (List.mem_map_of_mem hc)

/-- A register a rule names has its row, with its codec (rules R53, R54). -/
theorem State.legal_named (h : s.legal = true) {r : Reg} {k : Codec} (hr : (r, k) ∈ namedRegs) :
    ∃ c, s.cacheReg r = some c ∧ c.desc.codec = k := by
  obtain ⟨d, hd, rfl, hk⟩ := (State.legal_parts h).2.2.2.1 (r, k) hr
  obtain ⟨c, hc, rfl⟩ := List.mem_map.mp hd
  exact ⟨c, State.legal_cacheReg h hc, hk⟩

/-- The register `P_ACCMODE_REG` names has a row with an integer codec (rule R26, decision D19). -/
theorem State.legal_accMode (h : s.legal = true) :
    ∃ c, s.cacheReg (accModeReg s.params) = some c ∧ c.desc.codec.isInt = true := by
  have hm : accModeReg s.params ∈ accModeRegs := by
    unfold accModeReg
    cases s.params.accModeReg <;> simp [accModeRegs]
  obtain ⟨d, hd, hr, hk⟩ := (State.legal_parts h).2.2.2.2.1 _ hm
  obtain ⟨c, hc, rfl⟩ := List.mem_map.mp hd
  exact ⟨c, hr ▸ State.legal_cacheReg h hc, hk⟩

/-- A per-channel register is one of the named ones. -/
theorem namedRegs_channel (c : Fin 4) :
    (.vacc c, .u56) ∈ namedRegs ∧ (.vbus c, .u16) ∈ namedRegs ∧ (.vsense c, .u16) ∈ namedRegs ∧
    (.vbusAvg c, .u16) ∈ namedRegs ∧ (.vsenseAvg c, .u16) ∈ namedRegs ∧ (.vpower c, .u32) ∈ namedRegs := by
  revert c
  decide +kernel

end Unique

@[simp] theorem State.readsAll_nil (s t : State) : s.readsAll [] t ↔ t = s := Iff.rfl
@[simp] theorem State.readsAll_cons (s t : State) (r : Reg) (l : List Reg) :
    s.readsAll (r :: l) t ↔ ∃ v u, s.reads r v u ∧ u.readsAll l t := Iff.rfl

/-- A `CacheRead` leaves every Cache Register's descriptor, and everything but the Cache Register file, the
answers and the trace, as it was. -/
theorem cacheRead_keeps {d : Descriptor} {s t : State} {v : Value} (h : cacheRead d s = .ok v t) :
    t.handle = s.handle ∧ t.params = s.params ∧ t.port = s.port ∧ t.incoming = s.incoming ∧
    t.responses = s.responses ∧ ∀ r, (t.cacheReg r).map (·.desc) = (s.cacheReg r).map (·.desc) := by
  rcases cacheRead_cases d s with ⟨v', -, he⟩ | ⟨-, ⟨p, -, he⟩ | ⟨b, -, ⟨e, -, he⟩ | ⟨v', -, he⟩⟩⟩ <;>
    rw [he] at h
  · cases h
    simp
  · cases h
  · cases h
  · cases h
    cases d.cacheable
    · simp
    · simp only [if_true, State.fill_handle, State.fill_params, State.fill_port, State.fill_incoming,
        State.fill_responses, State.log_handle, State.log_params, State.log_port, State.log_incoming,
        State.log_responses, State.draw_handle, State.draw_params, State.draw_port, State.draw_incoming,
        State.draw_responses, true_and, State.fill_cacheReg, State.log_cacheReg, State.draw_cacheReg,
        Option.map_map]
      intro r
      congr 1
      funext c
      simp only [Function.comp]
      split <;> rfl

end Sys2Proof.Machine
end

