-- ==== Sys2Proof/Laws/PerInstr.lean ====
section
/-! SUPPORT. The per-instruction family TableRow: the encoding of a well-formed instruction carries the
bit pattern of its row in spec/opcode_table.json, which the decoder and encoder do not read. -/

namespace Sys2Proof.Laws

/-- Under the mask of its opcode-table row, the word of a well-formed instruction is the row's pattern. -/
def TableRow.Statement (i : Instr) : Prop :=
  i.wellFormed = true → encode i &&& i.tableRow.mask = i.tableRow.pattern

/-- Masking a packed word masks its fields. -/
theorem pack_and (o c a g o' c' a' g' : Byte) :
    packWord o c a g &&& packWord o' c' a' g' = packWord (o &&& o') (c &&& c') (a &&& a') (g &&& g') := by
  have h : (o ++ c ++ a ++ g) &&& (o' ++ c' ++ a' ++ g') =
      (o &&& o') ++ (c &&& c') ++ (a &&& a') ++ (g &&& g') := by
    rw [BitVec.and_append, BitVec.and_append, BitVec.and_append]
  exact h

theorem TableRow.decV : TableRow.Statement .decV := fun _ => by decide

theorem TableRow.decU8 : TableRow.Statement .decU8 := fun _ => by decide

theorem TableRow.decU16 : TableRow.Statement .decU16 := fun _ => by decide

theorem TableRow.decU32 : TableRow.Statement .decU32 := fun _ => by decide

theorem TableRow.decU56 : TableRow.Statement .decU56 := fun _ => by decide

theorem TableRow.decPid : TableRow.Statement .decPid := fun _ => by decide

theorem TableRow.decBa (b : Byte) : TableRow.Statement (.decBa b) := by
  intro _
  simp only [encode, Instr.tableRow]
  rw [show (0xFFFFFF00 : ReqWord) = packWord 0xFF 0xFF 0xFF 0x00 from by decide, pack_and]
  simp only [BitVec.ofNat_eq_ofNat, BitVec.and_zero]
  decide

theorem TableRow.encV : TableRow.Statement .encV := fun _ => by decide

theorem TableRow.encU8 : TableRow.Statement .encU8 := fun _ => by decide

theorem TableRow.encU16 : TableRow.Statement .encU16 := fun _ => by decide

theorem TableRow.encU32 : TableRow.Statement .encU32 := fun _ => by decide

theorem TableRow.encU56 : TableRow.Statement .encU56 := fun _ => by decide

theorem TableRow.encPid : TableRow.Statement .encPid := fun _ => by decide

theorem TableRow.encBa (b : Byte) : TableRow.Statement (.encBa b) := by
  intro _
  simp only [encode, Instr.tableRow]
  rw [show (0xFFFFFF00 : ReqWord) = packWord 0xFF 0xFF 0xFF 0x00 from by decide, pack_and]
  simp only [BitVec.ofNat_eq_ofNat, BitVec.and_zero]
  decide

theorem TableRow.xbits (pos width : Byte) : TableRow.Statement (.xbits pos width) := by
  intro _
  simp only [encode, Instr.tableRow]
  rw [show (0xFFFF0000 : ReqWord) = packWord 0xFF 0xFF 0x00 0x00 from by decide, pack_and]
  simp only [BitVec.ofNat_eq_ofNat, BitVec.and_zero]
  decide

theorem TableRow.sext16 : TableRow.Statement .sext16 := fun _ => by decide

theorem TableRow.sext32 : TableRow.Statement .sext32 := fun _ => by decide

theorem TableRow.sext56 : TableRow.Statement .sext56 := fun _ => by decide

theorem TableRow.i2fS : TableRow.Statement .i2fS := fun _ => by decide

theorem TableRow.i2fU : TableRow.Statement .i2fU := fun _ => by decide

theorem TableRow.fscale : TableRow.Statement .fscale := fun _ => by decide

theorem TableRow.cfgdec : TableRow.Statement .cfgdec := fun _ => by decide

theorem TableRow.accdec : TableRow.Statement .accdec := fun _ => by decide

theorem TableRow.smdec : TableRow.Statement .smdec := fun _ => by decide

theorem TableRow.actcnt (b : Byte) : TableRow.Statement (.actcnt b) := by
  intro _
  simp only [encode, Instr.tableRow]
  rw [show (0xFFFFFF00 : ReqWord) = packWord 0xFF 0xFF 0xFF 0x00 from by decide, pack_and]
  simp only [BitVec.ofNat_eq_ofNat, BitVec.and_zero]
  decide

theorem TableRow.fsdec (b : Byte) : TableRow.Statement (.fsdec b) := by
  intro _
  simp only [encode, Instr.tableRow]
  rw [show (0xFFFFFF00 : ReqWord) = packWord 0xFF 0xFF 0xFF 0x00 from by decide, pack_and]
  simp only [BitVec.ofNat_eq_ofNat, BitVec.and_zero]
  decide

theorem TableRow.scale (mode : Byte) : TableRow.Statement (.scale mode) := by
  have h : ∀ m : Byte, m.toNat < 8 → m &&& 0xF8 = 0 := by decide +kernel
  intro hw
  simp only [Instr.wellFormed, Bool.and_eq_true, decide_eq_true_eq] at hw
  simp only [encode, Instr.tableRow]
  rw [show (0xFFFFFFF8 : ReqWord) = packWord 0xFF 0xFF 0xFF 0xF8 from by decide, pack_and]
  rw [h mode hw.1]
  decide

theorem TableRow.lookup (b : Byte) : TableRow.Statement (.lookup b) := by
  intro _
  simp only [encode, Instr.tableRow]
  rw [show (0xFFFF00FF : ReqWord) = packWord 0xFF 0xFF 0x00 0xFF from by decide, pack_and]
  simp only [BitVec.ofNat_eq_ofNat, BitVec.and_zero]
  decide

theorem TableRow.cread (b : Byte) : TableRow.Statement (.cread b) := by
  intro _
  simp only [encode, Instr.tableRow]
  rw [show (0xFFFF00FF : ReqWord) = packWord 0xFF 0xFF 0x00 0xFF from by decide, pack_and]
  simp only [BitVec.ofNat_eq_ofNat, BitVec.and_zero]
  decide

theorem TableRow.cwrite (b : Byte) : TableRow.Statement (.cwrite b) := by
  intro _
  simp only [encode, Instr.tableRow]
  rw [show (0xFFFF00FF : ReqWord) = packWord 0xFF 0xFF 0x00 0xFF from by decide, pack_and]
  simp only [BitVec.ofNat_eq_ofNat, BitVec.and_zero]
  decide

theorem TableRow.cinv (b : Byte) : TableRow.Statement (.cinv b) := by
  intro _
  simp only [encode, Instr.tableRow]
  rw [show (0xFFFF00FF : ReqWord) = packWord 0xFF 0xFF 0x00 0xFF from by decide, pack_and]
  simp only [BitVec.ofNat_eq_ofNat, BitVec.and_zero]
  decide

theorem TableRow.cvalid (b : Byte) : TableRow.Statement (.cvalid b) := by
  intro _
  simp only [encode, Instr.tableRow]
  rw [show (0xFFFF00FF : ReqWord) = packWord 0xFF 0xFF 0x00 0xFF from by decide, pack_and]
  simp only [BitVec.ofNat_eq_ofNat, BitVec.and_zero]
  decide

theorem TableRow.cinvall : TableRow.Statement .cinvall := fun _ => by decide

theorem TableRow.refresh : TableRow.Statement .refresh := fun _ => by decide

theorem TableRow.refreshG : TableRow.Statement .refreshG := fun _ => by decide

theorem TableRow.refreshV : TableRow.Statement .refreshV := fun _ => by decide

theorem TableRow.init : TableRow.Statement .init := fun _ => by decide

theorem TableRow.getVbus (b : Byte) : TableRow.Statement (.getVbus b) := by
  intro _
  simp only [encode, Instr.tableRow]
  rw [show (0xFF00FFFF : ReqWord) = packWord 0xFF 0x00 0xFF 0xFF from by decide, pack_and]
  simp only [BitVec.ofNat_eq_ofNat, BitVec.and_zero]
  decide

theorem TableRow.getVbusavg (b : Byte) : TableRow.Statement (.getVbusavg b) := by
  intro _
  simp only [encode, Instr.tableRow]
  rw [show (0xFF00FFFF : ReqWord) = packWord 0xFF 0x00 0xFF 0xFF from by decide, pack_and]
  simp only [BitVec.ofNat_eq_ofNat, BitVec.and_zero]
  decide

theorem TableRow.getVsense (b : Byte) : TableRow.Statement (.getVsense b) := by
  intro _
  simp only [encode, Instr.tableRow]
  rw [show (0xFF00FFFF : ReqWord) = packWord 0xFF 0x00 0xFF 0xFF from by decide, pack_and]
  simp only [BitVec.ofNat_eq_ofNat, BitVec.and_zero]
  decide

theorem TableRow.getVsenseavg (b : Byte) : TableRow.Statement (.getVsenseavg b) := by
  intro _
  simp only [encode, Instr.tableRow]
  rw [show (0xFF00FFFF : ReqWord) = packWord 0xFF 0x00 0xFF 0xFF from by decide, pack_and]
  simp only [BitVec.ofNat_eq_ofNat, BitVec.and_zero]
  decide

theorem TableRow.getCurrent (b : Byte) : TableRow.Statement (.getCurrent b) := by
  intro _
  simp only [encode, Instr.tableRow]
  rw [show (0xFF00FFFF : ReqWord) = packWord 0xFF 0x00 0xFF 0xFF from by decide, pack_and]
  simp only [BitVec.ofNat_eq_ofNat, BitVec.and_zero]
  decide

theorem TableRow.getCurrentavg (b : Byte) : TableRow.Statement (.getCurrentavg b) := by
  intro _
  simp only [encode, Instr.tableRow]
  rw [show (0xFF00FFFF : ReqWord) = packWord 0xFF 0x00 0xFF 0xFF from by decide, pack_and]
  simp only [BitVec.ofNat_eq_ofNat, BitVec.and_zero]
  decide

theorem TableRow.getPower (b : Byte) : TableRow.Statement (.getPower b) := by
  intro _
  simp only [encode, Instr.tableRow]
  rw [show (0xFF00FFFF : ReqWord) = packWord 0xFF 0x00 0xFF 0xFF from by decide, pack_and]
  simp only [BitVec.ofNat_eq_ofNat, BitVec.and_zero]
  decide

theorem TableRow.getVacc (b : Byte) : TableRow.Statement (.getVacc b) := by
  intro _
  simp only [encode, Instr.tableRow]
  rw [show (0xFF00FFFF : ReqWord) = packWord 0xFF 0x00 0xFF 0xFF from by decide, pack_and]
  simp only [BitVec.ofNat_eq_ofNat, BitVec.and_zero]
  decide

theorem TableRow.getEnergy (b : Byte) : TableRow.Statement (.getEnergy b) := by
  intro _
  simp only [encode, Instr.tableRow]
  rw [show (0xFF00FFFF : ReqWord) = packWord 0xFF 0x00 0xFF 0xFF from by decide, pack_and]
  simp only [BitVec.ofNat_eq_ofNat, BitVec.and_zero]
  decide

theorem TableRow.getFs : TableRow.Statement .getFs := fun _ => by decide

theorem TableRow.lsbVbus (b : Byte) : TableRow.Statement (.lsbVbus b) := by
  intro _
  simp only [encode, Instr.tableRow]
  rw [show (0xFF00FFFF : ReqWord) = packWord 0xFF 0x00 0xFF 0xFF from by decide, pack_and]
  simp only [BitVec.ofNat_eq_ofNat, BitVec.and_zero]
  decide

theorem TableRow.lsbVsense (b : Byte) : TableRow.Statement (.lsbVsense b) := by
  intro _
  simp only [encode, Instr.tableRow]
  rw [show (0xFF00FFFF : ReqWord) = packWord 0xFF 0x00 0xFF 0xFF from by decide, pack_and]
  simp only [BitVec.ofNat_eq_ofNat, BitVec.and_zero]
  decide

theorem TableRow.lsbPower (b : Byte) : TableRow.Statement (.lsbPower b) := by
  intro _
  simp only [encode, Instr.tableRow]
  rw [show (0xFF00FFFF : ReqWord) = packWord 0xFF 0x00 0xFF 0xFF from by decide, pack_and]
  simp only [BitVec.ofNat_eq_ofNat, BitVec.and_zero]
  decide

theorem TableRow.getVcfg (b : Byte) : TableRow.Statement (.getVcfg b) := by
  intro _
  simp only [encode, Instr.tableRow]
  rw [show (0xFF00FFFF : ReqWord) = packWord 0xFF 0x00 0xFF 0xFF from by decide, pack_and]
  simp only [BitVec.ofNat_eq_ofNat, BitVec.and_zero]
  decide

theorem TableRow.getIcfg (b : Byte) : TableRow.Statement (.getIcfg b) := by
  intro _
  simp only [encode, Instr.tableRow]
  rw [show (0xFF00FFFF : ReqWord) = packWord 0xFF 0x00 0xFF 0xFF from by decide, pack_and]
  simp only [BitVec.ofNat_eq_ofNat, BitVec.and_zero]
  decide

theorem TableRow.getAccmode (b : Byte) : TableRow.Statement (.getAccmode b) := by
  intro _
  simp only [encode, Instr.tableRow]
  rw [show (0xFF00FFFF : ReqWord) = packWord 0xFF 0x00 0xFF 0xFF from by decide, pack_and]
  simp only [BitVec.ofNat_eq_ofNat, BitVec.and_zero]
  decide

end Sys2Proof.Laws
end

