-- ==== Sys2Proof/Tests/Slice0.lean ====
section
/-! SUPPORT. The model's own tests: checks of WellFormed with a term each refuses, words written out from the
spec's encodings, one-step vectors of spec/95_test_vectors.md, and for every statement with hypotheses a
state and operands that meet them (`witness_`). -/

namespace Sys2Proof.Tests

set_option Elab.async false

open Sys2Proof.Machine

/-! ## Helpers -/

/-- A request with no data operands. -/
def req (word : ReqWord) : Request := { Request.idle with word := word }
/-- A request with the integer operand `A`. -/
def reqA (word : ReqWord) (a : Word) : Request := { Request.idle with word := word, a := a }
/-- A request with `A` and the bits of `B`. -/
def reqAB (word : ReqWord) (a b : Word) : Request :=
  { Request.idle with word := word, a := a, b := F64.ofBits b }
/-- A request with the byte string `S`. -/
def reqS (word : ReqWord) (str : List Byte) (h : str.length ≤ Config.baMax := by decide) : Request :=
  { Request.idle with word := word, data := ⟨str, h⟩ }
/-- The state after the block served `r` in `s`. -/
def after (s : State) (r : Request) : Option State :=
  match step { s with incoming := [r] } with
  | .next t => some t
  | .fault _ => none
  | .refused _ => none
/-- The response to `r` in `s`. -/
def answerOf (s : State) (r : Request) : Option Response := (after s r).bind (·.responses.head?)
/-- Power-up, the transport answering `l`. -/
def powerUp (l : List Answer) : State := { State.reset with answers := l }
/-- The base chip of spec/95_test_vectors.md after its INIT, the transport answering `l`. -/
def chip (l : List Answer) : State :=
  { State.reset with
    handle := ⟨true, 0x6B, false, 4, Vector.replicate 4 (F64.lit 1),
      Vector.replicate 4 (F64.ofBits 0x3F70624DD2F1A9FC)⟩
    answers := l }
/-- The base chip with `C[VBUS1]` valid, value 0x1234. -/
def vbusCached : State := (chip []).fill (.vbus 0) { ival := 0x1234 }
/-- What a `CacheRead` of `r` in `s` answers and leaves. -/
def readOut (s : State) (r : Reg) : Option (Value × State) :=
  match s.cacheReg r with
  | none => none
  | some c =>
    match cacheRead c.desc s with
    | .ok v t => some (v, t)
    | .error _ _ => none
/-- The state a `CacheRead` of `r` in `s` leaves. -/
def afterRead (s : State) (r : Reg) : State :=
  match readOut s r with
  | some (_, t) => t
  | none => s
/-- A read that answers a value has left `afterRead`. -/
theorem reads_of {s : State} {r : Reg} {v : Value} (h : (readOut s r).map (·.1) = some v) :
    s.reads r v (afterRead s r) := by
  have hr : ∃ t, readOut s r = some (v, t) := by
    cases ho : readOut s r with
    | none => rw [ho] at h; cases h
    | some p => rw [ho] at h; cases h; exact ⟨p.2, rfl⟩
  obtain ⟨t, ht⟩ := hr
  have ha : afterRead s r = t := by rw [afterRead, ht]
  rw [ha]
  unfold readOut at ht
  cases hc : s.cacheReg r with
  | none => rw [hc] at ht; cases ht
  | some c =>
    rw [hc] at ht
    refine ⟨c, hc, ?_⟩
    cases hx : cacheRead c.desc s with
    | error e u => simp [hx] at ht
    | ok v' u => simp [hx] at ht; rw [ht.1, ht.2]

/-! ## WellFormed refuses -/

theorem test_wf_decBa : (Instr.decBa 9).wellFormed = false := by decide
theorem test_wf_encBa : (Instr.encBa 9).wellFormed = false := by decide
theorem test_wf_xbits_position : (Instr.xbits 64 1).wellFormed = false := by decide
theorem test_wf_xbits_width : (Instr.xbits 0 65).wellFormed = false := by decide
theorem test_wf_actcnt : (Instr.actcnt 0).wellFormed = false ∧ (Instr.actcnt 5).wellFormed = false := by
  decide
theorem test_wf_fsdec : (Instr.fsdec 0).wellFormed = false ∧ (Instr.fsdec 5).wellFormed = false := by decide
theorem test_wf_scale : (Instr.scale 3).wellFormed = false ∧ (Instr.scale 8).wellFormed = false := by decide
/-- Rule R52: a wire length that is not the codec's. -/
theorem test_wf_descriptor_length : (Descriptor.mk .ctrl 0x01 3 .u16 false).legal = false := by decide
/-- Rule R56: a byte string longer than the data ports carry. -/
theorem test_wf_descriptor_port : (Descriptor.mk .ctrl 0x01 9 (.ba 9) false).legal = false := by decide
/-- Rule R14: two rows with one address. -/
theorem test_wf_table_address : tableLegal (⟨.other 0, 0x01, 1, .u8, false⟩ :: defaultTable) = false := by
  decide +kernel
/-- Rule R14: two rows for one register. -/
theorem test_wf_table_register : tableLegal (⟨.ctrl, 0x50, 2, .u16, false⟩ :: defaultTable) = false := by
  decide +kernel
/-- Rule R53: no row for a register that a rule names. -/
theorem test_wf_table_named : tableLegal defaultTable.tail = false := by decide +kernel
/-- Rule R52: a row of the table that is not legal. -/
theorem test_wf_table_row : tableLegal (⟨.other 0, 0x50, 2, .u8, false⟩ :: defaultTable) = false := by
  decide +kernel
/-- Decision D19: no row for a register `P_ACCMODE_REG` may name. -/
theorem test_wf_table_accmode :
    tableLegal (defaultTable.filter fun d => d.reg != .accumConfigLat) = false := by decide +kernel
/-- Rule R118: a known product without a channel. -/
theorem test_wf_product : ({ defaultParams with products := [⟨0x68, 0, false⟩] } : Params).legal = false := by
  decide +kernel
/-- Rule R118: one identifier with two products. -/
theorem test_wf_product_twice :
    ({ defaultParams with products := [⟨0x68, 1, false⟩, ⟨0x68, 2, false⟩] } : Params).legal = false := by
  decide +kernel
/-- Rule R100: a map with other class counts. -/
theorem test_wf_sample_modes :
    ({ defaultParams with smClass := Vector.replicate 16 .adaptive } : Params).legal = false := by
  decide +kernel
/-- Rule R100: a map without a fast or burst code. -/
theorem test_wf_fast_burst :
    ({ defaultParams with smClass := #v[.adaptive, .adaptive, .adaptive, .adaptive, .sps1024, .sps256, .sps64,
      .sps8, .singleShot, .singleShot, .reserved, .reserved, .reserved, .reserved, .reserved, .sleep] } :
        Params).legal = false := by decide +kernel
/-- The defaults of rule R8 are legal. -/
theorem test_wf_defaults : tableLegal defaultTable = true ∧ defaultParams.legal = true := by decide +kernel

/-! ## Decoding: words written out from the spec's encodings -/

/-- spec/30_encoding.md rule R59, the codec rows, and section 2.1 of the vectors. -/
theorem test_decode_codec : decode 0x01000000 = .ok .decV ∧
    decode 0x02000000 = .ok .decU8 ∧
    decode 0x03000000 = .ok .decU16 ∧
    decode 0x04000000 = .ok .decU32 ∧
    decode 0x05000000 = .ok .decU56 ∧
    decode 0x06000000 = .ok .decPid ∧
    decode 0x07000002 = .ok (.decBa 2) ∧
    decode 0x09000000 = .ok .encV ∧
    decode 0x0A000000 = .ok .encU8 ∧
    decode 0x0B000000 = .ok .encU16 ∧
    decode 0x0C000000 = .ok .encU32 ∧
    decode 0x0D000000 = .ok .encU56 ∧
    decode 0x0E000000 = .ok .encPid ∧
    decode 0x0F000002 = .ok (.encBa 2) := by decide +kernel

/-- spec/30_encoding.md rule R59, the pipeline rows, and section 2.2 of the vectors. -/
theorem test_decode_pipeline : decode 0x10000E02 = .ok (.xbits 14 2) ∧
    decode 0x11000000 = .ok .sext16 ∧
    decode 0x12000000 = .ok .sext32 ∧
    decode 0x13000000 = .ok .sext56 ∧
    decode 0x14000000 = .ok .i2fS ∧
    decode 0x15000000 = .ok .i2fU ∧
    decode 0x16000000 = .ok .fscale ∧
    decode 0x17000000 = .ok .cfgdec ∧
    decode 0x18000000 = .ok .accdec ∧
    decode 0x19000000 = .ok .smdec ∧
    decode 0x1A000004 = .ok (.actcnt 4) ∧
    decode 0x1B000004 = .ok (.fsdec 4) ∧
    decode 0x1C000006 = .ok (.scale 6) := by decide +kernel

/-- spec/30_encoding.md rule R59, the cache rows, and section 2.3 of the vectors. -/
theorem test_decode_cache : decode 0x20000300 = .ok (.lookup 3) ∧
    decode 0x21000700 = .ok (.cread 7) ∧
    decode 0x22002200 = .ok (.cwrite 0x22) ∧
    decode 0x23000700 = .ok (.cinv 7) ∧
    decode 0x24000700 = .ok (.cvalid 7) ∧
    decode 0x25000000 = .ok .cinvall ∧
    decode 0x26000000 = .ok .refresh ∧
    decode 0x27000000 = .ok .refreshG ∧
    decode 0x28000000 = .ok .refreshV ∧
    decode 0x2F000000 = .ok .init := by decide +kernel

/-- spec/30_encoding.md rule R59, the telemetry rows, and section 2.4 of the vectors. -/
theorem test_decode_telemetry : decode 0x30010000 = .ok (.getVbus 1) ∧
    decode 0x31000000 = .ok (.getVbusavg 0) ∧
    decode 0x32000000 = .ok (.getVsense 0) ∧
    decode 0x33000000 = .ok (.getVsenseavg 0) ∧
    decode 0x34000000 = .ok (.getCurrent 0) ∧
    decode 0x35000000 = .ok (.getCurrentavg 0) ∧
    decode 0x36000000 = .ok (.getPower 0) ∧
    decode 0x37000000 = .ok (.getVacc 0) ∧
    decode 0x38000000 = .ok (.getEnergy 0) ∧
    decode 0x39000000 = .ok .getFs ∧
    decode 0x3A000000 = .ok (.lsbVbus 0) ∧
    decode 0x3B010000 = .ok (.lsbVsense 1) ∧
    decode 0x3C000000 = .ok (.lsbPower 0) ∧
    decode 0x3D020000 = .ok (.getVcfg 2) ∧
    decode 0x3E030000 = .ok (.getIcfg 3) ∧
    decode 0x3F010000 = .ok (.getAccmode 1) := by decide +kernel

/-- spec/30_encoding.md rules R60 and R58, and sections 2.1 and 2.5 of the vectors. -/
theorem test_decode_refused : decode 0x08000000 = .error .reservedOpcode ∧
    decode 0x02010000 = .error .nonzeroField ∧ decode 0x21004501 = .error .nonzeroField := by decide +kernel

/-- spec/30_encoding.md rule R64's own examples of the syntax. -/
theorem test_text : requestText (.xbits 14 2) false (reqA 0 0x4000) = "XBITS 14, 2, A=16384" ∧
    requestText (.cwrite 0x29) true (reqS 0 [1, 2]) = "CWRITE 41, S=[1, 2]" ∧
    requestText (.getVbus 0) false (req 0) = "GET.VBUS 0" ∧
    requestText .cinvall false (req 0) = "CINVALL" := by decide +kernel

/-- spec/30_encoding.md rules R53 and R65: names. -/
theorem test_names : regName (.vbusAvg 2) = "VBUS3_AVG" ∧ regName .negPwrFsrLat = "NEG_PWR_FSR_LAT" ∧
    (Pseudo.negpwrfsr true .lat).name = "SET.NEGPWRFSR.LAT" := by decide +kernel

/-! ## One-step vectors -/

/-- spec/95_test_vectors.md section 2.1 -/
theorem test_decV_empty : answerOf State.reset (req 0x01000000) = some { } := by decide +kernel

/-- spec/95_test_vectors.md section 2.1 -/
theorem test_decV_length : answerOf State.reset (reqS 0x01000000 [0x00]) = some { status := 2, ival := 0x010000 } := by decide +kernel

/-- spec/95_test_vectors.md section 2.1 -/
theorem test_decU8 : answerOf State.reset (reqS 0x02000000 [0xA5]) = some { ival := 0xA5 } := by decide +kernel

/-- spec/95_test_vectors.md section 2.1 -/
theorem test_decU8_length : answerOf State.reset (req 0x02000000) = some { status := 2, ival := 0x000101 } := by decide +kernel

/-- spec/95_test_vectors.md section 2.1 -/
theorem test_decU16 : answerOf State.reset (reqS 0x03000000 [0x12, 0x34]) = some { ival := 0x1234 } := by decide +kernel

/-- spec/95_test_vectors.md section 2.1 -/
theorem test_decU32 : answerOf State.reset (reqS 0x04000000 [0x80, 0x00, 0x00, 0x01]) = some { ival := 0x80000001 } := by decide +kernel

/-- the bytes and the number the pseudocode of rule R73 and the table of rule R51 pair; rule R73's own worked
example pairs the number with other bytes (assumption log 23) -/
theorem test_decU56 : answerOf State.reset (reqS 0x05000000 [0x00, 0x80, 0x00, 0x00, 0x00, 0x00, 0x01]) = some { ival := 0x0000800000000001 } := by decide +kernel

/-- spec/95_test_vectors.md section 2.1 -/
theorem test_decU56_length : answerOf State.reset (reqS 0x05000000 [0, 0, 0, 0, 0, 0, 0, 0]) = some { status := 2, ival := 0x080704 } := by decide +kernel

/-- spec/95_test_vectors.md section 2.1 -/
theorem test_decPid : answerOf State.reset (reqS 0x06000000 [0x00]) = some { ival := 0x00 } := by decide +kernel

/-- spec/95_test_vectors.md section 2.1 -/
theorem test_decBa_length : answerOf State.reset (reqS 0x07000002 [0x01, 0x02, 0x03]) = some { status := 2, ival := 0x030206 } := by decide +kernel

/-- spec/95_test_vectors.md section 2.1 -/
theorem test_decBa_range : answerOf State.reset (req 0x07000009) = some { status := 8, ival := 9 } := by decide +kernel

/-- spec/95_test_vectors.md section 2.1 -/
theorem test_encV : answerOf State.reset (req 0x09000000) = some { } := by decide +kernel

/-- spec/95_test_vectors.md section 2.1 -/
theorem test_encU8_range : answerOf State.reset (reqA 0x0A000000 0x100) = some { status := 8, ival := 0x100 } := by decide +kernel

/-- spec/40_codec.md rule R78 -/
theorem test_encU16 : answerOf State.reset (reqA 0x0B000000 0x1234) = some { bytes := [0x12, 0x34] } := by decide +kernel

/-- spec/40_codec.md rule R79 -/
theorem test_encU32 : answerOf State.reset (reqA 0x0C000000 0x12345678) = some { bytes := [0x12, 0x34, 0x56, 0x78] } := by decide +kernel

/-- the number and the bytes the pseudocode of rule R80 and the table of rule R51 pair; rule R80's own worked
example pairs the number with other bytes (assumption log 23) -/
theorem test_encU56 : answerOf State.reset (reqA 0x0D000000 0x0000800000000001) = some { bytes := [0, 0x80, 0, 0, 0, 0, 0x01] } := by decide +kernel

/-- spec/95_test_vectors.md section 2.1 -/
theorem test_encU56_drops_top : answerOf State.reset (reqA 0x0D000000 0xFF00000000000001) = some { bytes := [0, 0, 0, 0, 0, 0, 0x01] } := by decide +kernel

/-- spec/95_test_vectors.md section 2.1 -/
theorem test_encPid : answerOf State.reset (reqA 0x0E000000 0x6B) = some { bytes := [0x6B] } := by decide +kernel

/-- spec/95_test_vectors.md section 2.1 -/
theorem test_encBa_length : answerOf State.reset (reqS 0x0F000002 [0xAA]) = some { status := 2, ival := 0x010206 } := by decide +kernel

/-- spec/40_codec.md rule R82 -/
theorem test_encBa : answerOf State.reset (reqS 0x0F000002 [0xAB, 0xCD]) = some { bytes := [0xAB, 0xCD] } := by decide +kernel

/-- spec/95_test_vectors.md section 2.1 -/
theorem test_nonzero_field : answerOf State.reset (reqS 0x02010000 [0x00]) = some { status := 6, ival := 0x02010000 } := by decide +kernel

/-- spec/95_test_vectors.md section 2.2 -/
theorem test_xbits : answerOf State.reset (reqA 0x10000E02 0x4000) = some { ival := 1 } := by decide +kernel

/-- spec/95_test_vectors.md section 2.2 -/
theorem test_xbits_range : answerOf State.reset (reqA 0x10000041 0xFFFF) = some { status := 8, ival := 65 } := by decide +kernel

/-- spec/95_test_vectors.md section 1, W4 -/
theorem test_sext16 : answerOf State.reset (reqA 0x11000000 0x8000) = some { ival := 0xFFFFFFFFFFFF8000 } := by decide +kernel

/-- spec/95_test_vectors.md section 2.2 -/
theorem test_sext32 : answerOf State.reset (reqA 0x12000000 0x80000000) = some { ival := 0xFFFFFFFF80000000 } := by decide +kernel

/-- spec/95_test_vectors.md section 1, W5 -/
theorem test_sext56_forces : answerOf State.reset (reqA 0x13000000 0x0001800000000000) = some { ival := 0xFFFF800000000000 } := by decide +kernel

/-- spec/95_test_vectors.md section 2.2 -/
theorem test_sext56_clear : answerOf State.reset (reqA 0x13000000 0x00FF7FFFFFFFFFFF) = some { ival := 0x00FF7FFFFFFFFFFF } := by decide +kernel

/-- spec/95_test_vectors.md section 2.2 -/
theorem test_i2fS : (answerOf State.reset (reqA 0x14000000 0x8000000000000000)).map (·.fval) = some (F64.ofBits 0xC3E0000000000000) := by decide +kernel

/-- spec/95_test_vectors.md section 2.2 -/
theorem test_i2fU_ties_even : (answerOf State.reset (reqA 0x15000000 0x0020000000000001)).map (·.fval) = some (F64.ofBits 0x4340000000000000) := by decide +kernel

/-- spec/95_test_vectors.md section 2.2 -/
theorem test_i2fU_rounds_up : (answerOf State.reset (reqA 0x15000000 0xFFFFFFFFFFFFFFFF)).map (·.fval) = some (F64.ofBits 0x43F0000000000000) := by decide +kernel

/-- spec/95_test_vectors.md section 2.2 -/
theorem test_fscale : (answerOf State.reset (reqAB 0x16000000 0x40B0000000000000 0x3F69000000000000)).map (·.fval) = some (F64.ofBits 0x4029000000000000) := by decide +kernel

/-- spec/95_test_vectors.md section 2.2 -/
theorem test_fscale_nan : answerOf State.reset (reqAB 0x16000000 0x7FF8000000000001 0x3FF0000000000000) = some { fval := .nan } := by decide +kernel

/-- spec/95_test_vectors.md section 1, W3 -/
theorem test_cfgdec : answerOf State.reset (reqA 0x17000000 2) = some { ival := 0b01 } := by decide +kernel

/-- spec/95_test_vectors.md section 2.2 -/
theorem test_cfgdec_range : answerOf State.reset (reqA 0x17000000 4) = some { status := 8, ival := 4 } := by decide +kernel

/-- spec/95_test_vectors.md section 2.2 -/
theorem test_accdec_mode1 : answerOf State.reset (reqA 0x18000000 0b0101) = some { tag := 1, ival := 1, flag := false } := by decide +kernel

/-- spec/95_test_vectors.md section 1, W8 -/
theorem test_accdec_mode3 : answerOf State.reset (reqA 0x18000000 0b1111) = some { tag := 3, ival := 3, flag := false } := by decide +kernel

/-- spec/95_test_vectors.md section 2.2 -/
theorem test_smdec : answerOf State.reset (reqA 0x19000000 0xF) = some { ival := 6 } := by decide +kernel

/-- spec/95_test_vectors.md section 2.2 -/
theorem test_actcnt : answerOf State.reset (reqA 0x1A000004 0x0010) = some { ival := 3 } := by decide +kernel

/-- spec/95_test_vectors.md section 2.2 -/
theorem test_actcnt_cap : answerOf State.reset (reqA 0x1A000002 0x0000) = some { ival := 2 } := by decide +kernel

/-- spec/95_test_vectors.md section 2.2 -/
theorem test_fsdec_three : (answerOf State.reset (reqA 0x1B000004 0xA010)).map (·.fval) = some (F64.ofBits 0x409AAAAAAAAAAAAB) := by decide +kernel

/-- spec/95_test_vectors.md section 2.2 -/
theorem test_fsdec_none_active : answerOf State.reset (reqA 0x1B000004 0xA0F0) = some { fval := .nan } := by decide +kernel

/-- spec/95_test_vectors.md section 2.2 -/
theorem test_scale16 : (answerOf State.reset (reqAB 0x1C000004 0x8000 0x3F32000000000000)).map (·.fval) = some (F64.ofBits 0xC022000000000000) := by decide +kernel

/-- spec/95_test_vectors.md section 2.2 -/
theorem test_scale_reserved : answerOf State.reset (reqA 0x1C000008 0) = some { status := 6, ival := 0x1C000008 } := by decide +kernel

/-- spec/95_test_vectors.md section 2.3 -/
theorem test_lookup : answerOf State.reset (req 0x20000300) = some { ival := 0x01040703 } := by decide +kernel

/-- spec/95_test_vectors.md section 2.3 -/
theorem test_lookup_unknown : answerOf State.reset (req 0x20004500) = some { status := 5, ival := 0x45 } := by decide +kernel

/-- spec/95_test_vectors.md section 2.3 -/
theorem test_cread_fills : (after (chip [.ok [0x12, 0x34]]) (req 0x21000700)).map (fun t => (t.hit (.vbus 0), t.trace)) = some (some { ival := 0x1234 }, [.read 0x07 2 (.ok [0x12, 0x34])]) := by decide +kernel

/-- spec/95_test_vectors.md section 2.3, C[VACC1] and the bytes on the wire -/
theorem test_cwrite_keeps_top_byte : (after (chip [.ok []]) (reqA 0x22000300 0xFF00000000000001)).map (fun t => (t.hit (.vacc 0), t.trace)) = some (some { ival := 0xFF00000000000001 }, [.write 0x03 [0, 0, 0, 0, 0, 0, 1] none]) := by decide +kernel

/-- spec/95_test_vectors.md section 2.3 -/
theorem test_cinv : (after vbusCached (req 0x23000700)).map (·.valid (.vbus 0)) = some false := by decide +kernel

/-- section 3, P1 step 4 -/
theorem test_cvalid : answerOf vbusCached (req 0x24000700) = some { flag := true } := by decide +kernel

/-- spec/95_test_vectors.md section 2.3 -/
theorem test_cinvall : (after vbusCached (req 0x25000000)).map (·.valid (.vbus 0)) = some false := by decide +kernel

/-- spec/95_test_vectors.md section 3, P1 step 5: the write, then the delay; R176. -/
theorem test_refresh_order : (after (chip [.ok []]) (req 0x26000000)).map (·.trace) = some [.delay Config.refreshDelay, .write 0x00 [] none] := rfl

/-- spec/95_test_vectors.md section 2.3 -/
theorem test_refreshG_address : (after (chip [.ok []]) (req 0x27000000)).map (·.trace.getLast?) = some (some (.write 0x1D [] none)) := by decide +kernel

/-- spec/95_test_vectors.md section 2.3 -/
theorem test_refreshV_failing : (after { vbusCached with answers := [.err 5] } (req 0x28000000)).map (fun t => (t.valid (.vbus 0), t.trace, t.responses)) = some (false, [.write 0x1E [] (some 5)], [{ status := 1, payload := some 5 }]) := by decide +kernel

/-- spec/95_test_vectors.md section 2.3 -/
theorem test_init : (after (powerUp [.ok [0x7B]]) (req 0x2F000000)).map (fun t => (t.handle.initialised, t.handle.channelCount, t.handle.isHighRes)) = some (true, 4, true) := by decide +kernel

/-- spec/95_test_vectors.md section 2.3 -/
theorem test_init_unknown : answerOf (powerUp [.ok [0x55]]) (req 0x2F000000) = some { status := 4, ival := 0x55 } := by decide +kernel

/-- spec/95_test_vectors.md section 2.4 -/
theorem test_getVbus : (answerOf (chip [.ok [0x00, 0x40], .ok [0x80, 0x00]]) (req 0x30000000)).map (·.fval) = some (F64.ofBits 0xC022000000000000) := by decide +kernel

/-- spec/95_test_vectors.md section 2.4 -/
theorem test_getVbusavg : (answerOf (chip [.ok [0x00, 0x00], .ok [0xFF, 0xFF]]) (req 0x31000000)).map (·.fval) = some (F64.ofBits 0x4021FFEE00000000) := by decide +kernel

/-- spec/95_test_vectors.md section 2.4 -/
theorem test_getVsense : (answerOf (chip [.ok [0x80, 0x00], .ok [0x80, 0x00]]) (req 0x32000000)).map (·.fval) = some (F64.ofBits 0xC049000000000000) := by decide +kernel

/-- spec/95_test_vectors.md section 2.4 -/
theorem test_getVsenseavg : (answerOf (chip [.ok [0x00, 0x00], .ok [0x08, 0x00]]) (req 0x33000000)).map (·.fval) = some (F64.ofBits 0x4009000000000000) := by decide +kernel

/-- spec/95_test_vectors.md section 1, W6 -/
theorem test_getCurrent : (answerOf (chip [.ok [0x40, 0x00], .ok [0x10, 0x00]]) (req 0x34000000)).map (·.fval) = some (F64.ofBits 0x40A86A0000000000) := by decide +kernel

/-- spec/95_test_vectors.md section 2.4 -/
theorem test_getCurrentavg : (answerOf (chip [.ok [0x00, 0x00], .ok [0x08, 0x00]]) (req 0x35000000)).map (·.fval) = some (F64.ofBits 0x40886A0000000000) := by decide +kernel

/-- spec/95_test_vectors.md section 2.4 -/
theorem test_getPower : (answerOf (chip [.ok [0x00, 0x00], .ok [0x40, 0x00, 0x00, 0x00]]) (req 0x36000000)).map (·.fval) = some (F64.ofBits 0x406C200000000000) := by decide +kernel

/-- spec/95_test_vectors.md section 2.4 -/
theorem test_getPower_negative : (answerOf (chip [.ok [0x40, 0x00], .ok [0x80, 0x00, 0x00, 0x00]]) (req 0x36000000)).map (·.fval) = some (F64.ofBits 0xC08C200000000000) := by decide +kernel

/-- spec/95_test_vectors.md section 2.4 -/
theorem test_getVacc : answerOf (chip [.ok [0x40], .ok [0x40, 0x00], .ok [0xFF, 0xFF, 0xFF, 0xFF, 0xFF, 0xF0, 0x00]]) (req 0x37000000) = some { fval := F64.ofBits 0xC029000000000000, tag := 1 } := by decide +kernel

/-- spec/95_test_vectors.md section 1, W8 -/
theorem test_getVacc_mode3 : answerOf (chip [.ok [0xC0], .ok [0x00, 0x00], .ok [0x00, 0x00, 0x00, 0x12, 0x34, 0x56, 0x78]]) (req 0x37000000) = some { tag := 3 } := by decide +kernel

/-- spec/95_test_vectors.md section 2.4; the seven bytes of 2^32 are rule R73's (assumption log 18) -/
theorem test_getEnergy : (answerOf (chip [.ok [0x00], .ok [0x40, 0x00], .ok [0x00, 0x00], .ok [0x00, 0x00, 0x01, 0x00, 0x00, 0x00, 0x00]]) (req 0x38000000)).map (·.fval) = some (F64.ofBits 0x406E848000000000) := by decide +kernel

/-- spec/95_test_vectors.md section 2.4: one transaction only -/
theorem test_getEnergy_mode2 : (after (chip [.ok [0x80]]) (req 0x38000000)).map (fun t => (t.responses, t.trace.length)) = some ([{ fval := .nan }], 1) := by decide +kernel

/-- spec/95_test_vectors.md section 1, W7 -/
theorem test_getFs : (answerOf (chip [.ok [0xA0, 0x30]]) (req 0x39000000)).map (·.fval) = some (F64.ofBits 0x40A4000000000000) := by decide +kernel

/-- spec/95_test_vectors.md section 2.4 -/
theorem test_getFs_channel : answerOf State.reset (req 0x39010000) = some { status := 6, ival := 0x39010000 } := by decide +kernel

/-- spec/95_test_vectors.md section 2.4 -/
theorem test_lsbVbus : (answerOf (chip [.ok [0x00, 0x80]]) (req 0x3A000000)).map (·.fval) = some (F64.ofBits 0x3F22000000000000) := by decide +kernel

/-- spec/95_test_vectors.md section 2.4 -/
theorem test_lsbVsense : (answerOf (chip [.ok [0x20, 0x00]]) (req 0x3B010000)).map (·.fval) = some (F64.ofBits 0x3F59000000000000) := by decide +kernel

/-- spec/95_test_vectors.md section 2.4 -/
theorem test_lsbPower : (answerOf (chip [.ok [0x40, 0x40]]) (req 0x3C000000)).map (·.fval) = some (F64.ofBits 0x3E9C200000000000) := by decide +kernel

/-- spec/95_test_vectors.md section 2.4 -/
theorem test_getVcfg : answerOf (chip [.ok [0x00, 0x08]]) (req 0x3D020000) = some { ival := 0b01, tag := 2 } := by decide +kernel

/-- spec/95_test_vectors.md section 2.4 -/
theorem test_getIcfg : answerOf (chip [.ok [0x03, 0x00]]) (req 0x3E030000) = some { ival := 0b10, tag := 3 } := by decide +kernel

/-- spec/10_state.md rule R25 and section 1 of the vectors: 0x0400 is channel 2's current code 1, not channel 1's
(assumption log 24) -/
theorem test_getIcfg_position :
    answerOf (chip [.ok [0x04, 0x00]]) (req 0x3E020000) = some { ival := 0b11, tag := 1 } ∧
    answerOf (chip [.ok [0x04, 0x00]]) (req 0x3E010000) = some { ival := 0b10, tag := 0 } := by decide +kernel

/-- spec/95_test_vectors.md section 2.4 -/
theorem test_getAccmode : answerOf (chip [.ok [0x1B]]) (req 0x3F010000) = some { ival := 1 } := by decide +kernel

/-- spec/95_test_vectors.md section 2.5 -/
theorem test_priority_reserved : answerOf State.reset (req 0x08000000) = some { status := 6, ival := 0x08000000 } := by decide +kernel

/-- spec/95_test_vectors.md section 2.5 -/
theorem test_priority_not_initialised : answerOf State.reset (req 0x21004500) = some { status := 7 } := by decide +kernel

/-- spec/95_test_vectors.md section 2.5 -/
theorem test_priority_void : answerOf (chip []) (reqA 0x22000000 0x10000) = some { status := 6, ival := 0x22000000 } := by decide +kernel

/-- spec/95_test_vectors.md section 2.4 -/
theorem test_invalid_channel : answerOf (chip []) (req 0x30040000) = some { status := 3, ival := 4 } := by decide +kernel

/-! ## Witnesses: the hypotheses of the statements are met -/

/-- The base chip, the request `r` on its port, the transport answering `l`. -/
def ported (r : Request) (l : List Answer) : State := { chip l with port := r }
/-- The base chip with one more request to come. -/
def asked (r : Request) : State := { chip [] with incoming := [r] }
/-- The Cache Register of `r` in the base chip. -/
def regOf (s : State) (r : Reg) : CacheReg :=
  match s.cacheReg r with
  | some c => c
  | none => CacheReg.fresh ⟨r, 0, 0, .void, false⟩

theorem witness_DecodedWordIsUnique : decode 0x10003F40 = .ok (.xbits 63 64) := by decide +kernel

/-- Each end of each range of rule R60. -/
theorem witness_ReservedOpcodeIsIllegal :
    ∀ o ∈ ([0x00, 0x08, 0x1D, 0x1F, 0x29, 0x2E, 0x40, 0xFF] : List Byte),
      (asked (req (packWord o 0 0 0))).incoming = [req (packWord o 0 0 0)] ∧
      reservedOpc (ReqWord.opc (packWord o 0 0 0)).toNat := by
  unfold reservedOpc
  decide +kernel

/-- A must-be-zero channel field, and a reserved bit of a SCALE mode. -/
theorem witness_NonzeroFieldIsIllegal :
    (asked (req 0x02010000)).incoming = [req 0x02010000] ∧
    ReqWord.opc 0x02010000 = ReqWord.opc Instr.decU8.tableRow.pattern ∧
    (0x02010000 : ReqWord) &&& Instr.decU8.tableRow.mask ≠ Instr.decU8.tableRow.pattern ∧
    ReqWord.opc 0x1C000008 = ReqWord.opc (Instr.scale 0).tableRow.pattern ∧
    (0x1C000008 : ReqWord) &&& (Instr.scale 0).tableRow.mask ≠ (Instr.scale 0).tableRow.pattern := by
  decide +kernel

theorem witness_PseudoOperationsExpand : (Pseudo.negpwrfsr true .lat).isSet = true := rfl

theorem witness_StepRunsDecodedRequest :
    (asked (req 0x25000000)).incoming = [req 0x25000000] ∧ decode 0x25000000 = .ok .cinvall ∧
    (chip []).incoming = [] := by decide +kernel

/-- Every length an integer decode accepts, and one length more than the void codec's. -/
theorem witness_DecodeOperations :
    (ported (reqS 0 []) []).port.str = [] ∧ (ported (reqS 0 [0xFF]) []).port.str = [0xFF] ∧
    (ported (reqS 0 [0x80, 0]) []).port.str = [0x80, 0] ∧
    (ported (reqS 0 [0xFF, 0, 0, 1]) []).port.str = [0xFF, 0, 0, 1] ∧
    (ported (reqS 0 [0xFF, 0, 0, 0, 0, 0, 1]) []).port.str = [0xFF, 0, 0, 0, 0, 0, 1] ∧
    (ported (reqS 0 [0]) []).port.str.length ≠ 0 := by decide +kernel

/-- The largest operand each width takes and the smallest it does not. -/
theorem witness_EncodeOperations :
    (ported (reqA 0 0xFF) []).port.a.toNat < 2 ^ 8 ∧ (ported (reqA 0 0xFFFF) []).port.a.toNat < 2 ^ 16 ∧
    (ported (reqA 0 0xFFFFFFFF) []).port.a.toNat < 2 ^ 32 ∧
    2 ^ 8 ≤ (ported (reqA 0 0x100) []).port.a.toNat ∧ 2 ^ 32 ≤ (ported (reqA 0 0x100000000) []).port.a.toNat :=
  by decide +kernel

/-- The longest length the ports carry, a shorter string, and the first length above. -/
theorem witness_ByteArrayOperations :
    (8 : Byte).toNat ≤ 8 ∧ (ported (reqS 0 [1, 2, 3, 4, 5, 6, 7, 8]) []).port.str.length = (8 : Byte).toNat ∧
    (ported (reqS 0 [1]) []).port.str.length ≠ (8 : Byte).toNat ∧ 8 < (9 : Byte).toNat := by decide +kernel

/-- A value of the codec's type, a string of its length, and a 7-byte register's value with a top byte. -/
theorem witness_CodecRoundTrip :
    Value.fits .u16 { ival := 0xFFFF } = true ∧ Codec.u16 ≠ .u56 ∧ [0xFF#8, 0xFF#8].length = Codec.u16.wireLength ∧
    Value.fits .u56 { ival := 0xFF00000000000001 } = true := by decide +kernel

theorem witness_ExtractBits : (63 : Byte).toNat ≤ 63 ∧ (64 : Byte).toNat ≤ 64 ∧ 63 < (64 : Byte).toNat ∧
    64 < (65 : Byte).toNat := by decide

theorem witness_ConfigurationDecode :
    (ported (reqA 0 0) []).port.a = 0 ∧ (ported (reqA 0 1) []).port.a = 1 ∧ (ported (reqA 0 2) []).port.a = 2 ∧
    (ported (reqA 0 3) []).port.a = 3 ∧ 4 ≤ (ported (reqA 0 4) []).port.a.toNat := by decide +kernel

/-- Modes 0 to 3 at the top of the operand's range, and the first operand above it. -/
theorem witness_AccumulatorModeDecode :
    (∀ k ∈ [(12, 0), (13, 1), (14, 2), (15, 3)],
      (ported (reqA 0 (BitVec.ofNat 64 k.1)) []).port.a.toNat < 16 ∧
      (ported (reqA 0 (BitVec.ofNat 64 k.1)) []).port.a.toNat % 4 = k.2) ∧
    16 ≤ (ported (reqA 0 16) []).port.a.toNat := by decide +kernel

theorem witness_SignExtension :
    (ported (reqA 0 0xFFFF) []).port.a.toNat < 2 ^ 16 ∧ (ported (reqA 0 0x80000000) []).port.a.toNat < 2 ^ 32 ∧
    (ported (reqA 0 0x00FFFFFFFFFFFFFF) []).port.a.toNat < 2 ^ 56 ∧
    2 ^ 16 ≤ (ported (reqA 0 0x10000) []).port.a.toNat ∧
    2 ^ 32 ≤ (ported (reqA 0 0x100000000) []).port.a.toNat ∧
    2 ^ 56 ≤ (ported (reqA 0 0x0100000000000000) []).port.a.toNat := by decide +kernel

theorem witness_IntegerConversionIsNearest : (-(2 ^ 53 - 1) : Int).natAbs < 2 ^ 53 := by decide

/-- A divisor that is not zero, the smallest there is, and a zero. -/
theorem witness_FloatArithmeticIsNearest :
    F64.quanta 0 1 ≠ 0 ∧ F64.quanta 0 0 = 0 := by decide +kernel

/-- The largest finite number's bits, infinity's, and the NaN next to it. -/
theorem witness_ConversionAndScalingOperations :
    (0x7FEFFFFFFFFFFFFF : Word).toNat / 2 ^ 52 % 2 ^ 11 = 2046 ∧
    (0xFFF0000000000000 : Word).toNat / 2 ^ 52 % 2 ^ 11 = 2047 ∧ (0xFFF0000000000000 : Word).toNat % 2 ^ 52 = 0 ∧
    (0x7FF0000000000001 : Word).toNat / 2 ^ 52 % 2 ^ 11 = 2047 ∧
    (0x7FF0000000000001 : Word).toNat % 2 ^ 52 ≠ 0 := by decide

/-- Each width at its largest operand and at the first too wide; the two kinds of reserved mode. -/
theorem witness_ScaleOperation :
    ((4 : Byte).toNat < 8 ∧ (4 : Byte).toNat % 4 = 0 ∧ (ported (reqA 0 0xFFFF) []).port.a.toNat < 2 ^ 16) ∧
    ((5 : Byte).toNat < 8 ∧ (5 : Byte).toNat % 4 = 1 ∧ 2 ^ 32 ≤ (ported (reqA 0 0x100000000) []).port.a.toNat) ∧
    ((6 : Byte).toNat < 8 ∧ (6 : Byte).toNat % 4 = 2 ∧
      (ported (reqA 0 0x00FFFFFFFFFFFFFF) []).port.a.toNat < 2 ^ 56) ∧
    8 ≤ (8 : Byte).toNat ∧ (3 : Byte).toNat % 4 = 3 := by decide +kernel

theorem witness_SampleModeDecode :
    (ported (reqA 0 15) []).port.a.toNat = (15 : Fin 16).val ∧
    (ported (reqA 0 15) []).params.smClass[(15 : Fin 16)] = .sleep ∧
    16 ≤ (ported (reqA 0 16) []).port.a.toNat := by decide +kernel

theorem witness_ActiveChannelCount :
    1 ≤ (1 : Byte).toNat ∧ (4 : Byte).toNat ≤ 4 ∧ (ported (reqA 0 0xFFFF) []).port.a.toNat < 2 ^ 16 ∧
    (0 : Byte).toNat < 1 ∧ 4 < (5 : Byte).toNat ∧ 2 ^ 16 ≤ (ported (reqA 0 0x10000) []).port.a.toNat := by
  decide +kernel

theorem witness_SampleFrequencyDecode :
    1 ≤ (1 : Byte).toNat ∧ (4 : Byte).toNat ≤ 4 ∧ (ported (reqA 0 0xF000) []).port.a.toNat < 2 ^ 16 ∧
    (ported (reqA 0 0xF000) []).port.a.toNat / 2 ^ 12 = (15 : Fin 16).val ∧
    (0 : Byte).toNat < 1 ∧ 4 < (5 : Byte).toNat ∧ 2 ^ 16 ≤ (ported (reqA 0 0x10000) []).port.a.toNat := by
  decide +kernel

theorem witness_TransportDraw : (chip [.ok [], .err 1]).answers = [.ok [], .err 1] ∧ (chip []).answers = [] := by
  decide +kernel

/-- A valid register, and for one that is not a good string, one of the wrong length and an error. -/
theorem witness_CacheReadRule :
    (vbusCached.cacheReg (.vbus 0) = some (regOf vbusCached (.vbus 0)) ∧
      (regOf vbusCached (.vbus 0)).valid = true) ∧
    ((chip []).cacheReg (.vbus 0) = some (regOf (chip []) (.vbus 0)) ∧
      (regOf (chip []) (.vbus 0)).valid = false) ∧
    (chip [.ok [0xFF, 0xFF]]).draw = (.ok [0xFF, 0xFF], chip []) ∧
    (match decodeWire .u16 [0xFF, 0xFF] with | .ok v => v == { ival := 0xFFFF } | .error _ => false) = true ∧
    (chip [.ok [0xFF]]).draw = (.ok [0xFF], chip []) ∧
    (match decodeWire .u16 [0xFF] with | .ok _ => false | .error e => e == .lengthMismatch 2 2 1) = true ∧
    (chip [.err 7]).draw = (.err 7, chip []) := by decide +kernel

/-- The first and the last address of the default table, and one between them that no row has. -/
theorem witness_LookupOperation :
    State.reset.legal = true ∧ (∃ d ∈ State.reset.table, d.address = 0x00) ∧
    (∃ d ∈ State.reset.table, d.address = 0xFF) ∧ ∀ d ∈ State.reset.table, d.address ≠ 0x45 := by
  decide +kernel

theorem chip_holds {l : List Answer} {c : CacheReg} {a : Byte}
    (h : (c ∈ (chip l).cache ∧ c.desc.address = a)) (r : Request) : (ported r l).holds a c :=
  ⟨by rw [show (ported r l).legal = State.reset.legal from rfl]; decide +kernel, rfl, h.1, h.2⟩

/-- A register of 16 bits and one of bytes that read well, one that the transport refuses, a void one. -/
theorem witness_CreadOperation :
    (chip [.ok [1, 2]]).inv = true ∧
    (ported (req 0) [.ok [1, 2]]).holds 0x07 (regOf (chip []) (.vbus 0)) ∧
    (regOf (chip []) (.vbus 0)).desc.codec ≠ .void ∧
    (chip [.ok [1, 2]]).reads (.vbus 0) { ival := 0x0102 } (afterRead (chip [.ok [1, 2]]) (.vbus 0)) ∧
    (ported (req 0) [.ok [1, 2, 3]]).holds 0x25 (regOf (chip []) .alertStatus) ∧
    (chip [.ok [1, 2, 3]]).reads .alertStatus { bytes := [1, 2, 3] }
      (afterRead (chip [.ok [1, 2, 3]]) .alertStatus) ∧
    (chip [.err 9]).readFails (.vbus 0) (.transportError 9) ((chip []).log (.read 0x07 2 (.err 9))) ∧
    (ported (req 0) []).holds 0x00 (regOf (chip []) .refresh) ∧
    (regOf (chip []) .refresh).desc.codec = .void ∧ State.reset.handle.initialised = false ∧
    State.reset.inv = true ∧ ∀ d ∈ (chip []).table, d.address ≠ 0x45 :=
  ⟨by decide +kernel, chip_holds (by decide +kernel) _, by decide +kernel, reads_of (by decide +kernel),
    chip_holds (by decide +kernel) _, reads_of (by decide +kernel),
    ⟨regOf (chip []) (.vbus 0), by decide +kernel, rfl⟩,
    chip_holds (by decide +kernel) _, by decide +kernel, rfl, by decide +kernel, by decide +kernel⟩

/-- A cacheable 16-bit register at the largest operand, with a write taken and one refused; a void register;
the first operand too wide; a byte-array register and a string of another length. -/
theorem witness_CwriteOperation :
    (ported (reqA 0 0xFFFF) [.ok []]).holds 0x22 (regOf (chip []) .ctrlLat) ∧
    (regOf (chip []) .ctrlLat).desc.codec.takes (reqA 0 0xFFFF) { ival := 0xFFFF } ∧
    (ported (reqA 0 0xFFFF) [.ok []]).draw = (.ok [], ported (reqA 0 0xFFFF) []) ∧
    (ported (reqA 0 0xFFFF) [.err 3]).draw = (.err 3, ported (reqA 0 0xFFFF) []) ∧
    (ported (req 0) []).holds 0x1D (regOf (chip []) .refreshG) ∧
    (regOf (chip []) .refreshG).desc.codec = .void ∧
    (regOf (chip []) .ctrlLat).desc.codec = .u16 ∧ 2 ^ 16 ≤ (ported (reqA 0 0x10000) []).port.a.toNat ∧
    (ported (reqS 0 [1]) []).holds 0x29 (regOf (chip []) (.ocLimit 0)) ∧
    (regOf (chip []) (.ocLimit 0)).desc.codec = .ba 2 ∧ (ported (reqS 0 [1]) []).port.str.length ≠ 2 :=
  ⟨chip_holds (by decide +kernel) _, ⟨by decide, rfl⟩, rfl, rfl, chip_holds (by decide +kernel) _,
    by decide +kernel, by decide +kernel, by decide, chip_holds (by decide +kernel) _, by decide +kernel,
    by decide⟩

theorem witness_CinvOperation : (ported (req 0) []).holds 0x07 (regOf (chip []) (.vbus 0)) :=
  chip_holds (by decide +kernel) _

theorem witness_CvalidOperation :
    (ported (req 0) []).holds 0xFF (regOf (chip []) .revisionId) ∧ State.reset.handle.initialised = false ∧
    (chip []).handle.initialised = true ∧ ∀ d ∈ (chip []).table, d.address ≠ 0xFC :=
  ⟨chip_holds (by decide +kernel) _, rfl, rfl, by decide +kernel⟩

theorem witness_CinvallOperation :
    vbusCached.inv = true ∧ vbusCached.handle.initialised = true ∧ State.reset.handle.initialised = false := by
  decide +kernel

theorem witness_RefreshOperations :
    (chip [.ok []]).legal = true ∧ (chip [.ok []]).handle.initialised = true ∧
    (chip [.ok []]).cacheReg .refresh = some (regOf (chip []) .refresh) ∧
    (chip [.ok []]).cacheReg .refreshG = some (regOf (chip []) .refreshG) ∧
    (chip [.ok []]).cacheReg .refreshV = some (regOf (chip []) .refreshV) ∧
    (chip [.ok []]).draw = (.ok [], chip []) ∧ (chip [.err 2]).draw = (.err 2, chip []) ∧
    State.reset.handle.initialised = false := by decide +kernel

theorem witness_InitBuildsHandle :
    (powerUp [.ok [0x7D]]).legal = true ∧
    (powerUp [.ok [0x7D]]).cacheReg .productId = some (regOf (powerUp []) .productId) ∧
    (powerUp [.ok [0x7D]]).draw = (.ok [0x7D], powerUp []) ∧
    (⟨0x7D, 2, true⟩ : Product) ∈ (powerUp []).params.products := by decide +kernel

/-- `powerUp` with `PRODUCT_ID` made cacheable. -/
def powerUpCached (l : List Answer) : State :=
  { powerUp l with
    cache := (powerUp l).cache.map fun c =>
      if c.desc.reg = .productId then { c with desc := { c.desc with cacheable := true } } else c }

/-- Rule R29, the failed INIT: an unknown byte leaves no register valid, a cacheable `PRODUCT_ID` neither. -/
theorem test_init_unknown_cacheable :
    (after (powerUpCached [.ok [0x6E]]) (req 0x2F000000)).map
      (fun t => (t.responses, t.cache.any (·.valid), t.handle.initialised)) =
    some ([{ status := 4, ival := 0x6E }], false, false) := by decide +kernel

/-- A transport error, a string one byte too long, and a byte next to a known one that no product has; with
`PRODUCT_ID` not cacheable, and cacheable. -/
theorem witness_InitFailures :
    (powerUp [.err 1]).legal = true ∧
    (powerUp [.err 1]).cacheReg .productId = some (regOf (powerUp []) .productId) ∧
    (powerUp [.err 1]).draw = (.err 1, powerUp []) ∧
    (powerUp [.ok [0x6B, 0]]).draw = (.ok [0x6B, 0], powerUp []) ∧ [0x6B#8, 0].length ≠ 1 ∧
    (powerUp [.ok [0x6E]]).draw = (.ok [0x6E], powerUp []) ∧
    (∀ p ∈ (powerUp []).params.products, p.id ≠ 0x6E) ∧
    (powerUpCached [.ok [0x6E]]).legal = true ∧
    (powerUpCached [.ok [0x6E]]).cacheReg .productId = some (regOf (powerUpCached []) .productId) ∧
    (regOf (powerUpCached []) .productId).desc.cacheable = true := by decide +kernel

/-- A write that succeeds, a valid register and an operation that keeps it, a register invalidated and read
again, and a register that is not cacheable. -/
theorem witness_CacheLaws :
    ((ported (reqA 0 0xFFFF) [.ok []]).inv = true ∧
      (ported (reqA 0 0xFFFF) [.ok []]).holds 0x22 (regOf (chip []) .ctrlLat) ∧
      (regOf (chip []) .ctrlLat).desc.cacheable = true ∧
      (regOf (chip []) .ctrlLat).desc.codec.takes (reqA 0 0xFFFF) { ival := 0xFFFF } ∧
      (match exec (.cwrite 0x22) (ported (reqA 0 0xFFFF) [.ok []]) with
        | .next t => t.responses == [{}]
        | .fault _ => false
        | .refused _ => false) = true) ∧
    (vbusCached.inv = true ∧ vbusCached.hit (.vbus 0) = some { ival := 0x1234 } ∧
      Instr.invalidates (.cread 0x22) = false ∧ (.cread 0x22 : Instr) ≠ .cwrite 0x07 ∧
      (exec (.cread 0x22) vbusCached matches .next _) = true) ∧
    ((exec (.cinv 0x07) vbusCached matches .next _) = true ∧
      (exec (.cread 0x07) ((chip []).invalidate (.vbus 0)) matches .next _) = true) ∧
    ((ported (req 0) [.ok [0x40]]).holds 0x24 (regOf (chip []) .accumConfig) ∧
      (regOf (chip []) .accumConfig).desc.cacheable = false ∧
      (regOf (chip []) .accumConfig).desc.codec ≠ .void) :=
  ⟨⟨by decide +kernel, chip_holds (by decide +kernel) _, by decide +kernel, ⟨by decide, rfl⟩,
      by decide +kernel⟩,
    ⟨by decide +kernel, by decide +kernel, rfl, by decide, rfl⟩, ⟨rfl, rfl⟩,
    ⟨chip_holds (by decide +kernel) _, by decide +kernel, by decide +kernel⟩⟩

/-- No handle; and the first channel a four-channel chip does not have. -/
theorem witness_ChannelCheck :
    Instr.channel (.getEnergy 4) = some 4 ∧ State.reset.handle.initialised = false ∧
    (chip []).handle.initialised = true ∧ (chip []).handle.channelCount.val ≤ (4 : Byte).toNat := by
  decide +kernel

/-- The last channel of a chip. -/
theorem chip_serves (l : List Answer) : (chip l).serves 3 3 :=
  ⟨by rw [show (chip l).legal = State.reset.legal from rfl]; decide +kernel, rfl, rfl,
    show 3 < 4 by omega⟩

theorem witness_LsbOperations :
    (chip [.ok [0x03, 0x02]]).serves 3 3 ∧
    (chip [.ok [0x03, 0x02]]).reads .negPwrFsrLat { ival := 0x0302 }
      (afterRead (chip [.ok [0x03, 0x02]]) .negPwrFsrLat) :=
  ⟨chip_serves _, reads_of (by decide +kernel)⟩

theorem witness_ConfigurationReadings :
    let s := chip [.ok [0x03, 0x02]]
    let t := afterRead s .negPwrFsrLat
    s.serves 3 3 ∧ s.reads .negPwrFsrLat { ival := 0x0302 } t ∧
    t.reads .negPwrFsrLat { ival := 0x0302 } (afterRead t .negPwrFsrLat) ∧
    s.cacheReg .negPwrFsrLat = some (regOf s .negPwrFsrLat) ∧
    (regOf s .negPwrFsrLat).desc.cacheable = true :=
  ⟨chip_serves _, reads_of (by decide +kernel), reads_of (by decide +kernel), by decide +kernel,
    by decide +kernel⟩

theorem witness_AccumulatorModeReading :
    (chip [.ok [0x1B]]).serves 3 3 ∧ (chip [.ok [0x1B]]).params.accModeReg = .live ∧
    (chip [.ok [0x1B]]).reads .accumConfig { ival := 0x1B } (afterRead (chip [.ok [0x1B]]) .accumConfig) :=
  ⟨chip_serves _, rfl, reads_of (by decide +kernel)⟩

/-- Channel 3, a bipolar voltage code, the most negative and the largest raw value. -/
theorem witness_BusVoltageReadings :
    let s := chip [.ok [0x00, 0x01], .ok [0x80, 0x00]]
    let t := afterRead s .negPwrFsrLat
    s.serves 3 3 ∧ s.reads .negPwrFsrLat { ival := 0x0001 } t ∧
    t.reads (.vbus 3) { ival := 0x8000 } (afterRead t (.vbus 3)) ∧
    t.reads (.vbusAvg 3) { ival := 0x8000 } (afterRead t (.vbusAvg 3)) ∧
    (0x8000 : Word).toNat < 2 ^ 16 :=
  ⟨chip_serves _, reads_of (by decide +kernel), reads_of (by decide +kernel), reads_of (by decide +kernel),
    by decide⟩

theorem witness_SenseVoltageAndCurrentReadings :
    let s := chip [.ok [0x01, 0x00], .ok [0xFF, 0xFF]]
    let t := afterRead s .negPwrFsrLat
    s.serves 3 3 ∧ s.reads .negPwrFsrLat { ival := 0x0100 } t ∧
    t.reads (.vsense 3) { ival := 0xFFFF } (afterRead t (.vsense 3)) ∧
    t.reads (.vsenseAvg 3) { ival := 0xFFFF } (afterRead t (.vsenseAvg 3)) ∧
    (0xFFFF : Word).toNat < 2 ^ 16 :=
  ⟨chip_serves _, reads_of (by decide +kernel), reads_of (by decide +kernel), reads_of (by decide +kernel),
    by decide⟩

theorem witness_PowerReading :
    let s := chip [.ok [0x01, 0x00], .ok [0xFF, 0xFF, 0xFF, 0xFF]]
    let t := afterRead s .negPwrFsrLat
    s.serves 3 3 ∧ s.reads .negPwrFsrLat { ival := 0x0100 } t ∧
    t.reads (.vpower 3) { ival := 0xFFFFFFFF } (afterRead t (.vpower 3)) ∧
    (0xFFFFFFFF : Word).toNat < 2 ^ 32 :=
  ⟨chip_serves _, reads_of (by decide +kernel), reads_of (by decide +kernel), by decide⟩

/-- Channel 3 in mode `m`, the accumulator all ones. -/
def accChip (m : Byte) : State :=
  chip [.ok [m], .ok [0x01, 0x01], .ok [0xFF, 0xFF, 0xFF, 0xFF, 0xFF, 0xFF, 0xFF]]

/-- Modes 0 and 3, the first and the last. -/
theorem witness_AccumulatorReading : ∀ m ∈ ([0, 3] : List Byte),
    let t := afterRead (accChip m) .accumConfig
    let u := afterRead t .negPwrFsrLat
    (accChip m).serves 3 3 ∧
    (accChip m).reads (accModeReg (accChip m).params) { ival := m.setWidth 64 } t ∧
    t.reads .negPwrFsrLat { ival := 0x0101 } u ∧
    u.reads (.vacc 3) { ival := 0x00FFFFFFFFFFFFFF } (afterRead u (.vacc 3)) := by
  intro m hm
  have hm : m = 0 ∨ m = 3 := by simpa using hm
  rcases hm with rfl | rfl <;>
    exact ⟨chip_serves _, reads_of (by decide +kernel), reads_of (by decide +kernel),
      reads_of (by decide +kernel)⟩

/-- The mode of the state above with 3 for its accumulator configuration. -/
theorem witness_AccumulatorModeThreeIsZero : codeAt ((3 : Byte).setWidth 64) (6 - 2 * (3 : Fin 4).val) = 3 := by
  decide

theorem witness_SampleFrequencyReading :
    (chip [.ok [0xA0, 0x30]]).legal = true ∧ (chip [.ok [0xA0, 0x30]]).handle.initialised = true ∧
    (chip [.ok [0xA0, 0x30]]).reads .ctrlLat { ival := 0xA030 }
      (afterRead (chip [.ok [0xA0, 0x30]]) .ctrlLat) ∧ State.reset.handle.initialised = false :=
  ⟨by decide +kernel, rfl, reads_of (by decide +kernel), rfl⟩

/-- Channel 3 in mode 0, the latched control register `ctrl`, a negative accumulator. -/
def energyChip (ctrl : List Byte) : State :=
  chip [.ok [0x00], .ok ctrl, .ok [0x01, 0x00], .ok [0xFF, 0x80, 0, 0, 0, 0, 0]]

/-- A mode that is not 0; mode 0 in a single-shot sample mode; mode 0 in the fast mode. -/
theorem witness_EnergyReading :
    (let s := chip [.ok [0x01]]
     s.serves 3 3 ∧ s.reads (accModeReg s.params) { ival := 1 } (afterRead s .accumConfig) ∧
     codeAt 1 (6 - 2 * (3 : Fin 4).val) ≠ 0) ∧
    (let s := energyChip [0x80, 0x00]
     let t := afterRead s .accumConfig
     s.serves 3 3 ∧ s.reads (accModeReg s.params) { ival := 0 } t ∧
     codeAt 0 (6 - 2 * (3 : Fin 4).val) = 0 ∧ t.reads .ctrlLat { ival := 0x8000 } (afterRead t .ctrlLat) ∧
     smClassOf s.params (modeCode 0x8000) = .singleShot) ∧
    (let s := energyChip [0xA0, 0x00]
     let t := afterRead s .accumConfig
     let u := afterRead t .ctrlLat
     let w := afterRead u .negPwrFsrLat
     s.serves 3 3 ∧ s.reads (accModeReg s.params) { ival := 0 } t ∧
     t.reads .ctrlLat { ival := 0xA000 } u ∧ smClassOf s.params (modeCode 0xA000) ≠ .singleShot ∧
     u.reads .negPwrFsrLat { ival := 0x0100 } w ∧
     w.reads (.vacc 3) { ival := 0x00FF800000000000 } (afterRead w (.vacc 3))) :=
  ⟨⟨chip_serves _, reads_of (by decide +kernel), by decide⟩,
    ⟨chip_serves _, reads_of (by decide +kernel), by decide, reads_of (by decide +kernel), by decide +kernel⟩,
    ⟨chip_serves _, reads_of (by decide +kernel), reads_of (by decide +kernel), by decide +kernel,
      reads_of (by decide +kernel), reads_of (by decide +kernel)⟩⟩

/-- A read that raises has left the state the model says it leaves. -/
theorem readFails_of {s t : State} {r : Reg} {e : Err}
    (h : (match s.cacheReg r with
      | none => false
      | some c => match cacheRead c.desc s with
        | .ok _ _ => false
        | .error e' t' => decide (e' = e ∧ t' = t)) = true) : s.readFails r e t := by
  unfold State.readFails
  cases hc : s.cacheReg r with
  | none => rw [hc] at h; cases h
  | some c =>
    rw [hc] at h
    refine ⟨c, rfl, ?_⟩
    cases hx : cacheRead c.desc s with
    | ok v u => simp [hx] at h
    | error e' u => simp [hx] at h; rw [h.1, h.2]

/-- `s` after the transport answered `a` to the event `e` and nothing was filled. -/
def failedAt (s : State) (e : BusEvent) : State := { s with answers := [] }.log e

/-- The first, the second and the third read of an operation fail. -/
theorem witness_TelemetryReadFailure :
    let s := chip [.ok [0x00], .ok [0x00, 0x00], .err 6]
    let t := afterRead s .accumConfig
    let u := afterRead t .negPwrFsrLat
    (chip [.err 5]).serves 3 3 ∧ (chip [.err 5]).readsAll [] (chip [.err 5]) ∧
    (chip [.err 5]).readFails .negPwrFsrLat (.transportError 5)
      (failedAt (chip []) (.read 0x23 2 (.err 5))) ∧
    s.serves 3 3 ∧ s.readsAll [.accumConfig, .negPwrFsrLat] u ∧
    u.readFails (.vacc 3) (.transportError 6) (failedAt u (.read 0x06 7 (.err 6))) :=
  ⟨chip_serves _, rfl, readFails_of (by decide +kernel), chip_serves _,
    ⟨{ ival := 0 }, _, reads_of (by decide +kernel), { ival := 0 }, _, reads_of (by decide +kernel), rfl⟩,
    readFails_of (by decide +kernel)⟩

/-- The one read of GET.FS fails; each of the four reads of GET.ENERGY. -/
theorem witness_TelemetryReadFailure_energy :
    let s := chip [.ok [0x00], .ok [0x40, 0x00], .ok [0x00, 0x00], .err 6]
    let t := afterRead s .accumConfig
    let w := afterRead t .ctrlLat
    let x := afterRead w .negPwrFsrLat
    let short (l : List Answer) := chip (l ++ [.err 6])
    (short []).readFails .ctrlLat (.transportError 6) (failedAt (chip []) (.read 0x22 2 (.err 6))) ∧
    (short []).readFails (accModeReg (short []).params) (.transportError 6)
      (failedAt (chip []) (.read 0x24 1 (.err 6))) ∧
    s.serves 3 3 ∧ s.reads (accModeReg s.params) { ival := 0 } t ∧
    codeAt (0 : Word) (6 - 2 * (3 : Fin 4).val) = 0 ∧
    (afterRead (short [.ok [0x00]]) .accumConfig).readFails .ctrlLat (.transportError 6)
      (failedAt (afterRead (short [.ok [0x00]]) .accumConfig) (.read 0x22 2 (.err 6))) ∧
    t.reads .ctrlLat { ival := 0x4000 } w ∧ smClassOf s.params (modeCode 0x4000) ≠ .singleShot ∧
    (let v := afterRead (afterRead (short [.ok [0x00], .ok [0x40, 0x00]]) .accumConfig) .ctrlLat
     v.readFails .negPwrFsrLat (.transportError 6) (failedAt v (.read 0x23 2 (.err 6)))) ∧
    w.reads .negPwrFsrLat { ival := 0 } x ∧
    x.readFails (.vacc 3) (.transportError 6) (failedAt x (.read 0x06 7 (.err 6))) :=
  ⟨readFails_of (by decide +kernel), readFails_of (by decide +kernel), chip_serves _,
    reads_of (by decide +kernel), by decide, readFails_of (by decide +kernel), reads_of (by decide +kernel),
    by decide +kernel, readFails_of (by decide +kernel), reads_of (by decide +kernel),
    readFails_of (by decide +kernel)⟩

theorem witness_InvariantKeptByEveryStep :
    ({ vbusCached with incoming := [req 0x26000000] } : State).inv = true ∧
    (step { vbusCached with incoming := [req 0x26000000] } matches .next _) = true :=
  ⟨by decide +kernel, rfl⟩

theorem witness_LegalBlockAlwaysAnswers : vbusCached.legal = true := by decide +kernel

theorem witness_ExactlyOneResponse :
    (asked (req 0x25000000)).incoming = [req 0x25000000] ∧ (step (asked (req 0x25000000)) matches .next _) = true :=
  ⟨rfl, rfl⟩

theorem witness_HandleWrittenOnlyByInit :
    Instr.cinvall ≠ .init ∧ (exec .cinvall (chip []) matches .next _) = true := ⟨by decide, rfl⟩

theorem witness_DescriptorTableNeverMutated : (step (asked (req 0x25000000)) matches .next _) = true := rfl

theorem witness_TransactionsStayInTable :
    ({ vbusCached with incoming := [req 0x26000000] } : State).legal = true ∧
    (step { vbusCached with incoming := [req 0x26000000] } matches .next _) = true ∧
    (chip []).handle.initialised = true ∧ ∀ d ∈ (chip []).table, d.address ≠ 0x45 :=
  ⟨by decide +kernel, rfl, rfl, by decide +kernel⟩

theorem witness_NotInitialisedExactly :
    Instr.needsInit .getFs = true ∧ State.reset.handle.initialised = false ∧ Instr.needsInit .init = false ∧
    (match exec .encV State.reset with | .next t => t.responses == [{}] | .fault _ => false | .refused _ => false) =
      true := by decide +kernel

/-- Two states that differ in handle, cache and transport. -/
theorem witness_StatelessOperations :
    Instr.needsInit (.lookup 7) = false ∧ (.lookup 7 : Instr) ≠ .init ∧ vbusCached.port = State.reset.port ∧
    vbusCached.params = State.reset.params ∧ vbusCached.table = State.reset.table ∧
    vbusCached ≠ State.reset := by decide +kernel

/-- An error before any transaction, one of a CREAD, and one of a telemetry operation. -/
theorem witness_ErrorsLeaveState :
    (match exec (.cread 0x45) (chip []) with
      | .next t => t.responses == [{ status := 5, ival := 0x45 }] && t.trace == []
      | .fault _ => false
      | .refused _ => false) = true ∧
    (match exec (.cread 0x07) (chip [.err 1]) with
      | .next t => t.responses == [{ status := 1, payload := some 1 }]
      | .fault _ => false
      | .refused _ => false) = true ∧
    (match exec (.getVbus 3) (chip [.ok [0, 0], .ok []]) with
      | .next t => t.responses == [{ status := 2, ival := 0x000202 }]
      | .fault _ => false
      | .refused _ => false) = true := by decide +kernel

theorem witness_StatusCodes :
    (match exec (.cread 0x07) (chip [.err 1]) with
      | .next t => t.responses == [{ status := 1, payload := some 1 }]
      | .fault _ => false
      | .refused _ => false) = true ∧
    (chip [.ok [1, 2, 3]]).inv = true ∧
    (match exec (.cread 0x25) (chip [.ok [1, 2, 3]]) with
      | .next t => t.responses == [{ bytes := [1, 2, 3] }]
      | .fault _ => false
      | .refused _ => false) = true := by decide +kernel

theorem witness_RefreshLeavesNothingValid :
    vbusCached.inv = true ∧ vbusCached.handle.initialised = true ∧
    (exec .refreshV vbusCached matches .next _) = true := ⟨by decide +kernel, rfl, rfl⟩

end Sys2Proof.Tests
end

section
/-! SUPPORT. Proofs of the statements of spec/00_scope.md. First what one step can do, said once; then the
fields of the requester's side, which no operation writes before it answers; then the statements. -/

namespace Sys2Proof.Machine

/-! One step (rules R43, R170), an equation for each of its cases. -/

section Step
variable {s t : State} {r : Request} {rest : List Request} {i : Instr}

/-- A block with no request waits (rule R170). -/
theorem step_of_no_request (h : s.incoming = []) : step s = .next s := by simp [step, h]

/-- The next request is accepted and the operation its word names is run (rule R43). -/
theorem step_of_decode_ok (h : s.incoming = r :: rest) (hd : decode r.word = .ok i) :
    step s = exec i (s.accept r rest) := by simp [step, h, hd]

/-- The next request is accepted and answered `IllegalOperation` when its word names no operation
(rules R58, R60). -/
theorem step_of_decode_error {e} (h : s.incoming = r :: rest) (hd : decode r.word = .error e) :
    step s = .next ((s.accept r rest).raise (.illegalOperation r.word)) := by
  simp [step, h, hd, answerIllegal]

/-- What a step that serves the request `r` can do: run the operation the word names, or answer that it
names none. -/
theorem step_serves_cases (h : s.incoming = r :: rest) (hs : step s = .next t) :
    (∃ i, decode r.word = .ok i ∧ exec i (s.accept r rest) = .next t) ∨
    ((∃ e, decode r.word = .error e) ∧ t = (s.accept r rest).raise (.illegalOperation r.word)) := by
  cases hd : decode r.word with
  | ok i => exact .inl ⟨i, rfl, step_of_decode_ok h hd ▸ hs⟩
  | error e =>
    rw [step_of_decode_error h hd] at hs
    cases hs
    exact .inr ⟨⟨e, rfl⟩, rfl⟩

end Step

/-- The request on the port, the requests still waiting and the responses sent are the same in `s` and
`t`: the fields that only accepting a request and answering it write (rules R3, R43). -/
structure State.SamePorts (s t : State) : Prop where
  port : t.port = s.port
  incoming : t.incoming = s.incoming
  responses : t.responses = s.responses

/-- No atomic effect of an operation accepts a request or answers one. -/
theorem samePorts_effects (i : Instr) (T : List Descriptor) : Effects i T State.SamePorts where
  refl _ := ⟨rfl, rfl, rfl⟩
  trans _ _ _ hab hbc :=
    ⟨hbc.port.trans hab.port, hbc.incoming.trans hab.incoming, hbc.responses.trans hab.responses⟩
  read _ _ _ _ := ⟨by simp, by simp, by simp⟩
  fill _ _ _ _ _ _ _ := ⟨rfl, rfl, rfl⟩
  write _ _ _ _ _ _ _ _ := ⟨by simp, by simp, by simp⟩
  invalidate _ _ _ _ := ⟨rfl, rfl, rfl⟩
  invalidateAll _ _ _ := ⟨rfl, rfl, rfl⟩
  command _ _ _ _ _ _ _ := ⟨by simp, by simp, by simp⟩
  delay _ _ _ := ⟨rfl, rfl, rfl⟩
  uninit _ _ _ := ⟨rfl, rfl, rfl⟩
  latch _ _ _ _ _ _ := ⟨rfl, rfl, rfl⟩

/-- An operation sends exactly one response and leaves the port and the waiting requests alone. -/
theorem exec_answers_once {i : Instr} {s t : State} (h : exec i s = .next t) :
    t.port = s.port ∧ t.incoming = s.incoming ∧ ∃ x, t.responses = x :: s.responses := by
  obtain ⟨u, x, same, -, rfl⟩ := exec_effects (samePorts_effects i s.table) rfl h
  exact ⟨same.port, same.incoming, x, by rw [State.reply_responses, same.responses]⟩

/-- Settles O52: whether the request's word names an operation or not, the step accepts the request and
then adds one response. -/
theorem exactlyOneResponse : Obligations.ExactlyOneResponse := by
  unfold Obligations.ExactlyOneResponse
  intro s t r rest hreq hstep
  rcases step_serves_cases hreq hstep with ⟨i, -, hexec⟩ | ⟨-, rfl⟩
  · exact exec_answers_once hexec
  · exact ⟨rfl, rfl, _, rfl⟩

/-- Settles O5, by the equations of `step` for a request that decodes and for no request. -/
theorem stepRunsDecodedRequest : Obligations.StepRunsDecodedRequest := by
  unfold Obligations.StepRunsDecodedRequest
  exact ⟨fun _ _ _ _ hreq hdec => step_of_decode_ok hreq hdec, fun _ hnone => step_of_no_request hnone⟩

end Sys2Proof.Machine
end

section
/-! SUPPORT. Proofs of the statements of spec/10_state.md. First the invariant: its parts as propositions,
and every writer of the state keeping it; then which fields an operation writes. -/

namespace Sys2Proof.Machine

/-! The parts of the block's invariant, as propositions. -/

section Parts
variable {s t : State}

/-- A Cache Register is coherent exactly when being valid makes it cacheable and of its codec's type. -/
theorem CacheReg.coherent_iff {c : CacheReg} : c.coherent = true ↔
    (c.valid = true → c.desc.cacheable = true ∧ c.value.fits c.desc.codec = true) := by
  cases hv : c.valid <;> simp [CacheReg.coherent, hv]

theorem CacheReg.coherent_of_invalid {c : CacheReg} (h : c.valid = false) : c.coherent = true := by
  simp [CacheReg.coherent, h]

theorem State.handleOk_iff : s.handleOk = true ↔ (s.handle.initialised = true →
    ∃ p, productOf s.params s.handle.productId = some p ∧
      s.handle.channelCount = p.channelCount ∧ s.handle.isHighRes = p.isHighRes) := by
  cases hi : s.handle.initialised <;> cases hp : productOf s.params s.handle.productId <;>
    simp [State.handleOk, hi, hp]

theorem State.inv_iff : s.inv = true ↔
    s.legal = true ∧ (∀ c ∈ s.cache, c.coherent = true) ∧ s.handleOk = true := by
  simp [State.inv, and_assoc]

/-- The legality of the parameters rests on the descriptor table and the other parameters only. -/
theorem State.legal_congr (htable : t.table = s.table) (hparams : t.params = s.params) :
    t.legal = s.legal := by simp only [State.legal, htable, hparams]

/-- Whether the handle fits its product rests on the handle and the parameters only. -/
theorem State.handleOk_congr (hhandle : t.handle = s.handle) (hparams : t.params = s.params) :
    t.handleOk = s.handleOk := by simp only [State.handleOk, hhandle, hparams]

end Parts

/-! Each writer of the state keeps the invariant. -/

section Writers
variable {s : State}

theorem State.log_inv (e : BusEvent) (h : s.inv = true) : (s.log e).inv = true := h

theorem State.reply_inv (x : Response) (h : s.inv = true) : (s.reply x).inv = true := h

theorem State.accept_inv (r : Request) (rest : List Request) (h : s.inv = true) :
    (s.accept r rest).inv = true := h

theorem State.draw_inv (h : s.inv = true) : s.draw.2.inv = true := by
  obtain ⟨hlegal, hcache, hhandle⟩ := State.inv_iff.mp h
  refine State.inv_iff.mpr ⟨?_, by simpa using hcache, ?_⟩
  · rw [State.legal_congr s.draw_table s.draw_params, hlegal]
  · rw [State.handleOk_congr s.draw_handle s.draw_params, hhandle]

theorem State.afterEvent_inv (e : BusEvent) (h : s.inv = true) : (s.afterEvent e).inv = true :=
  State.log_inv e (State.draw_inv h)

/-- With legal parameters the row of a name is the only one of that name (rule R14). -/
theorem State.legal_row_unique (h : s.legal = true) {c : CacheReg} {d : Descriptor} (hc : c ∈ s.cache)
    (hd : d ∈ s.table) (hreg : c.desc.reg = d.reg) : c.desc = d :=
  List.inj_on_of_nodup_map (State.legal_parts h).2.2.1 (List.mem_map_of_mem hc) hd hreg

/-- A fill with a value of the codec's type keeps the invariant when the register is cacheable. -/
theorem State.fill_inv {d : Descriptor} {v : Value} (hd : d ∈ s.table) (hcacheable : d.cacheable = true)
    (hfits : v.fits d.codec = true) (h : s.inv = true) : (s.fill d.reg v).inv = true := by
  obtain ⟨hlegal, hcache, hhandle⟩ := State.inv_iff.mp h
  refine State.inv_iff.mpr ⟨?_, ?_, hhandle⟩
  · rw [State.legal_congr (s.fill_table _ _) (s.fill_params _ _), hlegal]
  · rw [State.fill_cache, List.forall_mem_map]
    intro c hc
    split
    next hreg =>
      have hrow : c.desc = d := State.legal_row_unique hlegal hc hd hreg
      exact CacheReg.coherent_iff.mpr fun _ => by simp [hrow, hcacheable, hfits]
    next => exact hcache c hc

theorem State.invalidate_inv (r : Reg) (h : s.inv = true) : (s.invalidate r).inv = true := by
  obtain ⟨hlegal, hcache, hhandle⟩ := State.inv_iff.mp h
  refine State.inv_iff.mpr ⟨?_, ?_, hhandle⟩
  · rw [State.legal_congr (s.invalidate_table r) (s.invalidate_params r), hlegal]
  · rw [State.invalidate_cache, List.forall_mem_map]
    intro c hc
    split
    next => exact CacheReg.coherent_of_invalid rfl
    next => exact hcache c hc

theorem State.invalidateAll_inv (h : s.inv = true) : s.invalidateAll.inv = true := by
  obtain ⟨hlegal, hcache, hhandle⟩ := State.inv_iff.mp h
  refine State.inv_iff.mpr ⟨?_, ?_, hhandle⟩
  · rw [State.legal_congr s.invalidateAll_table s.invalidateAll_params, hlegal]
  · rw [State.invalidateAll_cache, List.forall_mem_map]
    intro c hc
    split
    next => exact CacheReg.coherent_of_invalid rfl
    next => exact hcache c hc

/-- INIT's reset leaves no register valid and no handle, so only the parameters are asked for. -/
theorem State.uninit_inv (h : s.inv = true) : s.uninit.inv = true := by
  obtain ⟨hlegal, -, -⟩ := State.inv_iff.mp h
  refine State.inv_iff.mpr ⟨?_, ?_, rfl⟩
  · rw [State.legal_congr s.uninit_table s.uninit_params, hlegal]
  · rw [State.uninit_cache, List.forall_mem_map]
    exact fun c _ => CacheReg.coherent_of_invalid rfl

/-- The row `P_PRODUCT_TABLE` has for an identifier carries that identifier (rule R118). -/
theorem productOf_id {p : Params} {id : Byte} {q : Product} (h : productOf p id = some q) : q.id = id := by
  simpa using List.find?_some h

/-- The handle INIT latches fits the product it was made from (rule R119). -/
theorem State.latch_inv {id : Byte} {p : Product} (cal : Vector F64 8)
    (hp : productOf s.params id = some p) (h : s.inv = true) :
    ({ s with handle := Handle.ofInit p cal } : State).inv = true := by
  obtain ⟨hlegal, hcache, -⟩ := State.inv_iff.mp h
  refine State.inv_iff.mpr ⟨hlegal, hcache, State.handleOk_iff.mpr fun _ => ?_⟩
  refine ⟨p, ?_, rfl, rfl⟩
  rw [← hp, ← productOf_id hp]
  rfl

end Writers

/-- Every atomic effect of an operation keeps the invariant. -/
theorem inv_effects (i : Instr) (T : List Descriptor) :
    Effects i T fun s t => s.inv = true → t.inv = true where
  refl _ := id
  trans _ _ _ hab hbc := hbc ∘ hab
  read _ _ _ _ := State.afterEvent_inv _
  fill _ _ _ hT hd := State.fill_inv (hT ▸ hd)
  write _ _ _ _ _ _ _ _ := State.afterEvent_inv _
  invalidate _ _ r _ := State.invalidate_inv r
  invalidateAll _ _ _ := State.invalidateAll_inv
  command _ _ _ _ _ _ _ := State.afterEvent_inv _
  delay _ _ _ := State.log_inv _
  uninit _ _ _ := State.uninit_inv
  latch _ _ _ _ _ hp := State.latch_inv _ hp

/-- An operation keeps the invariant. -/
theorem exec_inv {i : Instr} {s t : State} (h : s.inv = true) (hexec : exec i s = .next t) :
    t.inv = true := by
  obtain ⟨u, x, hkept, -, rfl⟩ := exec_effects (inv_effects i s.table) rfl hexec
  exact State.reply_inv x (hkept h)

/-- Settles O49: the block waits, runs an operation on the accepted request, or answers that the word names
none, and each keeps the invariant. -/
theorem invariantKeptByEveryStep : Obligations.InvariantKeptByEveryStep := by
  unfold Obligations.InvariantKeptByEveryStep
  intro s t hinv hstep
  cases hreq : s.incoming with
  | nil =>
    rw [step_of_no_request hreq] at hstep
    cases hstep
    exact hinv
  | cons r rest =>
    have haccepted : (s.accept r rest).inv = true := State.accept_inv r rest hinv
    rcases step_serves_cases hreq hstep with ⟨i, -, hexec⟩ | ⟨-, rfl⟩
    · exact exec_inv haccepted hexec
    · exact State.reply_inv _ haccepted

/-- No atomic effect of an operation other than INIT writes the handle (rule R10). -/
theorem sameHandle_effects {i : Instr} (hi : i ≠ .init) (T : List Descriptor) :
    Effects i T fun s t => t.handle = s.handle where
  refl _ := rfl
  trans _ _ _ hab hbc := hbc.trans hab
  read s _ _ _ := s.draw_handle
  fill _ _ _ _ _ _ _ := rfl
  write _ s _ _ _ _ _ _ := s.draw_handle
  invalidate _ _ _ _ := rfl
  invalidateAll _ _ _ := rfl
  command _ s _ _ _ _ _ := s.draw_handle
  delay _ _ _ := rfl
  uninit h := absurd h hi
  latch h := absurd h hi

/-- Settles O53, from the atomic effects of an operation other than INIT. -/
theorem handleWrittenOnlyByInit : Obligations.HandleWrittenOnlyByInit := by
  unfold Obligations.HandleWrittenOnlyByInit
  intro i s t hi hexec
  obtain ⟨u, x, hsame, -, rfl⟩ := exec_effects (sameHandle_effects hi s.table) rfl hexec
  exact hsame

end Sys2Proof.Machine
end

section
/-! SUPPORT. The codec and pipeline operations and LOOKUP, on two states with the same request on the port, the
same parameters and the same descriptor table (spec/10_state.md rule R23). -/

namespace Sys2Proof.Machine

/-- Everything a codec or pipeline operation or LOOKUP may read is the same in `s` and `t`. -/
structure State.SameInputs (s t : State) : Prop where
  port : s.port = t.port
  params : s.params = t.params
  table : s.table = t.table

/-- `x` answers the same result or raises the same error in `s` and in `t`, and changes neither. -/
def Op.Agrees {α : Type} (s t : State) (x : Op α) : Prop :=
  (∃ a, x s = .ok a s ∧ x t = .ok a t) ∨ (∃ e, x s = .error e s ∧ x t = .error e t)

/-- The two states are answered the same response and are otherwise unchanged. -/
def answeredAlike (s t : State) (o o' : Out) : Prop := ∃ x, o = s.answered x ∧ o' = t.answered x

section Agrees
variable {α β : Type} {s t : State}

theorem Op.agrees_pure (a : α) : Op.Agrees s t (pure a) := .inl ⟨a, rfl, rfl⟩

theorem Op.agrees_throw (e : Err) : Op.Agrees s t (throw e : Op α) := .inr ⟨e, rfl, rfl⟩

theorem Op.agrees_bind {x : Op α} {f : α → Op β} (hx : Op.Agrees s t x) (hf : ∀ a, Op.Agrees s t (f a)) :
    Op.Agrees s t (x >>= f) := by
  rcases hx with ⟨a, hs, ht⟩ | ⟨e, hs, ht⟩
  · rcases hf a with ⟨b, hs', ht'⟩ | ⟨e, hs', ht'⟩
    · exact .inl ⟨b, by simp [hs, hs'], by simp [ht, ht']⟩
    · exact .inr ⟨e, by simp [hs, hs'], by simp [ht, ht']⟩
  · exact .inr ⟨e, by simp [hs], by simp [ht]⟩

theorem failIf_agrees (bad : Bool) (e : Err) : Op.Agrees s t (failIf bad e) := by
  cases bad
  · exact Op.agrees_pure ()
  · exact Op.agrees_throw e

theorem needWidth_agrees (w : Nat) (v : Word) : Op.Agrees s t (needWidth w v) := failIf_agrees _ _

theorem needCap_agrees (cap : Byte) (a : Word) : Op.Agrees s t (needCap cap a) :=
  Op.agrees_bind (failIf_agrees _ _) fun _ => needWidth_agrees _ _

theorem liftCodec_agrees (x : Except Err Value) : Op.Agrees s t (liftCodec x) := by
  cases x with
  | ok v => exact Op.agrees_pure v
  | error e => exact Op.agrees_throw e

theorem needLegal_agrees (h : s.SameInputs t) (ok : Bool) : Op.Agrees s t (needLegal ok) := by
  cases ok
  · exact .inr ⟨.illegalOperation t.port.word, by simp [h.port], by simp⟩
  · exact .inl ⟨(), by simp, by simp⟩

/-- A lookup by address reads the descriptor table only (rule R106). -/
theorem State.lookup_eq_find_table (s : State) (addr : Byte) :
    s.lookup addr = s.table.find? fun d => d.address = addr := by
  simp only [State.lookup, State.table, List.find?_map]
  rfl

theorem lookupAddr_agrees (h : s.SameInputs t) (addr : Byte) : Op.Agrees s t (lookupAddr addr) := by
  have hlookup : s.lookup addr = t.lookup addr := by
    rw [State.lookup_eq_find_table, State.lookup_eq_find_table, h.table]
  cases ht : t.lookup addr with
  | none => exact .inr ⟨.unknownRegister addr, by simp [hlookup, ht], by simp [ht]⟩
  | some d => exact .inl ⟨d, by simp [hlookup, ht], by simp [ht]⟩

/-- An operation that agrees is answered alike. -/
theorem serve_alike {x : Op Response} (h : Op.Agrees s t x) :
    answeredAlike s t (serve s x) (serve t x) := by
  rcases h with ⟨r, hs, ht⟩ | ⟨e, hs, ht⟩
  · exact ⟨r, serve_ok s x hs, serve_ok t x ht⟩
  · exact ⟨e.response, serve_error s x hs, serve_error t x ht⟩

/-- An operation with one check and a response that rests on nothing else is answered alike. -/
theorem checked_agrees {x : Op α} (hx : Op.Agrees s t x) (r : α → Response) :
    answeredAlike s t (serve s (x >>= fun a => pure (r a)))
      (serve t (x >>= fun a => pure (r a))) :=
  serve_alike (Op.agrees_bind hx fun a => Op.agrees_pure (r a))

end Agrees

/-! The operations, with what they share. -/

section Operations
variable {s t : State} (h : s.SameInputs t)
include h

theorem decodeInt_alike (c : Codec) : answeredAlike s t (decodeInt c s) (decodeInt c t) := by
  rw [decodeInt, decodeInt, h.port]
  exact checked_agrees (liftCodec_agrees _) _

theorem encodeInt_alike (c : Codec) (width : Nat) :
    answeredAlike s t (encodeInt c width s) (encodeInt c width t) := by
  rw [encodeInt, encodeInt, h.port]
  exact checked_agrees (needWidth_agrees _ _) _

theorem byteArray_alike (n : Byte) : answeredAlike s t (byteArray n s) (byteArray n t) := by
  rw [byteArray, byteArray, h.port]
  exact serve_alike (Op.agrees_bind (failIf_agrees _ _) fun _ =>
    Op.agrees_bind (liftCodec_agrees _) fun _ => Op.agrees_pure _)

theorem execXbits_alike (pos width : Byte) :
    answeredAlike s t (execXbits pos width s) (execXbits pos width t) := by
  rw [execXbits, execXbits, h.port]
  exact serve_alike (Op.agrees_bind (failIf_agrees _ _) fun _ =>
    Op.agrees_bind (failIf_agrees _ _) fun _ => Op.agrees_pure _)

theorem execScale_alike (mode : Byte) : answeredAlike s t (execScale mode s) (execScale mode t) := by
  rw [execScale, execScale, h.port]
  refine serve_alike (Op.agrees_bind (needLegal_agrees h _) fun _ => ?_)
  cases scaleWidth mode with
  | none => exact Op.agrees_throw _
  | some w => exact Op.agrees_bind (needWidth_agrees _ _) fun _ => Op.agrees_pure _

theorem execLookup_alike (addr : Byte) : answeredAlike s t (execLookup addr s) (execLookup addr t) :=
  checked_agrees (lookupAddr_agrees h addr) _

/-- An operation that needs no handle and is not INIT is answered alike in two states with the same inputs. -/
theorem exec_alike {i : Instr} (hi : i.needsInit = false) (hinit : i ≠ .init) :
    answeredAlike s t (exec i s) (exec i t) := by
  cases i with
  | decV | decU8 | decU16 | decU32 | decU56 | decPid => exact decodeInt_alike h _
  | encU8 | encU16 | encU32 | encU56 | encPid => exact encodeInt_alike h _ _
  | decBa n | encBa n => exact byteArray_alike h n
  | encV => exact serve_alike (Op.agrees_pure _)
  | xbits pos width => exact execXbits_alike h pos width
  | sext16 | sext32 | sext56 | cfgdec | accdec | smdec =>
    simp only [exec, execSext16, execSext32, execSext56, execCfgdec, execAccdec, execSmdec, h.port, h.params]
    exact checked_agrees (needWidth_agrees _ _) _
  | i2fS | i2fU | fscale =>
    simp only [exec, execI2fS, execI2fU, execFscale, h.port]
    exact serve_alike (Op.agrees_pure _)
  | actcnt cap | fsdec cap =>
    simp only [exec, execActcnt, execFsdec, h.port, h.params]
    exact checked_agrees (needCap_agrees _ _) _
  | scale mode => exact execScale_alike h mode
  | lookup addr => exact execLookup_alike h addr
  | init => exact absurd rfl hinit
  | _ => exact absurd hi (by simp [Instr.needsInit])

end Operations

/-- Settles O57, by the operations' common shape: checks and lookups that read only the port, the parameters
and the table, and then a response or an error. -/
theorem statelessOperations : Obligations.StatelessOperations := by
  unfold Obligations.StatelessOperations
  exact fun i s s' hi hinit hport hparams htable => exec_alike ⟨hport, hparams, htable⟩ hi hinit

end Sys2Proof.Machine
end

section
/-! SUPPORT. Power-up, the refresh commands and a failing INIT: what they leave of the handle and the flags
(spec/10_state.md rules R20, R29). -/

namespace Sys2Proof.Machine

/-! Power-up. -/

/-- No Cache Register is valid after power-up (rule R29). -/
theorem reset_cache_invalid : ∀ c ∈ State.reset.cache, c.valid = false :=
  List.forall_mem_map.mpr fun _ _ => rfl

/-- The defaults of rule R8 are legal values of the parameters. -/
theorem reset_legal : State.reset.legal = true := by decide +kernel

/-- Settles O48: the defaults are legal, and with no valid register and no handle nothing more is asked. -/
theorem invariantHoldsAtReset : Obligations.InvariantHoldsAtReset := by
  unfold Obligations.InvariantHoldsAtReset
  refine ⟨State.inv_iff.mpr ⟨reset_legal, ?_, rfl⟩, reset_cache_invalid, rfl⟩
  exact fun c hc => CacheReg.coherent_of_invalid (reset_cache_invalid c hc)

/-- The table after power-up is the default one: a fresh Cache Register holds the descriptor it is made of. -/
theorem reset_table : State.reset.table = defaultTable := by
  have hdesc : CacheReg.desc ∘ CacheReg.fresh = id := rfl
  rw [State.table, State.reset, List.map_map, hdesc, List.map_id]

/-- Settles O50, from the fields of the state after power-up. -/
theorem resetState : Obligations.ResetState := by
  unfold Obligations.ResetState
  exact ⟨rfl, rfl, reset_cache_invalid, reset_table, rfl, rfl, rfl, by decide⟩

/-! The refresh commands. -/

section Refresh
variable {s t : State}

/-- With an invariant that makes every valid register cacheable, `InvalidateAll` leaves none valid (rules
R16, R20, R114). -/
theorem State.invalidateAll_valid (hinv : s.inv = true) (r : Reg) : s.invalidateAll.valid r = false := by
  obtain ⟨-, hcache, -⟩ := State.inv_iff.mp hinv
  simp only [State.valid, State.invalidateAll_cacheReg]
  cases hc : s.cacheReg r with
  | none => rfl
  | some c =>
    have hcoherent := CacheReg.coherent_iff.mp (hcache c (State.cacheReg_some hc).2)
    cases hcacheable : c.desc.cacheable with
    | true => simp [hcacheable]
    | false =>
      cases hv : c.valid with
      | false => simp [hcacheable, hv]
      | true => exact absurd (hcoherent hv).1 (by simp [hcacheable])

/-- Everything `Refresh` can do: the flags cleared and one command write, which fails or is followed by the
delay (rule R115). -/
theorem refreshWith_cases (cmd : Descriptor) (s : State) :
    (∃ p, s.invalidateAll.draw.1 = .err p ∧ refreshWith cmd s =
      .error (.transportError p) (s.invalidateAll.afterEvent (.write cmd.address [] (some p)))) ∨
    (∃ b, s.invalidateAll.draw.1 = .ok b ∧ refreshWith cmd s =
      .ok {} ((s.invalidateAll.afterEvent (.write cmd.address [] none)).log
        (.delay Config.refreshDelay))) := by
  simp only [refreshWith, Op.bind_run, Op.modify_run, memWrite_run]
  cases s.invalidateAll.draw.1 with
  | err p => exact .inl ⟨p, rfl, rfl⟩
  | ok b => exact .inr ⟨b, rfl, rfl⟩

/-- The command write and the delay leave the Cache Register file as `InvalidateAll` left it, whether or not
the transport takes the write (rule R115). -/
theorem refresh_cache (cmd : Descriptor) (h : serve s (refreshWith cmd) = .next t) :
    t.cache = s.invalidateAll.cache := by
  rcases refreshWith_cases cmd s with ⟨p, -, hrun⟩ | ⟨b, -, hrun⟩
  · rw [serve_error s _ hrun] at h
    cases h
    exact s.invalidateAll.draw_cache
  · rw [serve_ok s _ hrun] at h
    cases h
    exact s.invalidateAll.draw_cache

/-- A refresh operation is the check of rule R155, the descriptor of its command register, and rule R115's
`Refresh`. -/
theorem exec_refresh {i : Instr} (hi : i ∈ [.refresh, .refreshG, .refreshV]) (s : State) :
    ∃ r, exec i s = whenInit s (withDesc s r (· == .void) fun d => serve s (refreshWith d)) := by
  simp only [List.mem_cons, List.not_mem_nil, or_false] at hi
  rcases hi with rfl | rfl | rfl
  exacts [⟨_, rfl⟩, ⟨_, rfl⟩, ⟨_, rfl⟩]

end Refresh

/-- Settles O60: the flags are cleared before the command is written, and nothing after that sets one. -/
theorem refreshLeavesNothingValid : Obligations.RefreshLeavesNothingValid := by
  unfold Obligations.RefreshLeavesNothingValid
  intro i s t hi hinv hinit hexec r
  obtain ⟨cmd, hcmd⟩ := exec_refresh hi s
  rw [hcmd, whenInit_pass hinit] at hexec
  rcases withDesc_cases hexec with hfault | ⟨c, -, -, hserve⟩
  · cases hfault
  · have hcache : t.cacheReg r = s.invalidateAll.cacheReg r := by
      rw [State.cacheReg, refresh_cache c.desc hserve.symm, ← State.cacheReg]
    rw [State.valid, hcache, ← State.valid]
    exact State.invalidateAll_valid hinv r

/-! INIT that fails. -/

section Init
variable {s : State}

/-- INIT's reset draws nothing: the transport's next answer is the same (rule R119). -/
theorem State.uninit_draw (s : State) : s.uninit.draw = (s.draw.1, s.draw.2.uninit) := by
  simp only [State.draw, State.uninit_answers, State.uninit_drawn]
  cases s.answers <;> rfl

/-- INIT's second reset also clears what the read between the two filled, as if the first had not been (rule
R29, assumption log 10). -/
theorem State.uninit_fill_uninit (s : State) (e : BusEvent) (r : Reg) (v : Value) :
    ((s.uninit.log e).fill r v).uninit = ((s.log e).fill r v).uninit := by
  simp only [State.uninit, State.clearValid, State.fill, State.log, List.map_map]
  congr 1
  refine List.map_congr_left fun c _ => ?_
  simp only [Function.comp]
  split <;> rfl

theorem State.uninit_log_uninit (s : State) (e : BusEvent) : (s.uninit.log e).uninit = (s.log e).uninit := by
  simp only [State.uninit, State.clearValid, State.log, List.map_map]
  rfl

/-- The body of INIT is the reset, one Cache Register read and the product's row (rule R119). -/
theorem initWith_run (pid : Descriptor) : initWith pid s = match cacheRead pid s.uninit with
    | .error e t => .error e t
    | .ok v t => match productOf t.params (v.ival.setWidth 8) with
      | none => .error (.unknownProductId (v.ival.setWidth 8)) t.uninit
      | some p => .ok { ival := (v.ival.setWidth 8 : Byte).setWidth 64 }
          { t with handle := Handle.ofInit p t.port.cal } := by
  simp only [initWith, Op.bind_run, Op.modify_run, Op.get_run]
  cases cacheRead pid s.uninit with
  | error e t => rfl
  | ok v t => cases hp : productOf t.params (v.ival.setWidth 8) <;> simp [hp]

/-- The product-ID register of a legal table holds one byte (rules R52, R54). -/
theorem State.legal_productId {c : CacheReg} (hlegal : s.legal = true) (hc : s.cacheReg .productId = some c) :
    c.desc.codec = .pid ∧ c.desc.wireLength = 1 := by
  obtain ⟨c', hc', hcodec⟩ := State.legal_named hlegal (r := .productId) (k := .pid) (by simp [namedRegs])
  obtain rfl : c = c' := Option.some.inj (hc.symm.trans hc')
  have hrow : c.desc.legal = true :=
    (State.legal_parts hlegal).1 _ (List.mem_map_of_mem (State.cacheReg_some hc).2)
  refine ⟨hcodec, ?_⟩
  simp only [Descriptor.legal, hcodec, Codec.wireLength, Bool.and_eq_true, beq_iff_eq] at hrow
  exact hrow.1

/-- INIT's read is a miss, since the flags were just cleared: it takes the transport's next answer. -/
theorem initWith_transportError {pid : Descriptor} {p : Payload} {u : State} (hdraw : s.draw = (.err p, u)) :
    initWith pid s =
      .error (.transportError p) (u.uninit.log (.read pid.address pid.wireLength (.err p))) := by
  simp [initWith_run, cacheRead_miss s.uninit State.uninit_hit, State.uninit_draw, hdraw]

theorem initWith_codecError {pid : Descriptor} {bytes : List Byte} {u : State} {e : Err}
    (hdraw : s.draw = (.ok bytes, u)) (hdecode : decodeWire pid.codec bytes = .error e) :
    initWith pid s = .error e (u.uninit.log (.read pid.address pid.wireLength (.ok bytes))) := by
  simp [initWith_run, cacheRead_miss s.uninit State.uninit_hit, State.uninit_draw, hdraw, hdecode]

/-- An unknown byte: the flags are cleared after the read, which fills a product-ID register that is cacheable
(rule R29, assumption log 10). -/
theorem initWith_unknownProductId {pid : Descriptor} {bytes : List Byte} {u : State} {v : Value}
    (hdraw : s.draw = (.ok bytes, u)) (hdecode : decodeWire pid.codec bytes = .ok v)
    (hunknown : productOf s.params (v.ival.setWidth 8) = none) :
    initWith pid s = .error (.unknownProductId (v.ival.setWidth 8))
      (let t := u.log (.read pid.address pid.wireLength (.ok bytes))
       if pid.cacheable then t.fill pid.reg v else t).uninit := by
  have hparams : u.params = s.params := by simpa [hdraw] using s.draw_params
  cases hc : pid.cacheable <;>
    simp [initWith_run, cacheRead_miss s.uninit State.uninit_hit, State.uninit_draw, hdraw, hdecode, hc,
      hparams, hunknown, State.uninit_fill_uninit, State.uninit_log_uninit]

/-- The byte of a product-ID answer, as the register's value and back (rule R74). -/
theorem fromBytes_single (b : Byte) : fromBytes [b] = b.setWidth 64 := by
  simp [fromBytes]

end Init

/-- Settles O33: the read is a miss and each way it fails INIT is one case; the second reset clears the fill of
an unknown byte. -/
theorem initFailures : Obligations.InitFailures := by
  unfold Obligations.InitFailures
  intro s c u hlegal hc failed
  obtain ⟨hcodec, hlength⟩ := State.legal_productId hlegal hc
  have hinit : exec .init s = serve s (initWith c.desc) := by
    rw [exec, execInit, withDesc_pass hc (by simp [hcodec])]
  have hhandle {a : Answer} (hdraw : s.draw = (a, u)) : u.handle = s.handle := by
    simpa [hdraw] using s.draw_handle
  refine ⟨fun p hdraw => ?_, fun bytes hdraw hbytes => ?_, fun b hdraw hunknown => ?_⟩
  · rw [hinit, serve_error s _ (initWith_transportError hdraw), hlength]
    simp only [failed, ← hhandle hdraw]
    rfl
  · have hdecode : decodeWire c.desc.codec bytes = .error (.lengthMismatch 5 1 bytes.length) := by
      rw [hcodec]
      exact decodeWire_length (c := .pid) hbytes
    rw [hinit, serve_error s _ (initWith_codecError hdraw hdecode), hlength]
    simp only [failed, ← hhandle hdraw]
    rfl
  · have hdecode : decodeWire c.desc.codec [b] = .ok { ival := b.setWidth 64 } := by
      rw [hcodec, decodeWire_int rfl rfl, fromBytes_single]
    have hbyte : (b.setWidth 64).setWidth 8 = b := by simp
    have hproduct : productOf s.params b = none := by simpa [productOf] using hunknown
    have hrun := initWith_unknownProductId hdraw hdecode (by rwa [hbyte])
    rw [hbyte, hlength, (State.cacheReg_some hc).1] at hrun
    rw [hinit, serve_error s _ hrun]
    simp only [failed, ← hhandle hdraw]
    cases c.desc.cacheable <;> rfl

end Sys2Proof.Machine
end

section
/-! SUPPORT. Telemetry on a block that serves a channel: which descriptors an operation is handed, what a chain
of Cache Register reads keeps, and the codes and raw numbers the statements write in plain arithmetic. -/

namespace Sys2Proof.Machine

/-! The 2-bit codes of a configuration value (rules R25, R26). -/

/-- The field at a position is the code there (rules R25, R26, R84). -/
theorem field2_eq_codeAt (v : Word) (position : Nat) :
    field2 v position = BitVec.ofNat 2 (codeAt v position) := by
  apply BitVec.eq_of_toNat_eq
  simp only [field2, extractBits, mask, codeAt, BitVec.toNat_setWidth, BitVec.toNat_and,
    BitVec.toNat_ushiftRight, BitVec.toNat_ofNat, Nat.shiftRight_eq_div_pow]
  rw [show (2 ^ 2 - 1) % 2 ^ 64 = 2 ^ 2 - 1 from rfl, Nat.and_two_pow_sub_one_eq_mod]

theorem codeAt_lt (v : Word) (position : Nat) : codeAt v position < 4 := Nat.mod_lt _ (by decide)

/-- The model's decode of a code is rule R85's table. -/
theorem cfgDecode_eq_flagsOf (p : Params) {code : Nat} (h : code < 4) :
    cfgDecode p.code3Fsr (BitVec.ofNat 2 code) = flagsOf p code := by
  interval_cases code <;> simp [cfgDecode, flagsOf]

theorem cfgDecode_voltage (p : Params) (c : Fin 4) (cfg : Value) :
    cfgDecode p.code3Fsr (field2 cfg.ival (vPos c)) = voltageFlags p c cfg := by
  rw [field2_eq_codeAt, cfgDecode_eq_flagsOf p (codeAt_lt _ _)]
  rfl

theorem cfgDecode_current (p : Params) (c : Fin 4) (cfg : Value) :
    cfgDecode p.code3Fsr (field2 cfg.ival (iPos c)) = currentFlags p c cfg := by
  rw [field2_eq_codeAt, cfgDecode_eq_flagsOf p (codeAt_lt _ _)]
  rfl

/-! Cache Register reads one after another (rule R127). -/

/-- `t` is what a chain of Cache Register reads may leave of `s`: the same handle, parameters and rows. -/
structure State.AfterReads (s t : State) : Prop where
  handle : t.handle = s.handle
  params : t.params = s.params
  rows : ∀ r, (t.cacheReg r).map (·.desc) = (s.cacheReg r).map (·.desc)

section Reads
variable {s t u : State} {r : Reg} {v v' : Value} {k : CacheReg}

theorem State.AfterReads.refl (s : State) : s.AfterReads s := ⟨rfl, rfl, fun _ => rfl⟩

theorem State.AfterReads.after_read (h : s.AfterReads t) (hr : t.reads r v u) : s.AfterReads u := by
  obtain ⟨c, -, hread⟩ := hr
  obtain ⟨hhandle, hparams, -, -, -, hrows⟩ := cacheRead_keeps hread
  exact ⟨hhandle.trans h.handle, hparams.trans h.params, fun r => (hrows r).trans (h.rows r)⟩

/-- A later read of a register runs with the descriptor the register had at first. -/
theorem State.AfterReads.run (h : s.AfterReads t) (hk : s.cacheReg r = some k) (hr : t.reads r v u) :
    cacheRead k.desc t = .ok v u := by
  obtain ⟨c, hc, hread⟩ := hr
  have hrow : c.desc = k.desc := by simpa [hk, hc] using h.rows r
  rwa [hrow] at hread

/-- `ReadCfg` answers the channel's flags in the value read (rule R122). -/
theorem State.AfterReads.readCfg_run (h : s.AfterReads t) (hk : s.cacheReg .negPwrFsrLat = some k)
    (hr : t.reads .negPwrFsrLat v u) (c : Fin 4) :
    readCfg k.desc c t = .ok (voltageFlags s.params c v, currentFlags s.params c v) u := by
  rw [Machine.readCfg_run, h.run hk hr]
  simp only [(h.after_read hr).params, cfgDecode_voltage, cfgDecode_current]

/-- The accumulator mode is the channel's code in the value read (rules R26, R133). -/
theorem State.AfterReads.readAccMode_run (h : s.AfterReads t) (hk : s.cacheReg r = some k)
    (hr : t.reads r v u) (c : Fin 4) :
    readAccMode k.desc c t = .ok (BitVec.ofNat 2 (codeAt v.ival (6 - 2 * c.val))) u := by
  simp only [readAccMode, Op.bind_run, h.run hk hr, Op.pure_run, field2_eq_codeAt, vPos]

/-- A cacheable register that was read is read again with no transaction (rules R16, R108). -/
theorem cacheRead_again {d : Descriptor} (hrow : (s.cacheReg d.reg).isSome) (hcacheable : d.cacheable = true)
    (h : cacheRead d s = .ok v t) : cacheRead d t = .ok v t := by
  apply cacheRead_hit
  rcases cacheRead_cases d s with ⟨v', hhit, he⟩ | ⟨-, ⟨p, -, he⟩ | ⟨b, -, ⟨e, -, he⟩ | ⟨v', -, he⟩⟩⟩ <;>
    rw [he] at h <;> cases h
  · exact hhit
  · rw [if_pos hcacheable]
    exact State.fill_hit_same (by simpa using hrow)

end Reads

/-! The checks before the reads, on a block that serves the channel (rules R106, R121). -/

section Checks
variable {s : State} {b : Byte} {c : Fin 4}

theorem checkCh_serves (h : s.serves b c) (k : Fin 4 → Out) : checkCh b s k = k c := by
  obtain ⟨-, hinit, hc, hlt⟩ := h
  exact checkCh_pass c hinit hc hlt

/-- A register that a rule names and that holds an integer is handed on (rules R53, R54). -/
theorem withInt_named {r : Reg} {codec : Codec} (hlegal : s.legal = true) (hr : (r, codec) ∈ namedRegs)
    (hint : codec.isInt = true) :
    ∃ k, s.cacheReg r = some k ∧ ∀ op, withInt s r op = op k.desc := by
  obtain ⟨k, hk, hcodec⟩ := State.legal_named hlegal hr
  exact ⟨k, hk, fun op => withDesc_pass hk (by rw [hcodec, hint])⟩

/-- `NEG_PWR_FSR_LAT` is handed on. -/
theorem withInt_negPwrFsrLat (hlegal : s.legal = true) :
    ∃ k, s.cacheReg .negPwrFsrLat = some k ∧ ∀ op, withInt s .negPwrFsrLat op = op k.desc :=
  withInt_named (codec := .u16) hlegal (by simp [namedRegs]) rfl

/-- The register `P_ACCMODE_REG` names is handed on (rule R26, decision D19). -/
theorem withInt_accMode (hlegal : s.legal = true) :
    ∃ k, s.cacheReg (accModeReg s.params) = some k ∧
      ∀ op, withInt s (accModeReg s.params) op = op k.desc := by
  obtain ⟨k, hk, hint⟩ := State.legal_accMode hlegal
  exact ⟨k, hk, fun op => withDesc_pass hk hint⟩

/-- An operation that reads the configuration only runs with that register's descriptor. -/
theorem cfgOp_serves (h : s.serves b c) :
    ∃ k, s.cacheReg .negPwrFsrLat = some k ∧ ∀ op, cfgOp b s op = serve s (op c k.desc) := by
  obtain ⟨k, hk, hcfg⟩ := withInt_negPwrFsrLat h.1
  exact ⟨k, hk, fun op => by rw [cfgOp, checkCh_serves h, hcfg]⟩

end Checks

/-! GET.VCFG and GET.ICFG. -/

section Configuration
variable {s t u : State} {b : Byte} {c : Fin 4} {cfg again : Value}

/-- The two flags as the two low bits of a word (rules R131, R132). -/
def flagsWord (f : CfgFlags) : Word := BitVec.ofNat 64 ((if f.fsr then 2 else 0) + (if f.bipolar then 1 else 0))

theorem flagBits_eq_flagsWord (f : CfgFlags) :
    (BitVec.ofBool f.fsr ++ BitVec.ofBool f.bipolar).setWidth 64 = flagsWord f := by
  obtain ⟨bipolar, fsr⟩ := f
  cases bipolar <;> cases fsr <;> rfl

/-- The second read of the configuration, and the response of GET.VCFG and GET.ICFG. -/
theorem cfgResult_run {d : Descriptor} (h : cacheRead d t = .ok again u) (f : CfgFlags) (pos : Nat) :
    cfgResult d f pos t =
      .ok { ival := flagsWord f, tag := BitVec.ofNat 2 (codeAt again.ival pos) } u := by
  simp only [cfgResult, Op.bind_run, h, Op.pure_run, flagBits_eq_flagsWord, field2_eq_codeAt]

/-- GET.VCFG and GET.ICFG, which differ in the flags they pick and in the position of the code. -/
theorem cfgOp_reads (pick : CfgFlags × CfgFlags → CfgFlags) (pos : Fin 4 → Nat) (h : s.serves b c)
    (hcfg : s.reads .negPwrFsrLat cfg t) (hagain : t.reads .negPwrFsrLat again u) :
    cfgOp b s (fun c d => readCfg d c >>= fun f => cfgResult d (pick f) (pos c)) = u.answered
      { ival := flagsWord (pick (voltageFlags s.params c cfg, currentFlags s.params c cfg))
        tag := BitVec.ofNat 2 (codeAt again.ival (pos c)) } := by
  obtain ⟨k, hk, hop⟩ := cfgOp_serves h
  have hfirst := (State.AfterReads.refl s).readCfg_run hk hcfg c
  have hsecond := ((State.AfterReads.refl s).after_read hcfg).run hk hagain
  rw [hop]
  exact serve_ok _ _ (by simp only [Op.bind_run, hfirst, cfgResult_run hsecond])

/-- Two reads of a cacheable register, one after the other, answer one value and leave one state. -/
theorem State.reads_twice {r : Reg} {k : CacheReg} (hk : s.cacheReg r = some k)
    (hcacheable : k.desc.cacheable = true) (hcfg : s.reads r cfg t) (hagain : t.reads r again u) :
    u = t ∧ again = cfg := by
  have hfirst := (State.AfterReads.refl s).run hk hcfg
  have hsecond := ((State.AfterReads.refl s).after_read hcfg).run hk hagain
  have hrow : (s.cacheReg k.desc.reg).isSome := by rw [(State.cacheReg_some hk).1, hk]; rfl
  rw [cacheRead_again hrow hcacheable hfirst] at hsecond
  cases hsecond
  exact ⟨rfl, rfl⟩

end Configuration

/-- Settles O37: one read for the flags, one for the tag, and the second is free where the register is
cacheable. -/
theorem configurationReadings : Obligations.ConfigurationReadings := by
  unfold Obligations.ConfigurationReadings
  intro s t u b c cfg cfg2 h hcfg hagain
  exact ⟨cfgOp_reads Prod.fst vPos h hcfg hagain, cfgOp_reads Prod.snd iPos h hcfg hagain,
    fun k hk hcacheable => State.reads_twice hk hcacheable hcfg hagain⟩

/-! GET.VACC. -/

section Accumulator

/-- With bit 47 set the accumulator rule keeps the low 48 bits and sets the others (rule R91). -/
theorem or_high16_eq_append (v : Word) :
    v ||| 0xFFFF000000000000#64 = (0xFFFF#16 ++ v.extractLsb' 0 48 : Word) := by
  apply BitVec.eq_of_getLsbD_eq
  intro i hi
  rw [BitVec.getLsbD_append, BitVec.getLsbD_or, BitVec.getLsbD_extractLsb']
  interval_cases i <;> simp

/-- The accumulator sign rule in plain arithmetic (rules R91, R93). -/
theorem interp_w56 (dir : Bool) (raw : Word) : interp .w56 dir raw =
    if dir ∧ raw.getLsbD 47 then ((raw.toNat % 2 ^ 47 : Nat) : Int) - 2 ^ 47
    else if dir then raw.toInt else raw.toNat := by
  cases dir with
  | false => simp [interp]
  | true =>
    cases h : raw.getLsbD 47 with
    | false => simp only [interp, sext47, h, if_true, Bool.false_eq_true, and_false, if_false]
    | true =>
      have hbit : raw.toNat / 2 ^ 47 % 2 = 1 := by
        rw [BitVec.getLsbD, Nat.testBit_eq_decide_div_mod_eq] at h
        simpa using h
      have happend : (raw ||| 0xFFFF000000000000#64).toNat = 0xFFFF * 2 ^ 48 + raw.toNat % 2 ^ 48 := by
        rw [or_high16_eq_append, BitVec.toNat_append, ← Nat.shiftLeft_add_eq_or_of_lt (BitVec.isLt _)]
        simp [Nat.shiftLeft_eq]
      simp only [interp, sext47, h, if_true, and_self]
      rw [BitVec.toInt_eq_toNat_cond]
      simp only [BitVec.ofNat_eq_ofNat, happend]
      omega

variable {s t u w : State} {b : Byte} {c : Fin 4} {acc cfg raw : Value}

/-- `VAccValue`: the configuration, then the accumulator, then the arithmetic (rule R141). -/
theorem State.AfterReads.vaccValue_run {kcfg kraw : CacheReg} (h : s.AfterReads t)
    (hkcfg : s.cacheReg .negPwrFsrLat = some kcfg) (hkraw : s.cacheReg (.vacc c) = some kraw)
    (hcfg : t.reads .negPwrFsrLat cfg u) (hraw : u.reads (.vacc c) raw w) (mode : BitVec 2) :
    vaccValue c mode kcfg.desc kraw.desc t =
      .ok (accScaled s.params s.handle c mode (voltageFlags s.params c cfg) (currentFlags s.params c cfg)
        raw.ival, (accDecode mode (voltageFlags s.params c cfg).bipolar
          (currentFlags s.params c cfg).bipolar).tag) w := by
  have hlast := (h.after_read hcfg).after_read hraw
  simp only [vaccValue, Op.bind_run, h.readCfg_run hkcfg hcfg, (h.after_read hcfg).run hkraw hraw, Op.get_run,
    Op.pure_run, hlast.params, hlast.handle]

theorem execGetVacc_reads (h : s.serves b c) (hacc : s.reads (accModeReg s.params) acc t)
    (hcfg : t.reads .negPwrFsrLat cfg u) (hraw : u.reads (.vacc c) raw w) :
    let mode := BitVec.ofNat 2 (codeAt acc.ival (6 - 2 * c.val))
    let v := voltageFlags s.params c cfg
    let i := currentFlags s.params c cfg
    execGetVacc b s = w.answered
      { fval := accScaled s.params s.handle c mode v i raw.ival
        tag := (accDecode mode v.bipolar i.bipolar).tag } := by
  obtain ⟨kacc, hkacc, hopacc⟩ := withInt_accMode h.1
  obtain ⟨kcfg, hkcfg, hopcfg⟩ := withInt_negPwrFsrLat h.1
  obtain ⟨kraw, hkraw, hopraw⟩ := withInt_named h.1 (namedRegs_channel c).1 rfl
  have hmode := (State.AfterReads.refl s).readAccMode_run hkacc hacc c
  have hvalue := ((State.AfterReads.refl s).after_read hacc).vaccValue_run hkcfg hkraw hcfg hraw
  rw [execGetVacc, checkCh_serves h, hopacc, hopcfg, hopraw]
  exact serve_ok _ _ (by simp only [Op.bind_run, hmode, hvalue, Op.pure_run])

end Accumulator

/-- The voltage ratio of a derived result is applied under the scope ALL only (rule R126). -/
theorem ratio_vderived (p : Params) (h : Handle) (c : Fin 4) (x : F64) :
    ratio p h .vderived c x = if p.vratioScope = .all then F64.mul x h.voltageRatio[c] else x := by
  cases hscope : p.vratioScope <;> simp [ratio, hscope]

/-- The arithmetic of `VAccValue`, one case for each accumulator mode (rule R141). -/
theorem accScaled_mode (p : Params) (h : Handle) (c : Fin 4) {mode : Nat} (hmode : mode < 4) (v i : CfgFlags)
    (raw : Word) : accScaled p h c (BitVec.ofNat 2 mode) v i raw =
      if mode = 0 then
        ratio p h .vderived c (scaleRaw .w56 (v.bipolar || i.bipolar) raw (powerLsb h c v i))
      else if mode = 1 then scaleRaw .w56 i.bipolar raw (vsenseLsb i)
      else if mode = 2 then ratio p h .vderived c (scaleRaw .w56 v.bipolar raw (vbusLsb h v))
      else scaleRaw .w56 false raw F64.zero := by
  interval_cases mode <;> simp [accScaled, accDecode, accLsb]

/-- The tag of an accumulator mode is the mode (rule R87). -/
theorem accDecode_tag (mode : BitVec 2) (vbip ibip : Bool) : (accDecode mode vbip ibip).tag = mode := by
  revert mode vbip ibip
  decide

/-- Settles O42: three reads, and then one case for each accumulator mode. -/
theorem accumulatorReading : Obligations.AccumulatorReading := by
  unfold Obligations.AccumulatorReading
  intro s t u w b c acc cfg raw h hacc hcfg hraw
  have hanswer := execGetVacc_reads h hacc hcfg hraw
  simp only [accScaled_mode _ _ _ (codeAt_lt _ _), accDecode_tag, ratio_vderived, scaleRaw, interp_w56]
    at hanswer
  exact hanswer

end Sys2Proof.Machine
end

section
/-! SUPPORT. Proofs of the statements of spec/20_memory.md. First what a step keeps, from the atomic effects of
its operation; then the events a step records; then that no check of a legal block stops it. -/

namespace Sys2Proof.Machine

/-- Settles O23, by the two equations of the draw. -/
theorem transportDraw : Obligations.TransportDraw := by
  unfold Obligations.TransportDraw
  exact fun s => ⟨fun _ _ hlisted => s.draw_cons hlisted, fun hempty => s.draw_nil hempty⟩

/-! What a step keeps. -/

/-- A relation that every atomic effect satisfies, and that accepting a request and answering it satisfy,
holds across a step (rules R43, R170). That it is reflexive and transitive is part of `Effects` for any
operation; INIT stands for one where the step runs none. -/
theorem step_effects {R : State → State → Prop} {s t : State} (E : ∀ i, Effects i s.table R)
    (haccept : ∀ r rest, R s (s.accept r rest)) (hreply : ∀ u x, R u (u.reply x))
    (hstep : step s = .next t) : R s t := by
  cases hreq : s.incoming with
  | nil =>
    rw [step_of_no_request hreq] at hstep
    cases hstep
    exact (E .init).refl s
  | cons r rest =>
    rcases step_serves_cases hreq hstep with ⟨i, -, hexec⟩ | ⟨-, rfl⟩
    · obtain ⟨u, x, hrun, -, rfl⟩ := exec_effects (E i) (s.accept_table r rest) hexec
      exact (E i).trans _ _ _ (haccept r rest) ((E i).trans _ _ _ hrun (hreply u x))
    · exact (E .init).trans _ _ _ (haccept r rest) (hreply _ _)

/-- The descriptor table and the other parameters are the same in `s` and `t` (rules R8, R48). -/
structure State.SameParams (s t : State) : Prop where
  table : t.table = s.table
  params : t.params = s.params

/-- No atomic effect of an operation writes a descriptor or a parameter. -/
theorem sameParams_effects (i : Instr) (T : List Descriptor) : Effects i T State.SameParams where
  refl _ := ⟨rfl, rfl⟩
  trans _ _ _ hab hbc := ⟨hbc.table.trans hab.table, hbc.params.trans hab.params⟩
  read s _ _ _ := ⟨s.draw_table, s.draw_params⟩
  fill s _ _ _ _ _ _ := ⟨s.fill_table _ _, rfl⟩
  write _ s _ _ _ _ _ _ := ⟨s.draw_table, s.draw_params⟩
  invalidate _ s _ _ := ⟨s.invalidate_table _, rfl⟩
  invalidateAll _ s _ := ⟨s.invalidateAll_table, rfl⟩
  command _ s _ _ _ _ _ := ⟨s.draw_table, s.draw_params⟩
  delay _ _ _ := ⟨rfl, rfl⟩
  uninit _ s _ := ⟨s.uninit_table, rfl⟩
  latch _ _ _ _ _ _ := ⟨rfl, rfl⟩

/-- Settles O54, from the atomic effects of a step. -/
theorem descriptorTableNeverMutated : Obligations.DescriptorTableNeverMutated := by
  unfold Obligations.DescriptorTableNeverMutated
  intro s t hstep
  have same : s.SameParams t := step_effects (fun i => sameParams_effects i s.table)
    (fun _ _ => ⟨rfl, rfl⟩) (fun _ _ => ⟨rfl, rfl⟩) hstep
  exact ⟨same.table, same.params⟩

/-! The events a step records (rule R31). -/

section Events
variable {T : List Descriptor} {s t u : State} {d : Descriptor}

/-- The bus record of `t` is that of `s` with events on top that all stay in the table `T`. -/
def State.RecordsIn (T : List Descriptor) (s t : State) : Prop :=
  ∃ l, t.trace = l ++ s.trace ∧ ∀ e ∈ l, e.inTable T

theorem State.RecordsIn.of_trace_eq (h : t.trace = s.trace) : State.RecordsIn T s t := ⟨[], h, by simp⟩

theorem State.RecordsIn.of_event {e : BusEvent} (h : t.trace = e :: s.trace) (he : e.inTable T) :
    State.RecordsIn T s t := ⟨[e], h, by simpa using he⟩

theorem State.RecordsIn.trans (hst : State.RecordsIn T s t) (htu : State.RecordsIn T t u) :
    State.RecordsIn T s u := by
  obtain ⟨l, hl, hlT⟩ := hst
  obtain ⟨m, hm, hmT⟩ := htu
  refine ⟨m ++ l, by rw [hm, hl, List.append_assoc], fun e he => ?_⟩
  exact (List.mem_append.mp he).elim (hmT e) (hlT e)

theorem State.afterEvent_trace (s : State) (e : BusEvent) : (s.afterEvent e).trace = e :: s.trace := by simp

/-- A legal row's wire length is its codec's (rule R52). -/
theorem Descriptor.legal_wireLength (h : d.legal = true) : d.wireLength = d.codec.wireLength := by
  simp only [Descriptor.legal, Bool.and_eq_true, beq_iff_eq] at h
  exact h.1

/-- Every event an operation records stays in the table, when the rows' wire lengths are their codecs': a write
carries an encoded value, and a command writes no byte to a register without a value. -/
theorem recordsIn_effects (hrows : ∀ d ∈ T, d.legal = true) (i : Instr) :
    Effects i T (State.RecordsIn T) where
  refl _ := .of_trace_eq rfl
  trans _ _ _ hab hbc := hab.trans hbc
  read s d _ hd := .of_event (s.afterEvent_trace _) ⟨d, hd, rfl, rfl⟩
  fill _ _ _ _ _ _ _ := .of_trace_eq rfl
  write _ s d _ _ _ hd hfits := .of_event (s.afterEvent_trace _)
    ⟨d, hd, rfl, (Descriptor.legal_wireLength (hrows d hd)).trans (encodeWire_length hfits).symm⟩
  invalidate _ _ _ _ := .of_trace_eq rfl
  invalidateAll _ _ _ := .of_trace_eq rfl
  command _ s d _ _ hd hvoid := .of_event (s.afterEvent_trace _)
    ⟨d, hd, rfl, by rw [Descriptor.legal_wireLength (hrows d hd), hvoid]; rfl⟩
  delay _ _ _ := .of_event rfl trivial
  uninit _ _ _ := .of_trace_eq rfl
  latch _ _ _ _ _ _ := .of_trace_eq rfl

/-- The operations at a register address look it up before anything else but the check for a handle, and an
address no row has is answered `UnknownRegister` (rules R106, R153). -/
theorem serve_unknownRegister {addr : Byte} (hinit : s.handle.initialised = true)
    (hnone : s.lookup addr = none) (f : Descriptor → Op Response) :
    serve s (needInit >>= fun _ => lookupAddr addr >>= f) = s.answeredError 5 (addr.setWidth 64) := by
  have hraise : (needInit >>= fun _ => lookupAddr addr >>= f) s = .error (.unknownRegister addr) s := by
    simp [hinit, hnone]
  exact serve_error s _ hraise

end Events

/-- Settles O55: the events from the atomic effects of a step on a table of legal rows, the unknown address from
the lookup that the four operations begin with. -/
theorem transactionsStayInTable : Obligations.TransactionsStayInTable := by
  unfold Obligations.TransactionsStayInTable
  refine ⟨fun s t hlegal hstep => ?_, fun s addr i hi hinit habsent => ?_⟩
  · exact step_effects (recordsIn_effects (State.legal_parts hlegal).1)
      (fun _ _ => .of_trace_eq rfl) (fun _ _ => .of_trace_eq rfl) hstep
  · have hunknown := serve_unknownRegister hinit (State.lookup_none habsent)
    simp only [List.mem_cons, List.not_mem_nil, or_false] at hi
    rcases hi with rfl | rfl | rfl | rfl <;> exact hunknown _

/-! A legal block answers: an operation faults only where a register that a rule names has no row. -/

section Answers
variable {s : State}

/-- The block goes on from here: neither a fault nor a refusal (rule R159). -/
def goesOn (o : Out) : Prop := ∃ t, o = .next t

theorem serve_goesOn (op : Op Response) : goesOn (serve s op) := ⟨_, rfl⟩

theorem whenInit_goesOn {k : Out} (hk : goesOn k) : goesOn (whenInit s k) := by
  rcases whenInit_cases (s := s) (k := k) rfl with ⟨-, he⟩ | ⟨-, he⟩ <;> rw [he]
  · exact ⟨_, rfl⟩
  · exact hk

theorem checkCh_goesOn {ch : Byte} {k : Fin 4 → Out} (hk : ∀ c, goesOn (k c)) : goesOn (checkCh ch s k) := by
  rcases checkCh_cases (s := s) (ch := ch) (k := k) rfl with ⟨-, he⟩ | ⟨-, -, he⟩ | ⟨-, c, -, -, he⟩ <;> rw [he]
  · exact ⟨_, rfl⟩
  · exact ⟨_, rfl⟩
  · exact hk c

/-- A register that a rule names with the codec `codec` is found (rules R53, R54, R106). -/
theorem withDesc_goesOn (hlegal : s.legal = true) {r : Reg} {codec : Codec} (hr : (r, codec) ∈ namedRegs)
    {ok : Codec → Bool} (hok : ok codec = true) {k : Descriptor → Out} (hk : ∀ d, goesOn (k d)) :
    goesOn (withDesc s r ok k) := by
  obtain ⟨c, hc, rfl⟩ := State.legal_named hlegal hr
  rw [withDesc_pass hc hok]
  exact hk c.desc

theorem withNegPwrFsrLat_goesOn (hlegal : s.legal = true) {k : Descriptor → Out} (hk : ∀ d, goesOn (k d)) :
    goesOn (withInt s .negPwrFsrLat k) :=
  withDesc_goesOn hlegal (codec := .u16) (by simp [namedRegs]) rfl hk

theorem withCtrlLat_goesOn (hlegal : s.legal = true) {k : Descriptor → Out} (hk : ∀ d, goesOn (k d)) :
    goesOn (withInt s .ctrlLat k) :=
  withDesc_goesOn hlegal (codec := .u16) (by simp [namedRegs]) rfl hk

theorem withAccMode_goesOn (hlegal : s.legal = true) {k : Descriptor → Out} (hk : ∀ d, goesOn (k d)) :
    goesOn (withInt s (accModeReg s.params) k) := by
  obtain ⟨c, -, hfound⟩ := withInt_accMode hlegal
  rw [hfound]
  exact hk c.desc

theorem withVacc_goesOn (hlegal : s.legal = true) (c : Fin 4) {k : Descriptor → Out} (hk : ∀ d, goesOn (k d)) :
    goesOn (withInt s (.vacc c) k) :=
  withDesc_goesOn hlegal (namedRegs_channel c).1 rfl hk

theorem cfgOp_goesOn (hlegal : s.legal = true) (ch : Byte) (op : Fin 4 → Descriptor → Op Response) :
    goesOn (cfgOp ch s op) :=
  checkCh_goesOn fun _ => withNegPwrFsrLat_goesOn hlegal fun _ => serve_goesOn _

theorem measureOp_goesOn (hlegal : s.legal = true) (ch : Byte) {reg : Fin 4 → Reg} {codec : Codec}
    (hreg : ∀ c, (reg c, codec) ∈ namedRegs) (hint : codec.isInt = true)
    (op : Fin 4 → Descriptor → Descriptor → Op Response) : goesOn (measureOp ch s reg op) :=
  checkCh_goesOn fun c => withNegPwrFsrLat_goesOn hlegal fun _ =>
    withDesc_goesOn hlegal (hreg c) hint fun _ => serve_goesOn _

/-- The shape of the three refresh operations: the command register `r` is found (rules R54, R115 to R117). -/
theorem refresh_goesOn (hlegal : s.legal = true) {r : Reg} (hr : (r, .void) ∈ namedRegs) :
    goesOn (whenInit s <| withDesc s r (· == .void) fun d => serve s (refreshWith d)) :=
  whenInit_goesOn <| withDesc_goesOn hlegal hr rfl fun _ => serve_goesOn _

theorem execInit_goesOn (hlegal : s.legal = true) : goesOn (execInit s) :=
  withDesc_goesOn hlegal (codec := .pid) (by simp [namedRegs]) rfl fun _ => serve_goesOn _

theorem execGetAccmode_goesOn (hlegal : s.legal = true) (ch : Byte) : goesOn (execGetAccmode ch s) :=
  checkCh_goesOn fun _ => withAccMode_goesOn hlegal fun _ => serve_goesOn _

theorem execGetVacc_goesOn (hlegal : s.legal = true) (ch : Byte) : goesOn (execGetVacc ch s) :=
  checkCh_goesOn fun c => withAccMode_goesOn hlegal fun _ => withNegPwrFsrLat_goesOn hlegal fun _ =>
    withVacc_goesOn hlegal c fun _ => serve_goesOn _

theorem execGetEnergy_goesOn (hlegal : s.legal = true) (ch : Byte) : goesOn (execGetEnergy ch s) :=
  checkCh_goesOn fun c => withAccMode_goesOn hlegal fun _ => withCtrlLat_goesOn hlegal fun _ =>
    withNegPwrFsrLat_goesOn hlegal fun _ => withVacc_goesOn hlegal c fun _ => serve_goesOn _

theorem execGetFs_goesOn (hlegal : s.legal = true) : goesOn (execGetFs s) :=
  whenInit_goesOn <| withCtrlLat_goesOn hlegal fun _ => serve_goesOn _

/-- Every operation goes on: a codec, pipeline or cache operation answers, since a register it takes by address
may be missing, and each register that the others take by name has its row. -/
theorem exec_goesOn (hlegal : s.legal = true) (i : Instr) : goesOn (exec i s) := by
  cases i with
  | decV | decU8 | decU16 | decU32 | decU56 | decPid | decBa _ => exact ⟨_, rfl⟩
  | encV | encU8 | encU16 | encU32 | encU56 | encPid | encBa _ => exact ⟨_, rfl⟩
  | xbits _ _ | sext16 | sext32 | sext56 | i2fS | i2fU | fscale | scale _ => exact ⟨_, rfl⟩
  | cfgdec | accdec | smdec | actcnt _ | fsdec _ => exact ⟨_, rfl⟩
  | lookup _ | cread _ | cwrite _ | cinv _ | cvalid _ | cinvall => exact ⟨_, rfl⟩
  | refresh => exact refresh_goesOn hlegal (by simp [namedRegs])
  | refreshG => exact refresh_goesOn hlegal (by simp [namedRegs])
  | refreshV => exact refresh_goesOn hlegal (by simp [namedRegs])
  | init => exact execInit_goesOn hlegal
  | lsbVbus ch | lsbVsense ch | lsbPower ch | getVcfg ch | getIcfg ch =>
    rw [exec]
    exact cfgOp_goesOn hlegal ch _
  | getVbus ch | getVbusavg ch | getVsense ch | getVsenseavg ch | getCurrent ch | getCurrentavg ch =>
    exact measureOp_goesOn hlegal ch (codec := .u16) (by simp [namedRegs_channel]) rfl _
  | getPower ch =>
    rw [exec]
    exact measureOp_goesOn hlegal ch (codec := .u32) (by simp [namedRegs_channel]) rfl _
  | getVacc ch => exact execGetVacc_goesOn hlegal ch
  | getEnergy ch => exact execGetEnergy_goesOn hlegal ch
  | getFs => exact execGetFs_goesOn hlegal
  | getAccmode ch => exact execGetAccmode_goesOn hlegal ch

end Answers

/-- Settles O51: the block waits, answers that the word names no operation, or runs an operation on the accepted
request, whose parameters are the same legal ones. -/
theorem legalBlockAlwaysAnswers : Obligations.LegalBlockAlwaysAnswers := by
  unfold Obligations.LegalBlockAlwaysAnswers
  intro s hlegal
  cases hreq : s.incoming with
  | nil => exact ⟨s, step_of_no_request hreq⟩
  | cons r rest =>
    cases hdec : decode r.word with
    | error e => exact ⟨_, step_of_decode_error hreq hdec⟩
    | ok i =>
      have haccepted : (s.accept r rest).legal = true := hlegal
      obtain ⟨t, ht⟩ := exec_goesOn haccepted i
      exact ⟨t, (step_of_decode_ok hreq hdec).trans ht⟩

end Sys2Proof.Machine
end

section
/-! SUPPORT. Proofs of the statements of spec/30_encoding.md. First the five layouts of rule R59's table: what a
row of each reads, answers and masks; then which layout each operation's row has; then the statements. -/

namespace Sys2Proof.Machine

section Layouts
variable (o c a g : Byte) (f : Byte → Instr)

/-! A row reads a word of its own layout (rules R58, R59). -/

theorem rowNone_pack (i : Instr) : rowNone (packWord o 0 0 0) i = .ok i := by simp [rowNone]
theorem rowArg_pack : rowArg (packWord o 0 0 g) f = .ok (f g) := by simp [rowArg]
theorem rowAddr_pack : rowAddr (packWord o 0 a 0) f = .ok (f a) := by simp [rowAddr]
theorem rowAddrArg_pack (f : Byte → Byte → Instr) : rowAddrArg (packWord o 0 a g) f = .ok (f a g) := by
  simp [rowAddrArg]
theorem rowCh_pack : rowCh (packWord o c 0 0) f = .ok (f c) := by simp [rowCh]

/-! The mask of a layout keeps the operation code of such a word and nothing else. -/

theorem pack_and_maskNone : packWord o 0 0 0 &&& 0xFFFFFFFF = packWord o 0 0 0 :=
  BitVec.and_allOnes
theorem pack_and_maskArg : packWord o 0 0 g &&& 0xFFFFFF00 = packWord o 0 0 0 := by
  rw [show (0xFFFFFF00 : ReqWord) = packWord (.allOnes 8) 0xFF 0xFF 0 from rfl, Laws.pack_and,
    BitVec.and_allOnes]
  simp
theorem pack_and_maskAddr : packWord o 0 a 0 &&& 0xFFFF00FF = packWord o 0 0 0 := by
  rw [show (0xFFFF00FF : ReqWord) = packWord (.allOnes 8) 0xFF 0 0xFF from rfl, Laws.pack_and,
    BitVec.and_allOnes]
  simp
theorem pack_and_maskAddrArg : packWord o 0 a g &&& 0xFFFF0000 = packWord o 0 0 0 := by
  rw [show (0xFFFF0000 : ReqWord) = packWord (.allOnes 8) 0xFF 0 0 from rfl, Laws.pack_and,
    BitVec.and_allOnes]
  simp
theorem pack_and_maskCh : packWord o c 0 0 &&& 0xFF00FFFF = packWord o 0 0 0 := by
  rw [show (0xFF00FFFF : ReqWord) = packWord (.allOnes 8) 0 0xFF 0xFF from rfl, Laws.pack_and,
    BitVec.and_allOnes]
  simp
/-- The row of `SCALE` also fixes `ARG[7:3]` (rule R99). -/
theorem pack_and_maskScale (h : g >>> 3 = 0#8) : packWord o 0 0 g &&& 0xFFFFFFF8 = packWord o 0 0 0 := by
  have clear : ∀ b : Byte, b >>> 3 = 0#8 → b &&& 0xF8 = 0 := by decide +kernel
  rw [show (0xFFFFFFF8 : ReqWord) = packWord (.allOnes 8) 0xFF 0xFF 0xF8 from rfl, Laws.pack_and,
    BitVec.and_allOnes, clear g h]
  simp

end Layouts

/-- What the row `row` of rule R59's table answers to the word `w`: that a must-be-zero field is not zero, or
an operation of that row whose encoding is `w`. -/
def RowAnswers (row : TableRow) (w : ReqWord) (x : Except DecodeError Instr) : Prop :=
  x = .error .nonzeroField ∨ ∃ i, x = .ok i ∧ encode i = w ∧ i.tableRow = row

section Rows
variable {w : ReqWord} {row : TableRow} {f : Byte → Instr}

/-- The five layouts differ only in the fields they check and those they read. -/
theorem rowAnswers_ite {zero : Prop} [Decidable zero] {i : Instr} (hrow : i.tableRow = row)
    (henc : zero →
      encode i = packWord (ReqWord.opc w) (ReqWord.ch w) (ReqWord.addr w) (ReqWord.arg w)) :
    RowAnswers row w (if zero then .ok i else .error .nonzeroField) := by
  split
  case isTrue hzero => exact .inr ⟨i, rfl, (henc hzero).trans (packWord_fields w), hrow⟩
  case isFalse => exact .inl rfl

theorem rowNone_answers {i : Instr} (hrow : i.tableRow = row)
    (henc : encode i = packWord (ReqWord.opc w) 0 0 0) : RowAnswers row w (rowNone w i) :=
  rowAnswers_ite hrow fun ⟨hch, haddr, harg⟩ => by rw [henc, hch, haddr, harg]

theorem rowArg_answers (hrow : ∀ n, (f n).tableRow = row)
    (henc : ∀ n, encode (f n) = packWord (ReqWord.opc w) 0 0 n) : RowAnswers row w (rowArg w f) :=
  rowAnswers_ite (hrow _) fun ⟨hch, haddr⟩ => by rw [henc, hch, haddr]

theorem rowAddr_answers (hrow : ∀ n, (f n).tableRow = row)
    (henc : ∀ n, encode (f n) = packWord (ReqWord.opc w) 0 n 0) : RowAnswers row w (rowAddr w f) :=
  rowAnswers_ite (hrow _) fun ⟨hch, harg⟩ => by rw [henc, hch, harg]

theorem rowAddrArg_answers {f : Byte → Byte → Instr} (hrow : ∀ m n, (f m n).tableRow = row)
    (henc : ∀ m n, encode (f m n) = packWord (ReqWord.opc w) 0 m n) :
    RowAnswers row w (rowAddrArg w f) :=
  rowAnswers_ite (hrow _ _) fun hch => by rw [henc, hch]

theorem rowCh_answers (hrow : ∀ n, (f n).tableRow = row)
    (henc : ∀ n, encode (f n) = packWord (ReqWord.opc w) n 0 0) : RowAnswers row w (rowCh w f) :=
  rowAnswers_ite (hrow _) fun ⟨haddr, harg⟩ => by rw [henc, haddr, harg]

end Rows

/-- The row of an operation, in one of the layouts of rule R59's table: how the encoder writes its words, how
the decoder reads a word with its code `o`, and its pattern and mask in spec/opcode_table.json. `SCALE` is an
`ARG` row that fixes `ARG[7:3]` too. -/
inductive HasLayout : Instr → Prop
  | none (o : Byte) {i : Instr} (henc : encode i = packWord o 0 0 0)
      (hdec : ∀ w, ReqWord.opc w = o → decode w = rowNone w i)
      (hrow : i.tableRow = ⟨packWord o 0 0 0, 0xFFFFFFFF⟩) : HasLayout i
  | arg (o : Byte) {f : Byte → Instr} (n : Byte) (henc : ∀ n, encode (f n) = packWord o 0 0 n)
      (hdec : ∀ w, ReqWord.opc w = o → decode w = rowArg w f)
      (hrow : ∀ n, (f n).tableRow = ⟨packWord o 0 0 0, 0xFFFFFF00⟩) : HasLayout (f n)
  | scale (mode : Byte) (hdec : ∀ w, ReqWord.opc w = 0x1C → decode w = rowArg w .scale) :
      HasLayout (.scale mode)
  | addr (o : Byte) {f : Byte → Instr} (a : Byte) (henc : ∀ a, encode (f a) = packWord o 0 a 0)
      (hdec : ∀ w, ReqWord.opc w = o → decode w = rowAddr w f)
      (hrow : ∀ a, (f a).tableRow = ⟨packWord o 0 0 0, 0xFFFF00FF⟩) : HasLayout (f a)
  | addrArg (o : Byte) {f : Byte → Byte → Instr} (a n : Byte)
      (henc : ∀ a n, encode (f a n) = packWord o 0 a n)
      (hdec : ∀ w, ReqWord.opc w = o → decode w = rowAddrArg w f)
      (hrow : ∀ a n, (f a n).tableRow = ⟨packWord o 0 0 0, 0xFFFF0000⟩) : HasLayout (f a n)
  | ch (o : Byte) {f : Byte → Instr} (c : Byte) (henc : ∀ c, encode (f c) = packWord o c 0 0)
      (hdec : ∀ w, ReqWord.opc w = o → decode w = rowCh w f)
      (hrow : ∀ c, (f c).tableRow = ⟨packWord o 0 0 0, 0xFF00FFFF⟩) : HasLayout (f c)

/-- The layout of every operation's row. -/
theorem hasLayout (i : Instr) : HasLayout i := by
  cases i with
  | decV | decU8 | decU16 | decU32 | decU56 | decPid | encV | encU8 | encU16 | encU32 | encU56 | encPid
  | sext16 | sext32 | sext56 | i2fS | i2fU | fscale | cfgdec | accdec | smdec
  | cinvall | refresh | refreshG | refreshV | init | getFs =>
    exact .none _ rfl (fun _ hopc => by rw [decode, hopc]; rfl) rfl
  | decBa n | encBa n | actcnt n | fsdec n =>
    exact .arg _ n (fun _ => rfl) (fun _ hopc => by rw [decode, hopc]; rfl) fun _ => rfl
  | scale mode => exact .scale mode fun _ hopc => by rw [decode, hopc]; rfl
  | xbits pos width =>
    exact .addrArg _ pos width (fun _ _ => rfl) (fun _ hopc => by rw [decode, hopc]; rfl) fun _ _ => rfl
  | lookup a | cread a | cwrite a | cinv a | cvalid a =>
    exact .addr _ a (fun _ => rfl) (fun _ hopc => by rw [decode, hopc]; rfl) fun _ => rfl
  | getVbus c | getVbusavg c | getVsense c | getVsenseavg c | getCurrent c | getCurrentavg c
  | getPower c | getVacc c | getEnergy c | lsbVbus c | lsbVsense c | lsbPower c | getVcfg c | getIcfg c
  | getAccmode c =>
    exact .ch _ c (fun _ => rfl) (fun _ hopc => by rw [decode, hopc]; rfl) fun _ => rfl

/-- Settles O1: in each layout the decoder reaches the operation's row by the code of the word, and the row
reads the word. -/
theorem decodeInvertsEncode : Obligations.DecodeInvertsEncode := by
  unfold Obligations.DecodeInvertsEncode
  intro i
  cases hasLayout i with
  | none o henc hdec => rw [henc, hdec _ (ReqWord.opc_pack ..), rowNone_pack]
  | arg o n henc hdec => rw [henc, hdec _ (ReqWord.opc_pack ..), rowArg_pack]
  | scale mode hdec => rw [encode, hdec _ (ReqWord.opc_pack ..), rowArg_pack]
  | addr o a henc hdec => rw [henc, hdec _ (ReqWord.opc_pack ..), rowAddr_pack]
  | addrArg o a n henc hdec => rw [henc, hdec _ (ReqWord.opc_pack ..), rowAddrArg_pack]
  | ch o c henc hdec => rw [henc, hdec _ (ReqWord.opc_pack ..), rowCh_pack]

/-- A word with an operation's code is answered by that operation's row (rules R58, R61). -/
theorem decode_rowAnswers (i : Instr) {w : ReqWord}
    (hopc : ReqWord.opc w = ReqWord.opc i.tableRow.pattern) : RowAnswers i.tableRow w (decode w) := by
  cases hasLayout i with
  | none o henc hdec hrow =>
    rw [hrow, ReqWord.opc_pack] at hopc
    rw [hdec w hopc]
    exact rowNone_answers rfl (hopc ▸ henc)
  | arg o n henc hdec hrow =>
    rw [hrow, ReqWord.opc_pack] at hopc
    rw [hdec w hopc, hrow]
    exact rowArg_answers hrow (hopc ▸ henc)
  | scale mode hdec =>
    have hscale : ReqWord.opc w = 0x1C := hopc.trans (ReqWord.opc_pack 0x1C 0 0 0)
    rw [hdec w hscale]
    exact rowArg_answers (fun _ => rfl) fun _ => hscale ▸ rfl
  | addr o a henc hdec hrow =>
    rw [hrow, ReqWord.opc_pack] at hopc
    rw [hdec w hopc, hrow]
    exact rowAddr_answers hrow (hopc ▸ henc)
  | addrArg o a n henc hdec hrow =>
    rw [hrow, ReqWord.opc_pack] at hopc
    rw [hdec w hopc, hrow]
    exact rowAddrArg_answers hrow (hopc ▸ henc)
  | ch o c henc hdec hrow =>
    rw [hrow, ReqWord.opc_pack] at hopc
    rw [hdec w hopc, hrow]
    exact rowCh_answers hrow (hopc ▸ henc)

/-- Under the mask of its row an encoding is the row's pattern, but for `SCALE` with a bit of `ARG[7:3]`,
which decodes and which the operation itself refuses (rule R99). -/
theorem encode_and_mask (i : Instr) :
    encode i &&& i.tableRow.mask = i.tableRow.pattern ∨ ∃ mode, i = .scale mode ∧ mode >>> 3 ≠ 0#8 := by
  cases hasLayout i with
  | none o henc _ hrow => exact .inl (by rw [henc, hrow]; exact pack_and_maskNone o)
  | arg o n henc _ hrow => exact .inl (by rw [henc, hrow]; exact pack_and_maskArg o n)
  | scale mode =>
    by_cases hzero : mode >>> 3 = 0#8
    · exact .inl (pack_and_maskScale 0x1C mode hzero)
    · exact .inr ⟨mode, rfl, hzero⟩
  | addr o a henc _ hrow => exact .inl (by rw [henc, hrow]; exact pack_and_maskAddr o a)
  | addrArg o a n henc _ hrow => exact .inl (by rw [henc, hrow]; exact pack_and_maskAddrArg o a n)
  | ch o c henc _ hrow => exact .inl (by rw [henc, hrow]; exact pack_and_maskCh o c)

/-! The reserved operation codes (rule R60): a code is reserved or some operation's, and never both. -/

/-- None of the codes the decoder lists is reserved. -/
theorem decode_reserved {w : ReqWord} (h : reservedOpc (ReqWord.opc w).toNat) :
    decode w = .error .reservedOpcode := by
  unfold reservedOpc at h
  unfold decode
  split
  case h_54 => rfl
  all_goals omega

/-- Every code is settled by the word that has it and zeros elsewhere. -/
theorem opc_reserved_or_row (o : Byte) :
    reservedOpc o.toNat ∨ ∃ i : Instr, o = ReqWord.opc i.tableRow.pattern := by
  have codes : ∀ o : Byte, reservedOpc o.toNat ∨
      (decode (packWord o 0 0 0)).toOption.any (fun i => o == ReqWord.opc i.tableRow.pattern) = true := by
    unfold reservedOpc
    decide +kernel
  refine (codes o).imp_right fun hany => ?_
  obtain ⟨i, -, hi⟩ := Option.any_eq_true _ _ |>.mp hany
  exact ⟨i, eq_of_beq hi⟩

/-- What the decoder answers to any word. -/
theorem decode_cases (w : ReqWord) :
    (reservedOpc (ReqWord.opc w).toNat ∧ decode w = .error .reservedOpcode) ∨
    ∃ row, RowAnswers row w (decode w) := by
  rcases opc_reserved_or_row (ReqWord.opc w) with hres | ⟨i, hi⟩
  · exact .inl ⟨hres, decode_reserved hres⟩
  · exact .inr ⟨_, decode_rowAnswers i hi⟩

/-- Settles O2: a word that decodes is answered by a row of the table. -/
theorem decodedWordIsUnique : Obligations.DecodedWordIsUnique := by
  unfold Obligations.DecodedWordIsUnique
  intro w i hdec
  rcases decode_cases w with ⟨-, hres⟩ | ⟨row, hzero | ⟨j, hj, henc, -⟩⟩
  · simp [hres] at hdec
  · simp [hzero] at hdec
  · obtain rfl : j = i := by simpa [hj] using hdec
    exact henc

/-- Settles O3: a word that is not reserved is answered by a row, and no row calls a word reserved. -/
theorem reservedOpcodeIsIllegal : Obligations.ReservedOpcodeIsIllegal := by
  unfold Obligations.ReservedOpcodeIsIllegal
  refine ⟨fun w => ⟨fun hdec => ?_, decode_reserved⟩,
    fun s r rest hreq hres => step_of_decode_error hreq (decode_reserved hres)⟩
  rcases decode_cases w with ⟨hres, -⟩ | ⟨row, hzero | ⟨j, hj, -⟩⟩
  · exact hres
  · simp [hzero] at hdec
  · simp [hj] at hdec

/-- `SCALE` with a bit of `ARG[7:3]` is refused before it reads its operands (rule R99). -/
theorem execScale_of_reserved_bits {mode : Byte} (h : mode >>> 3 ≠ 0#8) (s : State) :
    execScale mode s = .next (s.raise (.illegalOperation s.port.word)) :=
  serve_error s _ (by simp [h])

/-- Settles O4: the word's row refuses it, or reads it as an operation of the row, which only `SCALE` with a bit
of `ARG[7:3]` can be. -/
theorem nonzeroFieldIsIllegal : Obligations.NonzeroFieldIsIllegal := by
  unfold Obligations.NonzeroFieldIsIllegal
  intro i s r rest hreq hopc hfixed
  rcases decode_rowAnswers i hopc with hzero | ⟨j, hj, henc, hrow⟩
  · exact step_of_decode_error hreq hzero
  · rcases encode_and_mask j with hmask | ⟨mode, rfl, hbits⟩
    · exact absurd (henc ▸ hrow ▸ hmask) hfixed
    · rw [step_of_decode_ok hreq hj]
      exact execScale_of_reserved_bits hbits _

/-- Settles O6: a sample word is the encoding of the operation it names, or has a reserved code, or the row of
its code refuses it. -/
theorem sampleWordsDecode : Obligations.SampleWordsDecode := by
  unfold Obligations.SampleWordsDecode
  have reads := decodeInvertsEncode
  exact ⟨reads (.decBa 3), reads .encU56, reads (.xbits 14 2), reads (.scale 6), reads (.cread 7),
    reads .init, reads (.getIcfg 3), reads .getFs, decode_reserved (.inr (.inl rfl)), rfl⟩

/-- Each of the nine addresses has the row of its register in the default table (rule R53). -/
theorem pseudo_row_mem_defaultTable (p : Pseudo) :
    ∃ d ∈ defaultTable, d.address = p.address ∧ d.reg = p.reg ∧ d.codec.isInt = true := by
  cases p with
  | ctrl set copy | accumcfg set copy | negpwrfsr set copy =>
    cases copy <;> (simp only [Pseudo.address, Pseudo.reg]; decide)

/-- Settles O7: a pseudo-operation's one request has the word of a `CREAD` or a `CWRITE`, which decodes. -/
theorem pseudoOperationsExpand : Obligations.PseudoOperationsExpand := by
  unfold Obligations.PseudoOperationsExpand
  intro p v
  refine ⟨?_, fun hset => by simp [Pseudo.expand, hset], pseudo_row_mem_defaultTable p⟩
  unfold Pseudo.expand
  split <;> exact decodeInvertsEncode _

end Sys2Proof.Machine
end

section
/-! SUPPORT. Proofs of the statements of spec/40_codec.md. First the big-endian number of a byte string (rules R37,
R51), against the bytes of a number: each undoes the other. Then the codecs; then the operations the codecs
share, one lemma per outcome. Each statement follows the part it needs. -/

namespace Sys2Proof.Machine

/-! Bytes and numbers. -/

section Bytes

theorem foldl_bytes_eq (s : List Byte) (n : Nat) :
    s.foldl (fun (n : Nat) (b : Byte) => n * 256 + b.toNat) n = n * 256 ^ s.length + natOfBytes s := by
  induction s generalizing n with
  | nil => simp [natOfBytes]
  | cons b s ih =>
    have htail : natOfBytes (b :: s) = b.toNat * 256 ^ s.length + natOfBytes s := by
      simpa [natOfBytes] using ih b.toNat
    rw [List.foldl_cons, ih, htail, List.length_cons, Nat.pow_succ]
    ring

/-- The first byte is the most significant (rule R37). -/
theorem natOfBytes_cons (b : Byte) (s : List Byte) :
    natOfBytes (b :: s) = b.toNat * 256 ^ s.length + natOfBytes s := by
  simpa [natOfBytes] using foldl_bytes_eq s b.toNat

/-- The encoder's next byte (rules R77 to R80). -/
theorem toBytes_succ (n : Nat) (v : Word) : toBytes (n + 1) v = v.extractLsb' (8 * n) 8 :: toBytes n v := by
  rw [toBytes, BitVec.setWidth_ushiftRight_eq_extractLsb]

/-- A byte of a number, by division. -/
theorem extractByte_toNat (n : Nat) (v : Word) : (v.extractLsb' (8 * n) 8).toNat = v.toNat / 256 ^ n % 256 := by
  rw [BitVec.extractLsb'_toNat, Nat.shiftRight_eq_div_pow, Nat.pow_mul]

/-- The low `n` bytes of a number are the number modulo `256 ^ n`. -/
theorem natOfBytes_toBytes (n : Nat) (v : Word) : natOfBytes (toBytes n v) = v.toNat % 256 ^ n := by
  induction n with
  | zero => simp [toBytes, natOfBytes, Nat.mod_one]
  | succ n ih =>
    rw [toBytes_succ, natOfBytes_cons, toBytes_length, extractByte_toNat, ih, Nat.mod_pow_succ]
    ring

/-- Two strings of one length that are the same number are the same string. -/
theorem eq_of_natOfBytes_eq {s t : List Byte} (hlength : s.length = t.length)
    (h : natOfBytes s = natOfBytes t) : s = t := by
  induction s generalizing t with
  | nil => exact (List.length_eq_zero_iff.mp hlength.symm).symm
  | cons b s ih =>
    obtain _ | ⟨c, t⟩ := t
    · simp at hlength
    have hlen : s.length = t.length := by simpa using hlength
    rw [natOfBytes_cons, natOfBytes_cons, hlen] at h
    have hs := natOfBytes_lt s
    have ht := natOfBytes_lt t
    rw [hlen] at hs
    have hbytes : b.toNat = c.toNat ∧ natOfBytes s = natOfBytes t := by
      have hmod := congrArg (· % 256 ^ t.length) h
      simp only [Nat.mul_add_mod_self_right, Nat.mod_eq_of_lt hs, Nat.mod_eq_of_lt ht] at hmod
      exact ⟨Nat.eq_of_mul_eq_mul_right (Nat.zero_lt_of_lt ht) (by omega), hmod⟩
    rw [BitVec.eq_of_toNat_eq hbytes.1, ih hlen hbytes.2]

/-- Up to 8 bytes, the bytes of the number of a string are the string. -/
theorem toBytes_fromBytes {s : List Byte} (h : s.length ≤ 8) : toBytes s.length (fromBytes s) = s := by
  have hlt : natOfBytes s < 2 ^ 64 :=
    (natOfBytes_lt s).trans_le (Nat.pow_le_pow_right (n := 256) (by omega) h)
  refine eq_of_natOfBytes_eq (toBytes_length _ _) ?_
  rw [natOfBytes_toBytes, fromBytes_toNat, Nat.mod_eq_of_lt hlt, Nat.mod_eq_of_lt (natOfBytes_lt s)]

/-- Up to 8 bytes, the number of a number's low bytes is the number exactly when it fits in them. -/
theorem fromBytes_toBytes_iff {n : Nat} (hn : n ≤ 8) (v : Word) :
    fromBytes (toBytes n v) = v ↔ v.toNat < 256 ^ n := by
  have hpow : 256 ^ n ≤ 2 ^ 64 := Nat.pow_le_pow_right (n := 256) (by omega) hn
  have hlt : v.toNat % 256 ^ n < 256 ^ n := Nat.mod_lt _ (by positivity)
  rw [← BitVec.toNat_inj, fromBytes_toNat, natOfBytes_toBytes, Nat.mod_eq_of_lt (hlt.trans_le hpow)]
  exact ⟨fun h => h ▸ hlt, Nat.mod_eq_of_lt⟩

/-- One byte more at the end of a string (rules R37, R51). -/
theorem fromBytes_concat {s : List Byte} {w : Nat} {x : BitVec w} (h : fromBytes s = x.setWidth 64) (b : Byte) :
    fromBytes (s ++ [b]) = (x ++ b).setWidth 64 := by
  rw [BitVec.setWidth_append_eq_shiftLeft_setWidth_or, ← h, fromBytes, List.foldl_append]
  rfl

variable (b0 b1 b2 b3 b4 b5 b6 : Byte)

theorem fromBytes_two : fromBytes [b0, b1] = (b0 ++ b1).setWidth 64 :=
  fromBytes_concat (fromBytes_single b0) b1

theorem fromBytes_four : fromBytes [b0, b1, b2, b3] = (b0 ++ b1 ++ b2 ++ b3).setWidth 64 :=
  fromBytes_concat (fromBytes_concat (fromBytes_two b0 b1) b2) b3

/-- Seven bytes, below a zero byte (rule R73). -/
theorem fromBytes_seven : fromBytes [b0, b1, b2, b3, b4, b5, b6] =
    0#8 ++ b0 ++ b1 ++ b2 ++ b3 ++ b4 ++ b5 ++ b6 := by
  have hfour : fromBytes [b0, b1, b2, b3] = (0#8 ++ b0 ++ b1 ++ b2 ++ b3).setWidth 64 :=
    fromBytes_concat (fromBytes_concat (fromBytes_concat (fromBytes_concat (s := []) rfl b0) b1) b2) b3
  have hseven := fromBytes_concat (fromBytes_concat (fromBytes_concat hfour b4) b5) b6
  exact hseven.trans (BitVec.setWidth_eq _)

end Bytes

/-! The codecs (rule R83). -/

section Codecs
variable {c : Codec}

theorem Codec.wireLength_le_of_isInt (hc : c.isInt = true) : c.wireLength ≤ 8 := by
  cases c with
  | void | ba => simp [Codec.isInt] at hc
  | u8 | u16 | u32 | u56 | pid => decide

/-- The bytes of an integer codec (rules R77 to R81). -/
theorem encodeWire_int (hc : c.isInt = true) (v : Value) : encodeWire c v = toBytes c.wireLength v.ival := by
  cases c with
  | void | ba => simp [Codec.isInt] at hc
  | u8 | u16 | u32 | u56 | pid => rfl

/-- A value of an integer codec's type has no byte string, and fits the wire except in the 7-byte codec. -/
theorem Value.fits_int (hc : c.isInt = true) {v : Value} (h : v.fits c = true) :
    v.bytes = [] ∧ (c ≠ .u56 → v.ival.toNat < 256 ^ c.wireLength) := by
  cases c with
  | void | ba => simp [Codec.isInt] at hc
  | u8 | u16 | u32 | u56 | pid => simp_all [Value.fits, Codec.wireLength]

/-- Decode undoes encode, for an integer codec, exactly when the number fits its wire bytes. -/
theorem decodeWire_encodeWire_int_iff (hc : c.isInt = true) {v : Value} (hbytes : v.bytes = []) :
    decodeWire c (encodeWire c v) = .ok v ↔ v.ival.toNat < 256 ^ c.wireLength := by
  obtain ⟨ival, bytes⟩ := v
  obtain rfl : bytes = [] := hbytes
  rw [decodeWire_int hc (encodeWire_length_int _ hc), encodeWire_int hc,
    ← fromBytes_toBytes_iff (Codec.wireLength_le_of_isInt hc)]
  simp

/-- Encode undoes decode, for an integer codec. -/
theorem encodeWire_decodeWire_int (hc : c.isInt = true) {b : List Byte} (h : b.length = c.wireLength) :
    encodeWire c { ival := fromBytes b } = b := by
  rw [encodeWire_int hc, ← h, toBytes_fromBytes (h ▸ Codec.wireLength_le_of_isInt hc)]

/-- A number fits in 7 bytes exactly when its top byte is zero. -/
theorem lt_pow_seven_iff (v : Word) : v.toNat < 256 ^ 7 ↔ v.extractLsb' 56 8 = 0 := by
  rw [← BitVec.toNat_inj, extractByte_toNat 7]
  have hv := v.isLt
  change v.toNat < 256 ^ 7 ↔ v.toNat / 256 ^ 7 % 256 = 0
  omega

end Codecs

/-- Settles O11: a codec is an integer's, by the numbers of its bytes, or the void codec, with one value and one
string, or a byte array, whose value is its string. -/
theorem codecRoundTrip : Obligations.CodecRoundTrip := by
  unfold Obligations.CodecRoundTrip
  refine ⟨fun c v hne hfits => ?_, fun c b hlength => ?_, fun v hfits => ?_⟩
  · cases c with
    | void =>
      obtain rfl : v = {} := by simpa [Value.fits] using hfits
      rfl
    | ba n =>
      obtain ⟨ival, bytes⟩ := v
      obtain ⟨rfl, hlength⟩ : ival = 0 ∧ bytes.length = n := by simpa [Value.fits] using hfits
      exact decodeWire_ba hlength
    | u8 | u16 | u32 | u56 | pid =>
      obtain ⟨hbytes, hlt⟩ := Value.fits_int rfl hfits
      exact (decodeWire_encodeWire_int_iff rfl hbytes).mpr (hlt hne)
  · cases c with
    | void => exact ⟨{}, by simp [decodeWire, hlength], (List.length_eq_zero_iff.mp hlength).symm⟩
    | ba n => exact ⟨_, decodeWire_ba hlength, rfl⟩
    | u8 | u16 | u32 | u56 | pid =>
      exact ⟨_, decodeWire_int rfl hlength, encodeWire_decodeWire_int rfl hlength⟩
  · rw [decodeWire_encodeWire_int_iff rfl (Value.fits_int rfl hfits).1]
    exact lt_pow_seven_iff v.ival

/-! The operations. -/

section Operations
variable {s : State} {c : Codec}

/-- A decode operation on a string its codec takes (rule R66). -/
theorem decodeInt_ok {v : Value} (h : decodeWire c s.port.str = .ok v) :
    decodeInt c s = s.answered { ival := v.ival } :=
  serve_ok s _ (by simp [h])

/-- A decode operation of an integer codec on a string of the codec's length (rules R70 to R74). -/
theorem decodeInt_int {b : List Byte} (hs : s.port.str = b) (hc : c.isInt = true)
    (h : b.length = c.wireLength) : decodeInt c s = s.answered { ival := fromBytes b } :=
  decodeInt_ok (by rw [hs, decodeWire_int hc h])

/-- A decode operation on a string of another length than its codec's (rule R66). -/
theorem decodeInt_wrongLength (h : s.port.str.length ≠ c.wireLength) :
    decodeInt c s = s.answeredError 2 (BitVec.ofNat 64 (codecId c) ||| (BitVec.ofNat 64 c.wireLength <<< 8) |||
      (BitVec.ofNat 64 s.port.str.length <<< 16)) :=
  serve_error (e := .lengthMismatch _ _ _) (t := s) s _
    (by simp only [Op.bind_run, decodeWire_length h, liftCodec_error])

theorem ushiftRight_eq_zero_iff_lt (v : Word) (width : Nat) : v >>> width = 0 ↔ v.toNat < 2 ^ width := by
  rw [← BitVec.toNat_inj, BitVec.toNat_ushiftRight, Nat.shiftRight_eq_div_pow]
  simp [Nat.div_eq_zero_iff]

/-- An encode operation on an operand that fits its width (rules R77 to R81). -/
theorem encodeInt_inRange (hc : c.isInt = true) {width : Nat} (h : s.port.a.toNat < 2 ^ width) :
    encodeInt c width s = s.answered { bytes := toBytes c.wireLength s.port.a } :=
  serve_ok s _ (by simp [(ushiftRight_eq_zero_iff_lt _ _).mpr h, encodeWire_int hc])

/-- An encode operation on a wider operand (rule R68). -/
theorem encodeInt_outOfRange {width : Nat} (h : 2 ^ width ≤ s.port.a.toNat) :
    encodeInt c width s = s.answeredError 8 s.port.a := by
  have hbits : s.port.a >>> width ≠ 0 := fun hzero =>
    absurd ((ushiftRight_eq_zero_iff_lt _ _).mp hzero) (by omega)
  exact serve_error (e := .operandRange _) (t := s) s _ (by simp only [Op.bind_run, needWidth_run, if_neg hbits])

/-- A length the ports carry passes the byte-array operations' check (rules R75, R82). -/
theorem byteArrayCheck_run (s : State) {n : Byte} (hn : n.toNat ≤ 8) (e : Err) :
    failIf (Config.baMax < n.toNat) e s = .ok () s := by
  simp [hn]

/-- A byte-array operation on a string of length `n` (rules R75, R82). -/
theorem byteArray_ok {n : Byte} (hn : n.toNat ≤ 8) (h : s.port.str.length = n.toNat) :
    byteArray n s = s.answered { bytes := s.port.str } :=
  serve_ok s _ (by simp only [Op.bind_run, byteArrayCheck_run s hn, decodeWire_ba h, liftCodec_ok, Op.pure_run])

/-- A byte-array operation on a string of another length (rules R75, R82). -/
theorem byteArray_wrongLength {n : Byte} (hn : n.toNat ≤ 8) (h : s.port.str.length ≠ n.toNat) :
    byteArray n s = s.answeredError 2 (6 ||| (BitVec.ofNat 64 n.toNat <<< 8) |||
      (BitVec.ofNat 64 s.port.str.length <<< 16)) :=
  serve_error (e := .lengthMismatch 6 _ _) (t := s) s _
    (by simp only [Op.bind_run, byteArrayCheck_run s hn, decodeWire_length (c := .ba n.toNat) h]; rfl)

/-- A byte-array operation of a length the ports do not carry (rules R75, R82). -/
theorem byteArray_tooLong {n : Byte} (hn : 8 < n.toNat) :
    byteArray n s = s.answeredError 8 (n.setWidth 64) :=
  serve_error (e := .operandRange _) (t := s) s _ (by simp [hn])

end Operations

/-- Settles O8: a decode operation answers the number of its string, one byte after the other, or its codec's
length error. -/
theorem decodeOperations : Obligations.DecodeOperations := by
  unfold Obligations.DecodeOperations
  refine fun s => ⟨fun hs => decodeInt_ok (c := .void) (v := {}) (by rw [hs]; rfl),
    fun b0 hs => ⟨?_, ?_⟩, fun b0 b1 hs => ?_, fun b0 b1 b2 b3 hs => ?_,
    fun b0 b1 b2 b3 b4 b5 b6 hs => ?_, fun i id length hrow hlength => ?_⟩
  · exact fromBytes_single b0 ▸ decodeInt_int (c := .u8) hs rfl rfl
  · exact fromBytes_single b0 ▸ decodeInt_int (c := .pid) hs rfl rfl
  · exact fromBytes_two b0 b1 ▸ decodeInt_int (c := .u16) hs rfl rfl
  · exact fromBytes_four b0 b1 b2 b3 ▸ decodeInt_int (c := .u32) hs rfl rfl
  · exact fromBytes_seven b0 b1 b2 b3 b4 b5 b6 ▸ decodeInt_int (c := .u56) hs rfl rfl
  · obtain ⟨c, hexec, rfl, rfl⟩ : ∃ c, exec i s = decodeInt c s ∧ id = codecId c ∧ length = c.wireLength := by
      simp only [List.mem_cons, Prod.mk.injEq, List.not_mem_nil, or_false] at hrow
      rcases hrow with ⟨rfl, rfl, rfl⟩ | ⟨rfl, rfl, rfl⟩ | ⟨rfl, rfl, rfl⟩ | ⟨rfl, rfl, rfl⟩ |
        ⟨rfl, rfl, rfl⟩ | ⟨rfl, rfl, rfl⟩ <;> exact ⟨_, rfl, rfl, rfl⟩
    rw [hexec]
    exact decodeInt_wrongLength hlength

/-- Settles O9: an encode operation checks the width of `A` and answers its low bytes; 64 bits are no check. -/
theorem encodeOperations : Obligations.EncodeOperations := by
  unfold Obligations.EncodeOperations
  intro s a
  refine ⟨rfl, fun h => ⟨?_, ?_⟩, fun h => ?_, fun h => ?_, ?_, fun i width hrow h => ?_⟩
  · exact encodeInt_inRange (c := .u8) rfl h
  · exact encodeInt_inRange (c := .pid) rfl h
  · exact encodeInt_inRange (c := .u16) rfl h
  · exact encodeInt_inRange (c := .u32) rfl h
  · exact encodeInt_inRange (c := .u56) rfl a.isLt
  · obtain ⟨c, hexec⟩ : ∃ c, exec i s = encodeInt c width s := by
      simp only [List.mem_cons, Prod.mk.injEq, List.not_mem_nil, or_false] at hrow
      rcases hrow with ⟨rfl, rfl⟩ | ⟨rfl, rfl⟩ | ⟨rfl, rfl⟩ | ⟨rfl, rfl⟩ <;> exact ⟨_, rfl⟩
    rw [hexec]
    exact encodeInt_outOfRange h

/-- Settles O10: the check of `n` comes first, then the length of the string. -/
theorem byteArrayOperations : Obligations.ByteArrayOperations := by
  unfold Obligations.ByteArrayOperations
  intro s n i hi
  have hexec : exec i s = byteArray n s := by rcases hi with rfl | rfl <;> rfl
  rw [hexec]
  refine ⟨fun hn hlength => ?_, fun hn hlength => ?_, fun hn => ?_⟩
  · exact byteArray_ok hn hlength
  · exact byteArray_wrongLength hn hlength
  · exact byteArray_tooLong hn

end Sys2Proof.Machine
end

section
/-! SUPPORT. Proofs of the statements of spec/00_scope.md section 4 on binary64 arithmetic. The finite numbers are
indexed by their exponent and fraction fields read as one number: the magnitude in quanta grows with the index.
An index is the rounding of `n / d` when `n / d` lies between the midpoints on either side of it; that is what
`F64.round` computes, and what makes a number the nearest. -/

namespace Sys2Proof.Machine

/-! The magnitudes of the finite numbers, in order. -/

/-- The magnitude in quanta at an index, continued past the largest finite number as if the exponent had no end. -/
def quantaAt (m : Nat) : Nat :=
  if m / 2 ^ 52 = 0 then m % 2 ^ 52 else (2 ^ 52 + m % 2 ^ 52) * 2 ^ (m / 2 ^ 52 - 1)

/-- The first index past the finite numbers: that of infinity. -/
def infIndex : Nat := 2047 * 2 ^ 52

/-- The index of a finite number is its exponent field followed by its fraction field. -/
theorem quanta_eq_quantaAt (e : Fin 2047) (f : BitVec 52) :
    F64.quanta e f = quantaAt (e.val * 2 ^ 52 + f.toNat) := by
  have hdiv : (e.val * 2 ^ 52 + f.toNat) / 2 ^ 52 = e.val := by omega
  have hmod : (e.val * 2 ^ 52 + f.toNat) % 2 ^ 52 = f.toNat := by omega
  rw [quantaAt, hdiv, hmod, F64.quanta]

/-- The index of a significand `q` at the weight `2 ^ sh`: full where it is shifted, or just carried over. -/
theorem quantaAt_significand {sh q : Nat} (hle : q ≤ 2 ^ 53) (hfull : sh = 0 ∨ 2 ^ 52 ≤ q) :
    quantaAt (sh * 2 ^ 52 + q) = q * 2 ^ sh := by
  unfold quantaAt
  rcases Nat.lt_or_ge q (2 ^ 52) with hsub | hnormal
  · obtain rfl : sh = 0 := by omega
    rw [if_pos (by omega)]
    omega
  · rcases Nat.lt_or_ge q (2 ^ 53) with hlt | hge
    · rw [if_neg (by omega), show (sh * 2 ^ 52 + q) / 2 ^ 52 - 1 = sh by omega,
        show 2 ^ 52 + (sh * 2 ^ 52 + q) % 2 ^ 52 = q by omega]
    · obtain rfl : q = 2 ^ 53 := by omega
      rw [if_neg (by omega), show (sh * 2 ^ 52 + 2 ^ 53) / 2 ^ 52 - 1 = sh + 1 by omega,
        show 2 ^ 52 + (sh * 2 ^ 52 + 2 ^ 53) % 2 ^ 52 = 2 ^ 52 by omega]
      ring

/-- Every index is that of a significand of at most 53 bits, full where it is shifted. -/
theorem exists_significand (m : Nat) :
    ∃ sh q, m = sh * 2 ^ 52 + q ∧ q < 2 ^ 53 ∧ (sh = 0 ∨ 2 ^ 52 ≤ q) := by
  rcases Nat.lt_or_ge m (2 ^ 53) with hlt | hge
  · exact ⟨0, m, by omega, hlt, .inl rfl⟩
  · exact ⟨m / 2 ^ 52 - 1, 2 ^ 52 + m % 2 ^ 52, by omega, by omega, .inr (by omega)⟩

theorem quantaAt_strictMono : StrictMono quantaAt := by
  refine strictMono_nat_of_lt_succ fun m => ?_
  obtain ⟨sh, q, rfl, hlt, hfull⟩ := exists_significand m
  rw [Nat.add_assoc, quantaAt_significand (by omega) hfull, quantaAt_significand (by omega) (by omega)]
  exact Nat.mul_lt_mul_of_pos_right (Nat.lt_succ_self q) (Nat.two_pow_pos sh)

theorem quantaAt_mul_lt {i j d : Nat} (hd : 0 < d) (h : i < j) : quantaAt i * d < quantaAt j * d :=
  Nat.mul_lt_mul_of_pos_right (quantaAt_strictMono h) hd

theorem quantaAt_mul_le {i j : Nat} (d : Nat) (h : i ≤ j) : quantaAt i * d ≤ quantaAt j * d :=
  Nat.mul_le_mul_right d (quantaAt_strictMono.monotone h)

/-- Twice the midpoint between the largest finite number and the power of two after it. -/
theorem quantaAt_overflow : quantaAt (infIndex - 1) + quantaAt infIndex = (2 ^ 54 - 1) * 2 ^ 2045 := by
  have hmax : quantaAt (2045 * 2 ^ 52 + (2 ^ 53 - 1)) = (2 ^ 53 - 1) * 2 ^ 2045 :=
    quantaAt_significand (by omega) (by omega)
  have hinf : quantaAt (2045 * 2 ^ 52 + 2 ^ 53) = 2 ^ 53 * 2 ^ 2045 :=
    quantaAt_significand (by omega) (by omega)
  rw [show infIndex - 1 = 2045 * 2 ^ 52 + (2 ^ 53 - 1) from rfl, hmax,
    show infIndex = 2045 * 2 ^ 52 + 2 ^ 53 from rfl, hinf, ← Nat.add_mul,
    show 2 ^ 53 - 1 + 2 ^ 53 = 2 ^ 54 - 1 from rfl]

/-! Rounding to nearest, ties to even, on indices. -/

/-- `n / d` lies between the midpoints on either side of the index `k`, and on one of them only if `k` is even. -/
structure IsRounding (k n d : Nat) : Prop where
  below : ∀ j < k,
    (quantaAt j + quantaAt k) * d < 2 * n ∨ ((quantaAt j + quantaAt k) * d = 2 * n ∧ k % 2 = 0)
  above : ∀ j > k,
    2 * n < (quantaAt k + quantaAt j) * d ∨ (2 * n = (quantaAt k + quantaAt j) * d ∧ k % 2 = 0)

/-- Between two neighbouring indices the midpoint decides, and on it the even index. -/
theorem isRounding_of_bracket {m n d : Nat} {up : Prop} [Decidable up] (hd : 0 < d) (hlo : quantaAt m * d ≤ n)
    (hhi : n < quantaAt (m + 1) * d)
    (hup : up ↔ (quantaAt m + quantaAt (m + 1)) * d < 2 * n ∨
      (2 * n = (quantaAt m + quantaAt (m + 1)) * d ∧ m % 2 = 1)) :
    IsRounding (if up then m + 1 else m) n d := by
  simp only [Nat.add_mul] at hup
  by_cases h : up
  · have hmid := hup.mp h
    rw [if_pos h]
    refine ⟨fun j hj => ?_, fun j hj => ?_⟩ <;> rw [Nat.add_mul]
    · have hlow := quantaAt_mul_le d (Nat.le_of_lt_succ hj)
      omega
    · have hhigh := quantaAt_mul_lt hd hj
      omega
  · have hmid := mt hup.mpr h
    rw [if_neg h]
    refine ⟨fun j hj => ?_, fun j hj => ?_⟩ <;> rw [Nat.add_mul]
    · have hlow := quantaAt_mul_lt hd hj
      omega
    · have hhigh := quantaAt_mul_le d (show m + 1 ≤ j from hj)
      omega

section Rounding
variable {k n d : Nat} (h : IsRounding k n d)
include h

/-- The rounding is at least as near as any other index; where another is as near, the rounding is even. -/
theorem IsRounding.nearest (hd : 0 < d) (j : Nat) :
    distance (quantaAt k * d) n < distance (quantaAt j * d) n ∨
    (distance (quantaAt k * d) n = distance (quantaAt j * d) n ∧ (quantaAt k = quantaAt j ∨ k % 2 = 0)) := by
  unfold distance
  rcases Nat.lt_trichotomy j k with hlt | rfl | hgt
  · have hmid := h.below j hlt
    have hgap := quantaAt_mul_lt hd hlt
    rw [Nat.add_mul] at hmid
    omega
  · exact .inr ⟨rfl, .inl rfl⟩
  · have hmid := h.above j hgt
    have hgap := quantaAt_mul_lt hd hgt
    rw [Nat.add_mul] at hmid
    omega

/-- The rounding is an index of a finite number exactly below the midpoint above the largest one, which itself
rounds up: the largest finite number has an odd index. -/
theorem IsRounding.lt_infIndex_iff (hd : 0 < d) :
    k < infIndex ↔ 2 * n < d * ((2 ^ 54 - 1) * 2 ^ 2045) := by
  have hodd : (infIndex - 1) % 2 = 1 := by decide
  have hpos : 0 < infIndex := by decide
  rw [← quantaAt_overflow, Nat.mul_comm d]
  rcases Nat.lt_trichotomy k (infIndex - 1) with hlt | rfl | hgt
  · refine iff_of_true (by omega) ?_
    have hmid := h.above _ hlt
    have hk := quantaAt_mul_lt (i := k) (j := infIndex) hd (by omega)
    rw [Nat.add_mul] at hmid ⊢
    omega
  · have hmid := h.above infIndex (by omega)
    exact iff_of_true (by omega) (by omega)
  · refine iff_of_false (by omega) (Nat.not_lt.mpr ?_)
    have hmid := h.below _ hgt
    have hk := quantaAt_mul_le (i := infIndex) (j := k) d (by omega)
    rw [Nat.add_mul] at hmid ⊢
    omega

/-- A number with an index rounds to that index. -/
theorem IsRounding.eq_of_exact (hd : 0 < d) {j : Nat} (hexact : n = quantaAt j * d) : k = j := by
  subst hexact
  rcases Nat.lt_trichotomy j k with hlt | heq | hgt
  · have hmid := h.below j hlt
    have := quantaAt_mul_lt hd hlt
    rw [Nat.add_mul] at hmid
    omega
  · exact heq.symm
  · have hmid := h.above j hgt
    have := quantaAt_mul_lt hd hgt
    rw [Nat.add_mul] at hmid
    omega

end Rounding

/-! The binary64 number at an index. -/

/-- Below infinity's index stands the finite number of that magnitude, its last fraction bit the index's. -/
theorem ofMagnitude_finite (neg : Bool) {k : Nat} (h : k < infIndex) :
    ∃ e f, F64.ofMagnitude neg k = .finite neg e f ∧ F64.quanta e f = quantaAt k ∧
      (f.getLsbD 0 = false ↔ k % 2 = 0) := by
  have hexp : k / 2 ^ 52 < 2047 := by
    unfold infIndex at h
    omega
  refine ⟨⟨k / 2 ^ 52, hexp⟩, BitVec.ofNat 52 k, dif_pos hexp, ?_, ?_⟩
  · rw [quanta_eq_quantaAt, BitVec.toNat_ofNat, Nat.div_add_mod']
  · simp [BitVec.getLsbD_ofNat, Nat.testBit_eq_decide_div_mod_eq, -BitVec.getLsbD_eq_getElem]

/-- From infinity's index up stands infinity. -/
theorem ofMagnitude_inf (neg : Bool) {k : Nat} (h : infIndex ≤ k) : F64.ofMagnitude neg k = .inf neg := by
  unfold infIndex at h
  exact dif_neg (by omega)

/-- The number at the rounding's index is the nearest. -/
theorem IsRounding.isNearest {k n d : Nat} (h : IsRounding k n d) (hd : 0 < d) (neg : Bool) :
    isNearest (F64.ofMagnitude neg k) neg n d := by
  have hfinite := h.lt_infIndex_iff hd
  rcases Nat.lt_or_ge k infIndex with hlt | hge
  · obtain ⟨e, f, heq, hquanta, heven⟩ := ofMagnitude_finite neg hlt
    rw [heq]
    refine ⟨rfl, hfinite.mp hlt, fun e' f' => ?_⟩
    rw [hquanta, heven, quanta_eq_quantaAt e' f']
    exact h.nearest hd _
  · rw [ofMagnitude_inf neg hge]
    exact ⟨rfl, Nat.le_of_not_lt fun hlt => absurd (hfinite.mpr hlt) (Nat.not_lt.mpr hge)⟩

/-! What `F64.round` computes. -/

/-- The significand that `F64.round` keeps has at most 53 bits, and all of them where it drops some. -/
theorem significand_bounds (w : Nat) :
    w / 2 ^ (Nat.log2 w - 52) < 2 ^ 53 ∧ (Nat.log2 w - 52 = 0 ∨ 2 ^ 52 ≤ w / 2 ^ (Nat.log2 w - 52)) := by
  have hlt : w < 2 ^ (Nat.log2 w + 1) := Nat.lt_log2_self
  constructor
  · rw [Nat.div_lt_iff_lt_mul (Nat.two_pow_pos _), ← Nat.pow_add]
    exact hlt.trans_le (Nat.pow_le_pow_right (by decide) (by omega))
  · rcases Nat.lt_or_ge 52 (Nat.log2 w) with hshift | hsmall
    · right
      have hw : w ≠ 0 := fun hzero => by simp [hzero] at hshift
      rw [Nat.le_div_iff_mul_le (Nat.two_pow_pos _), ← Nat.pow_add,
        show 52 + (Nat.log2 w - 52) = Nat.log2 w by omega]
      exact Nat.log2_self_le hw
    · exact .inl (by omega)

/-- `F64.round` answers the number at the index to which `n / d` rounds. -/
theorem round_eq_ofMagnitude (neg : Bool) (n : Nat) {d : Nat} (hd : 0 < d) :
    ∃ k, F64.round neg n d = F64.ofMagnitude neg k ∧ IsRounding k n d := by
  have hbounds := significand_bounds (n / d)
  rw [Nat.div_div_eq_div_mul] at hbounds
  simp only [F64.round]
  generalize Nat.log2 (n / d) - 52 = sh at hbounds ⊢
  obtain ⟨hlt, hfull⟩ := hbounds
  have hdivmod := Nat.div_add_mod n (d * 2 ^ sh)
  have hrem := Nat.mod_lt n (Nat.mul_pos hd (Nat.two_pow_pos sh))
  generalize n / (d * 2 ^ sh) = q at hlt hfull hdivmod ⊢
  generalize n % (d * 2 ^ sh) = r at hdivmod hrem ⊢
  have hlo : quantaAt (sh * 2 ^ 52 + q) * d = d * 2 ^ sh * q := by
    rw [quantaAt_significand (by omega) hfull]
    ring
  have hhi : quantaAt (sh * 2 ^ 52 + q + 1) * d = d * 2 ^ sh * q + d * 2 ^ sh := by
    rw [Nat.add_assoc, quantaAt_significand (by omega) (by omega)]
    ring
  refine ⟨_, rfl, ?_⟩
  rw [apply_ite (sh * 2 ^ 52 + ·), ← Nat.add_assoc]
  refine isRounding_of_bracket hd (by omega) (by omega) ?_
  rw [Nat.add_mul, hlo, hhi]
  omega

/-- `F64.round` answers the number nearest `n / d`. -/
theorem round_isNearest (neg : Bool) (n : Nat) {d : Nat} (hd : 0 < d) : isNearest (F64.round neg n d) neg n d := by
  obtain ⟨k, heq, hround⟩ := round_eq_ofMagnitude neg n hd
  exact heq ▸ hround.isNearest hd neg

/-- Below the midpoint above the largest finite number `F64.round` answers a finite number. -/
theorem round_finite (neg : Bool) {n d : Nat} (hd : 0 < d) (h : 2 * n < d * ((2 ^ 54 - 1) * 2 ^ 2045)) :
    ∃ e f, F64.round neg n d = .finite neg e f := by
  obtain ⟨k, heq, hround⟩ := round_eq_ofMagnitude neg n hd
  obtain ⟨e, f, hfinite, -⟩ := ofMagnitude_finite neg ((hround.lt_infIndex_iff hd).mpr h)
  exact ⟨e, f, heq.trans hfinite⟩

/-- A magnitude that binary64 has is not rounded. -/
theorem round_exact (neg : Bool) {n j : Nat} (hj : j < infIndex) (hexact : n = quantaAt j) :
    ∃ e f, F64.round neg n 1 = .finite neg e f ∧ F64.quanta e f = n := by
  obtain ⟨k, heq, hround⟩ := round_eq_ofMagnitude neg n Nat.one_pos
  obtain rfl : k = j := hround.eq_of_exact Nat.one_pos (by omega)
  obtain ⟨e, f, hfinite, hquanta, -⟩ := ofMagnitude_finite neg hj
  exact ⟨e, f, heq.trans hfinite, hquanta.trans hexact.symm⟩

/-! Conversion from integers (rule R94). -/

theorem f64_one_pos : 0 < F64.one := by
  unfold F64.one
  positivity

theorem i2f_isNearest (n : Int) : isNearest (F64.i2f n) (decide (n < 0)) (n.natAbs * F64.one) 1 :=
  round_isNearest _ _ Nat.one_pos

/-- A whole number below `2 ^ 53` has an index: that of its significand with the leading bit moved to bit 52. -/
theorem exists_index_of_lt {n : Nat} (h : n < 2 ^ 53) : ∃ j < infIndex, n * F64.one = quantaAt j := by
  rcases Nat.eq_zero_or_pos n with rfl | hpos
  · exact ⟨0, by decide, by rw [Nat.zero_mul]; rfl⟩
  · have hle : 2 ^ Nat.log2 n ≤ n := Nat.log2_self_le hpos.ne'
    have hlt : n < 2 ^ (Nat.log2 n + 1) := Nat.lt_log2_self
    have hlog : Nat.log2 n < 53 := (Nat.pow_lt_pow_iff_right (a := 2) (by decide)).mp (hle.trans_lt h)
    generalize Nat.log2 n = l at hle hlt hlog
    have hfull : 2 ^ 52 ≤ n * 2 ^ (52 - l) := calc
      2 ^ 52 = 2 ^ l * 2 ^ (52 - l) := by rw [← Nat.pow_add, show l + (52 - l) = 52 by omega]
      _ ≤ n * 2 ^ (52 - l) := Nat.mul_le_mul_right _ hle
    have hbits : n * 2 ^ (52 - l) < 2 ^ 53 := calc
      n * 2 ^ (52 - l) < 2 ^ (l + 1) * 2 ^ (52 - l) := Nat.mul_lt_mul_of_pos_right hlt (Nat.two_pow_pos _)
      _ = 2 ^ 53 := by rw [← Nat.pow_add, show l + 1 + (52 - l) = 53 by omega]
    refine ⟨(1022 + l) * 2 ^ 52 + n * 2 ^ (52 - l), ?_, ?_⟩
    · unfold infIndex
      omega
    · rw [quantaAt_significand hbits.le (.inr hfull), F64.one, Nat.mul_assoc, ← Nat.pow_add,
        show 52 - l + (1022 + l) = 1074 by omega]

theorem i2f_exact {n : Int} (h : n.natAbs < 2 ^ 53) :
    ∃ e f, F64.i2f n = .finite (decide (n < 0)) e f ∧ F64.quanta e f = n.natAbs * F64.one := by
  obtain ⟨j, hj, hexact⟩ := exists_index_of_lt h
  exact round_exact _ hj hexact

/-- Settles O16: the conversion is a rounding, and rounds nothing where the magnitude has an index. -/
theorem integerConversionIsNearest : Obligations.IntegerConversionIsNearest := by
  unfold Obligations.IntegerConversionIsNearest
  exact fun n => ⟨i2f_isNearest n, i2f_exact⟩

/-! Multiply and divide (rules R97, R98). -/

section Arithmetic
variable (s t : Bool) (e e' : Fin 2047) (f f' : BitVec 52)

theorem mul_finite_isNearest : isNearest (F64.mul (.finite s e f) (.finite t e' f')) (s != t)
    (F64.quanta e f * F64.quanta e' f') F64.one :=
  round_isNearest _ _ f64_one_pos

/-- A finite number over a finite one: over zero an infinity or NaN, else a rounding. -/
theorem div_finite : F64.div (.finite s e f) (.finite t e' f') =
    if F64.quanta e' f' = 0 then (if F64.quanta e f = 0 then .nan else .inf (s != t))
    else F64.round (s != t) (F64.quanta e f * F64.one) (F64.quanta e' f') := rfl

theorem mul_inf_finite : F64.mul (.inf s) (.finite t e f) =
    if F64.quanta e f = 0 then .nan else .inf (s != t) := rfl

theorem mul_finite_inf : F64.mul (.finite t e f) (.inf s) =
    if F64.quanta e f = 0 then .nan else .inf (t != s) := rfl

end Arithmetic

theorem mul_nan_right (x : F64) : F64.mul x .nan = .nan := by cases x <;> rfl
theorem div_nan_right (x : F64) : F64.div x .nan = .nan := by cases x <;> rfl

/-- Settles O17: the finite cases are one rounding each, the others an equation of the definition. -/
theorem floatArithmeticIsNearest : Obligations.FloatArithmeticIsNearest := by
  unfold Obligations.FloatArithmeticIsNearest
  refine ⟨mul_finite_isNearest, fun s t e e' f f' hdiv => ?_, fun s t e e' f f' hzero => ?_,
    fun x => ⟨rfl, mul_nan_right x, rfl, div_nan_right x⟩, fun s t e f hzero => ?_, fun s t e f hne => ?_,
    fun s t => ⟨rfl, rfl⟩, fun s t e f => ⟨rfl, rfl⟩⟩
  · rw [div_finite, if_neg hdiv]
    exact round_isNearest _ _ (Nat.pos_of_ne_zero hdiv)
  · rw [div_finite, if_pos hzero]
  · rw [mul_inf_finite, mul_finite_inf, if_pos hzero, if_pos hzero]
    exact ⟨rfl, rfl⟩
  · rw [mul_inf_finite, mul_finite_inf, if_neg hne, if_neg hne]
    exact ⟨rfl, rfl⟩

end Sys2Proof.Machine
end

section
/-! SUPPORT. Proofs of the statements of spec/41_pipeline.md. First the two ways a checked operation answers; then
bits, fields and signed readings of a word in plain arithmetic; then the operations, each by its check and the
one equation it turns on; then accumulator mode 3 of GET.VACC, whose zero factor makes every product zero. -/

namespace Sys2Proof.Machine

/-! A check and what is answered after it (rules R68, R156). -/

section Checks
variable {s : State} {x : Op Unit} {v : Word} {width : Nat} {cap : Byte}

/-- An operation whose check passes goes on in the same state. -/
theorem serve_check_pass {f : Unit → Op Response} (h : x s = .ok () s) : serve s (x >>= f) = serve s (f ()) := by
  simp only [serve, Op.bind_run, h]

/-- An operation whose last check passes answers its result. -/
theorem serve_check_ok {r : Response} (h : x s = .ok () s) : serve s (do x; return r) = s.answered r :=
  serve_check_pass h

/-- An operation whose check finds an operand out of range answers that operand. -/
theorem serve_check_outOfRange {f : Unit → Op Response} (h : x s = .error (.operandRange v) s) :
    serve s (x >>= f) = s.answeredError 8 v :=
  serve_error (e := .operandRange v) s _ (by simp only [Op.bind_run, h])

theorem failIf_pass {bad : Prop} [Decidable bad] {e : Err} (h : ¬ bad) : failIf (decide bad) e s = .ok () s := by
  rw [failIf_run, decide_eq_false h, if_neg Bool.false_ne_true]

theorem failIf_fail {bad : Prop} [Decidable bad] {e : Err} (h : bad) : failIf (decide bad) e s = .error e s := by
  rw [failIf_run, decide_eq_true h, if_pos rfl]

theorem needWidth_ok (h : v.toNat < 2 ^ width) : needWidth width v s = .ok () s := by
  rw [needWidth_run, if_pos ((ushiftRight_eq_zero_iff_lt v width).mpr h)]

theorem needWidth_outOfRange (h : 2 ^ width ≤ v.toNat) : needWidth width v s = .error (.operandRange v) s := by
  rw [needWidth_run, if_neg (mt (ushiftRight_eq_zero_iff_lt v width).mp (Nat.not_lt.mpr h))]

/-- The check of `ACTCNT` and `FSDEC` on a cap of 1 to 4 is the check of `A` (rules R103, R105). -/
theorem needCap_of_cap (hlo : 1 ≤ cap.toNat) (hhi : cap.toNat ≤ 4) : needCap cap v s = needWidth 16 v s := by
  have hcap : (decide (cap.toNat < 1) || decide (4 < cap.toNat)) = false := by simp; omega
  simp only [needCap, Op.bind_run, failIf_run, hcap, Bool.false_eq_true, if_false]

theorem needCap_outOfRange (h : cap.toNat < 1 ∨ 4 < cap.toNat) :
    needCap cap v s = .error (.operandRange (cap.setWidth 64)) s := by
  have hcap : (decide (cap.toNat < 1) || decide (4 < cap.toNat)) = true := by simpa using h
  simp only [needCap, Op.bind_run, failIf_run, hcap, if_true]

end Checks

/-! Bits, fields and signed readings. -/

theorem getLsbD_eq_div_mod {n : Nat} (v : BitVec n) (i : Nat) : v.getLsbD i = (v.toNat / 2 ^ i % 2 == 1) := by
  rw [BitVec.getLsbD, Nat.testBit_eq_decide_div_mod_eq]
  rfl

/-- The two low bits of a word, by its remainder. -/
theorem setWidth_two_eq {n k : Nat} {v : BitVec n} (h : v.toNat % 4 = k) : v.setWidth 2 = BitVec.ofNat 2 k := by
  apply BitVec.eq_of_toNat_eq
  simp [← h]

/-- A bit field by division and remainder (rule R84). -/
theorem extractBits_eq_ofNat (v : Word) {width : Nat} (hw : width ≤ 64) (position : Nat) :
    extractBits v width position = BitVec.ofNat 64 (v.toNat / 2 ^ position % 2 ^ width) := by
  have hmask : 2 ^ width - 1 < 2 ^ 64 :=
    (Nat.sub_lt (Nat.two_pow_pos width) Nat.one_pos).trans_le (Nat.pow_le_pow_right (by decide) hw)
  have hfield : v.toNat / 2 ^ position % 2 ^ width < 2 ^ 64 :=
    (Nat.mod_le _ _).trans_lt ((Nat.div_le_self _ _).trans_lt v.isLt)
  apply BitVec.eq_of_toNat_eq
  rw [extractBits, mask, BitVec.toNat_and, BitVec.toNat_ushiftRight, BitVec.toNat_ofNat, BitVec.toNat_ofNat,
    Nat.shiftRight_eq_div_pow, Nat.mod_eq_of_lt hmask, Nat.mod_eq_of_lt hfield, Nat.and_two_pow_sub_one_eq_mod]

/-- The low bits of a word that has no others, read as two's complement (rules R89, R90). -/
theorem toInt_setWidth {v : Word} {width : Nat} (hpos : 0 < width) (h : v.toNat < 2 ^ width) :
    (v.setWidth width).toInt = twosComplement width v.toNat := by
  have hhalf : 2 ^ width = 2 * 2 ^ (width - 1) := (mul_pow_sub_one hpos.ne' 2).symm
  rw [BitVec.toInt_eq_toNat_cond, BitVec.toNat_setWidth, Nat.mod_eq_of_lt h, twosComplement]
  push_cast
  congr 1
  simp only [eq_iff_iff]
  omega

/-- The accumulator sign rule on a word whose bit 63 is clear (rule R91). -/
theorem interp_w56_signed {v : Word} (h : v.toNat < 2 ^ 63) : interp .w56 true v = bit47Signed v.toNat := by
  have hbit : v.getLsbD 47 = true ↔ v.toNat / 2 ^ 47 % 2 = 1 := by rw [getLsbD_eq_div_mod, beq_iff_eq]
  rw [interp_w56, bit47Signed, BitVec.toInt_eq_toNat_of_lt (by omega)]
  simp only [true_and, hbit, if_true]

/-- A raw register value as an integer (rule R93). -/
theorem interp_eq_readRaw (w : Width) (dir : Bool) {raw : Word} (h : raw.toNat < 2 ^ w.bits) :
    interp w dir raw = readRaw w.bits dir raw.toNat := by
  cases dir with
  | false => rfl
  | true =>
    cases w with
    | w16 => exact toInt_setWidth (by decide) h
    | w32 => exact toInt_setWidth (by decide) h
    | w56 => exact interp_w56_signed (h.trans (by decide))

/-! Bit fields and register codes (rules R84 to R88). -/

/-- Settles O12: the checks in their order, then the field by division and remainder. -/
theorem extractBitsOperation : Obligations.ExtractBits := by
  unfold Obligations.ExtractBits
  intro s p w
  have hpass {f : Unit → Op Response} (hp : p.toNat ≤ 63) :
      serve s (failIf (63 < p.toNat) (.operandRange (p.setWidth 64)) >>= f) = serve s (f ()) :=
    serve_check_pass (failIf_pass (Nat.not_lt.mpr hp))
  refine ⟨fun hp hw => ?_, fun hp => serve_check_outOfRange (failIf_fail hp),
    fun hp hw => (hpass hp).trans (serve_check_outOfRange (failIf_fail hw))⟩
  rw [← extractBits_eq_ofNat s.port.a hw p.toNat]
  exact (hpass hp).trans (serve_check_ok (failIf_pass (Nat.not_lt.mpr hw)))

/-- `CFGDEC` of a code (rules R85, R86). -/
theorem execCfgdec_ok {s : State} {code : Nat} (ha : s.port.a = BitVec.ofNat 64 code) (h : code < 4) :
    execCfgdec s = s.answered { ival := flagsWord (flagsOf s.params code) } := by
  have hcode : s.port.a.toNat = code := by
    rw [ha, BitVec.toNat_ofNat]
    omega
  rw [← flagBits_eq_flagsWord, ← cfgDecode_eq_flagsOf s.params h,
    ← setWidth_two_eq (v := s.port.a) (by omega)]
  exact serve_check_ok (needWidth_ok (by omega))

/-- Settles O13: the four codes of rule R85's table, and the check. -/
theorem configurationDecode : Obligations.ConfigurationDecode := by
  unfold Obligations.ConfigurationDecode
  refine fun s => ⟨fun h => execCfgdec_ok (code := 0) h (by decide),
    fun h => execCfgdec_ok (code := 1) h (by decide),
    fun h => execCfgdec_ok (code := 2) h (by decide), fun h => ?_,
    fun h => serve_check_outOfRange (needWidth_outOfRange h)⟩
  have hthree : flagsWord (flagsOf s.params 3) = if s.params.code3Fsr then 0b10 else 0b00 := by
    cases hfsr : s.params.code3Fsr <;> simp [flagsWord, flagsOf, hfsr]
  exact hthree ▸ execCfgdec_ok h (by decide)

/-- `ACCDEC`, by its mode and its two flags (rules R87, R88). -/
theorem execAccdec_ok {s : State} {mode : Nat} (h : s.port.a.toNat < 16) (hmode : s.port.a.toNat % 4 = mode) :
    execAccdec s = s.answered
      (let m := accDecode (BitVec.ofNat 2 mode) (s.port.a.toNat / 4 % 2 == 1) (s.port.a.toNat / 8 % 2 == 1)
       { tag := m.tag, ival := m.kind.id, flag := m.bidirectional }) := by
  have hvoltage : s.port.a.getLsbD 2 = (s.port.a.toNat / 4 % 2 == 1) := getLsbD_eq_div_mod s.port.a 2
  have hcurrent : s.port.a.getLsbD 3 = (s.port.a.toNat / 8 % 2 == 1) := getLsbD_eq_div_mod s.port.a 3
  rw [← setWidth_two_eq hmode, ← hvoltage, ← hcurrent]
  exact serve_check_ok (needWidth_ok h)

/-- Settles O14: one case for each accumulator mode, and the check. -/
theorem accumulatorModeDecode : Obligations.AccumulatorModeDecode := by
  unfold Obligations.AccumulatorModeDecode
  exact fun s => ⟨execAccdec_ok, execAccdec_ok, execAccdec_ok, execAccdec_ok,
    fun h => serve_check_outOfRange (needWidth_outOfRange h)⟩

/-! Signed readings and conversion (rules R89 to R97). -/

/-- Settles O15: each pattern is that of the signed reading, and each check is of the operation's width. -/
theorem signExtension : Obligations.SignExtension := by
  unfold Obligations.SignExtension
  intro s a
  have hwide {width : Nat} {f : Unit → Op Response} (h : 2 ^ width ≤ a) :
      serve s (needWidth width s.port.a >>= f) = s.answeredError 8 s.port.a :=
    serve_check_outOfRange (needWidth_outOfRange h)
  refine ⟨fun h => ?_, fun h => ?_, fun h => ?_, hwide, hwide, hwide⟩
  · rw [← toInt_setWidth (by decide) h]
    exact serve_check_ok (needWidth_ok h)
  · rw [← toInt_setWidth (by decide) h]
    exact serve_check_ok (needWidth_ok h)
  · rw [← interp_w56_signed (h.trans (by decide)), interp, if_pos rfl, BitVec.ofInt_toInt]
    exact serve_check_ok (needWidth_ok h)

/-- The exponent field of 64 bits. -/
theorem exponent_toNat (b : Word) : (b.extractLsb' 52 11).toNat = b.toNat / 2 ^ 52 % 2 ^ 11 := by
  rw [BitVec.extractLsb'_toNat, Nat.shiftRight_eq_div_pow]

/-- The fraction field of 64 bits. -/
theorem fraction_eq (b : Word) : b.extractLsb' 0 52 = BitVec.ofNat 52 (b.toNat % 2 ^ 52) := by
  apply BitVec.eq_of_toNat_eq
  simp

/-- The value of 64 bits by their three fields. -/
theorem ofBits_eq (b : Word) : F64.ofBits b =
    if h : b.toNat / 2 ^ 52 % 2 ^ 11 < 2047 then
      .finite (b.getLsbD 63) ⟨b.toNat / 2 ^ 52 % 2 ^ 11, h⟩ (BitVec.ofNat 52 (b.toNat % 2 ^ 52))
    else if b.toNat % 2 ^ 52 = 0 then .inf (b.getLsbD 63) else .nan := by
  have hzero : BitVec.ofNat 52 (b.toNat % 2 ^ 52) = 0 ↔ b.toNat % 2 ^ 52 = 0 := by
    rw [← BitVec.toNat_inj, BitVec.toNat_ofNat, Nat.mod_mod]
    rfl
  simp only [F64.ofBits, exponent_toNat, fraction_eq, hzero, BitVec.msb_eq_getLsbD_last]

/-- Settles O18: three operations without a check, and the layout of 64 bits. -/
theorem conversionAndScalingOperations : Obligations.ConversionAndScalingOperations := by
  unfold Obligations.ConversionAndScalingOperations
  refine ⟨fun s => ⟨?_, rfl, rfl⟩, fun b => ⟨fun h => ?_, fun h hzero => ?_, fun h hne => ?_⟩⟩
  · rw [← toInt_setWidth (by decide) s.port.a.isLt, BitVec.setWidth_eq]
    rfl
  · rw [ofBits_eq, dif_pos h]
  · rw [ofBits_eq, dif_neg (by omega), if_pos hzero]
  · rw [ofBits_eq, dif_neg (by omega), if_neg hne]

/-! SCALE (rules R93, R98, R99). -/

section Scale
variable {s : State} {mode : Byte}

/-- The width that `ARG[1:0]` selects. -/
theorem scaleWidth_eq {select width : Nat} (hrow : (select, width) ∈ [(0, 16), (1, 32), (2, 56)])
    (hselect : mode.toNat % 4 = select) : ∃ w, scaleWidth mode = some w ∧ w.bits = width := by
  rw [scaleWidth, setWidth_two_eq hselect]
  simp only [List.mem_cons, Prod.mk.injEq, List.not_mem_nil, or_false] at hrow
  rcases hrow with ⟨rfl, rfl⟩ | ⟨rfl, rfl⟩ | ⟨rfl, rfl⟩
  · exact ⟨.w16, rfl, rfl⟩
  · exact ⟨.w32, rfl, rfl⟩
  · exact ⟨.w56, rfl, rfl⟩

theorem scaleWidth_reserved (h : mode.toNat % 4 = 3) : scaleWidth mode = none := by
  rw [scaleWidth, setWidth_two_eq h]
  rfl

/-- `ARG[7:3]` is zero for a mode below 8. -/
theorem reservedBits_eq_zero_iff : mode >>> 3 = 0 ↔ mode.toNat < 8 := by
  rw [← BitVec.toNat_inj, BitVec.toNat_ushiftRight, Nat.shiftRight_eq_div_pow]
  simp [Nat.div_eq_zero_iff]

/-- `SCALE` of a mode it has is the check of `A` and the scaling. -/
theorem execScale_of_width {w : Width} (hmode : mode.toNat < 8) (hwidth : scaleWidth mode = some w) :
    execScale mode s = serve s (do
      needWidth w.bits s.port.a
      return { fval := scaleRaw w (mode.getLsbD 2) s.port.a s.port.b }) := by
  rw [execScale, hwidth]
  exact serve_check_pass (by rw [needLegal_run, reservedBits_eq_zero_iff.mpr hmode]; rfl)

/-- `SCALE` of a reserved width is refused (rule R99). -/
theorem execScale_of_reserved_width (hmode : mode.toNat < 8) (hwidth : scaleWidth mode = none) :
    execScale mode s = s.answeredError 6 (s.port.word.setWidth 64) := by
  rw [execScale, hwidth]
  exact serve_check_pass (by rw [needLegal_run, reservedBits_eq_zero_iff.mpr hmode]; rfl)

end Scale

/-- Settles O19: the mode's two checks, the check of the width, one conversion and one multiply. -/
theorem scaleOperation : Obligations.ScaleOperation := by
  unfold Obligations.ScaleOperation
  refine fun s mode => ⟨fun select width hrow hmode hselect => ?_, fun hmode => ?_⟩
  · obtain ⟨w, hwidth, rfl⟩ := scaleWidth_eq hrow hselect
    have hexec := execScale_of_width (s := s) hmode hwidth
    refine ⟨fun ha => ?_, fun ha => hexec.trans (serve_check_outOfRange (needWidth_outOfRange ha))⟩
    have hdir : mode.getLsbD 2 = (mode.toNat / 4 == 1) := by
      rw [getLsbD_eq_div_mod, Nat.mod_eq_of_lt (by omega), show 2 ^ 2 = 4 from rfl]
    rw [scaleRaw, interp_eq_readRaw w _ ha, hdir] at hexec
    exact hexec.trans (serve_check_ok (needWidth_ok ha))
  · rcases Nat.lt_or_ge mode.toNat 8 with hlt | hge
    · exact execScale_of_reserved_width hlt (scaleWidth_reserved (by omega))
    · exact execScale_of_reserved_bits (mt reservedBits_eq_zero_iff.mp (Nat.not_lt.mpr hge)) s

/-! Sample modes and frequencies (rules R100 to R105). -/

/-- The class of a code (rule R100). -/
theorem smClassOf_eq (p : Params) {code : BitVec 4} {k : Fin 16} (h : code.toNat = k.val) :
    smClassOf p code = p.smClass[k] := by
  simp only [smClassOf, h, Fin.getElem_fin]

theorem classId_eq {c : ModeClass} {id : Nat} (h : (c, id) ∈ [(.adaptive, 0), (.sps1024, 1), (.sps256, 2),
    (.sps64, 3), (.sps8, 4), (.singleShot, 5), (.sleep, 6), (.fastBurst, 7), (.reserved, 8)]) :
    classId c = BitVec.ofNat 64 id := by
  cases c <;> simp at h <;> exact h ▸ rfl

/-- Settles O20: the class of the code, then its id. -/
theorem sampleModeDecode : Obligations.SampleModeDecode := by
  unfold Obligations.SampleModeDecode
  refine fun s => ⟨fun k id ha hrow => ?_, fun h => serve_check_outOfRange (needWidth_outOfRange h)⟩
  have hcode : (s.port.a.setWidth 4).toNat = k.val := by
    rw [BitVec.toNat_setWidth, ha]
    omega
  rw [← classId_eq hrow, ← smClassOf_eq s.params hcode]
  exact serve_check_ok (needWidth_ok (by omega))

theorem length_filter_cons {α : Type} (p : α → Bool) (a : α) (l : List α) :
    ((a :: l).filter p).length = (p a).toNat + (l.filter p).length := by
  cases h : p a <;> simp [h, Nat.add_comm]

/-- The clear bits among bits 7:4, counted one by one (rule R102). -/
theorem popcount4_eq_clearBits (ctrl : Word) : popcount4 (~~~ (ctrl.extractLsb' 4 4)) = clearBits ctrl.toNat := by
  have hclear (k : Nat) : (ctrl.toNat / 2 ^ (4 + k) % 2 == 0) = !ctrl.getLsbD (4 + k) := by
    rw [getLsbD_eq_div_mod]
    rcases Nat.mod_two_eq_zero_or_one (ctrl.toNat / 2 ^ (4 + k)) with h | h <;> rw [h] <;> rfl
  have hset (k : Nat) (hk : k < 4) : (~~~ (ctrl.extractLsb' 4 4)).getLsbD k = !ctrl.getLsbD (4 + k) := by
    simp [hk]
  simp only [popcount4, clearBits, show List.range 4 = [0, 1, 2, 3] from rfl, length_filter_cons, List.filter_nil,
    List.length_nil, hclear, hset 0 (by decide), hset 1 (by decide), hset 2 (by decide), hset 3 (by decide)]
  omega

theorem activeCount_eq (ctrl : Word) (cap : Nat) : activeCount ctrl cap = min (clearBits ctrl.toNat) cap := by
  rw [activeCount, popcount4_eq_clearBits]

/-- Settles O21: the two checks in their order, then the count. -/
theorem activeChannelCount : Obligations.ActiveChannelCount := by
  unfold Obligations.ActiveChannelCount
  refine fun s cap => ⟨fun hlo hhi ha => ?_, fun hcap => serve_check_outOfRange (needCap_outOfRange hcap),
    fun hlo hhi ha => serve_check_outOfRange ((needCap_of_cap hlo hhi).trans (needWidth_outOfRange ha))⟩
  rw [← activeCount_eq]
  exact serve_check_ok ((needCap_of_cap hlo hhi).trans (needWidth_ok ha))

/-- Settles O22: the two checks in their order, then one frequency for each class. -/
theorem sampleFrequencyDecode : Obligations.SampleFrequencyDecode := by
  unfold Obligations.SampleFrequencyDecode
  refine fun s cap => ⟨fun k hlo hhi ha hk => ?_, fun hcap => serve_check_outOfRange (needCap_outOfRange hcap),
    fun hlo hhi ha => serve_check_outOfRange ((needCap_of_cap hlo hhi).trans (needWidth_outOfRange ha))⟩
  have hexec : exec (.fsdec cap) s = s.answered { fval := sampleFreq s.params s.port.a cap.toNat } :=
    serve_check_ok ((needCap_of_cap hlo hhi).trans (needWidth_ok ha))
  have hcode : (modeCode s.port.a).toNat = k.val := by
    rw [modeCode, BitVec.extractLsb'_toNat, Nat.shiftRight_eq_div_pow]
    omega
  rw [hexec, sampleFreq, smClassOf_eq s.params hcode, activeCount_eq]
  cases s.params.smClass[k] <;> rfl

/-! Accumulator mode 3 (rules R87, R141, R142). -/

theorem round_zero (neg : Bool) (d : Nat) : F64.round neg 0 d = .finite neg 0 0 := by
  simp [F64.round, F64.ofMagnitude]

/-- A finite number that is not negative times plus zero is plus zero. -/
theorem mul_zero_of_finite (e : Fin 2047) (f : BitVec 52) : F64.mul (.finite false e f) F64.zero = F64.zero :=
  round_zero false F64.one

theorem two_mul_mul_two_pow_lt {v m k : Nat} (hv : v < 2 ^ 64) (hk : 65 + m ≤ k) :
    2 * (v * 2 ^ m) < 1 * ((2 ^ 54 - 1) * 2 ^ k) := calc
  2 * (v * 2 ^ m) = (2 * v) * 2 ^ m := (Nat.mul_assoc _ _ _).symm
  _ < 2 ^ 65 * 2 ^ m := Nat.mul_lt_mul_of_pos_right (by omega) (Nat.two_pow_pos m)
  _ = 2 ^ (65 + m) := (Nat.pow_add 2 65 m).symm
  _ ≤ 2 ^ k := Nat.pow_le_pow_right (by decide) hk
  _ ≤ 1 * ((2 ^ 54 - 1) * 2 ^ k) := by omega

/-- A 64-bit number is far below the bound at which a rounding overflows. -/
theorem toNat_lt_overflow (v : Word) : 2 * (v.toNat * F64.one) < 1 * ((2 ^ 54 - 1) * 2 ^ 2045) :=
  two_mul_mul_two_pow_lt (m := 1074) v.isLt (by decide)

/-- A 64-bit number converts to a finite number that is not negative. -/
theorem i2f_toNat_finite (v : Word) : ∃ e f, F64.i2f (v.toNat : Int) = .finite false e f := by
  rw [F64.i2f, Int.natAbs_natCast, decide_eq_false (by omega)]
  exact round_finite false Nat.one_pos (toNat_lt_overflow v)

/-- Mode 3 multiplies a finite number that is not negative by plus zero. -/
theorem accScaled_mode_three (p : Params) (h : Handle) (c : Fin 4) (v i : CfgFlags) (raw : Word) :
    accScaled p h c (BitVec.ofNat 2 3) v i raw = F64.zero := by
  obtain ⟨e, f, hfinite⟩ := i2f_toNat_finite raw
  rw [accScaled_mode p h c (by decide), if_neg (by decide), if_neg (by decide), if_neg (by decide),
    scaleRaw, interp, if_neg Bool.false_ne_true, hfinite, mul_zero_of_finite]

/-- Settles O43: three reads, and then mode 3's value and tag. -/
theorem accumulatorModeThreeIsZero : Obligations.AccumulatorModeThreeIsZero := by
  unfold Obligations.AccumulatorModeThreeIsZero
  intro s t u w b c acc cfg raw h hacc hcfg hraw hmode
  have hread := execGetVacc_reads h hacc hcfg hraw
  simp only [hmode, accScaled_mode_three, accDecode_tag] at hread
  exact hread

end Sys2Proof.Machine
end

section
/-! SUPPORT. Proofs of the statements of spec/42_cache.md. First what the operations at a register address share;
then a Cache Register read and its value; then which operations keep a valid register valid; then each
operation past its checks, and its statement. -/

namespace Sys2Proof.Machine

/-! The steps before an operation's last one, and the checks at a register address (rules R106, R153, R155). -/

section Address
variable {α : Type} {s t : State} {addr : Byte} {c : CacheReg} {d : Descriptor}

/-- An operation whose first step changes nothing goes on with its result. -/
theorem serve_bind_ok {x : Op α} {a : α} (h : x s = .ok a s) (f : α → Op Response) :
    serve s (x >>= f) = serve s (f a) := by
  simp only [serve, Op.bind_run, h]

/-- An operation whose first step raises answers that error. -/
theorem serve_bind_error {x : Op α} {e : Err} (h : x s = .error e t) (f : α → Op Response) :
    serve s (x >>= f) = t.answered e.response :=
  serve_error s _ (by simp only [Op.bind_run, h])

/-- An operation whose last step is its response answers it with the state the steps before leave. -/
theorem serve_bind_pure {x : Op α} {a : α} (h : x s = .ok a t) (f : α → Response) :
    serve s (x >>= fun a => pure (f a)) = t.answered (f a) :=
  serve_ok s _ (by simp only [Op.bind_run, h, Op.pure_run])

/-- A block with a handle goes on past the check of rule R155. -/
theorem serve_initialised (hinit : s.handle.initialised = true) (f : Unit → Op Response) :
    serve s (needInit >>= f) = serve s (f ()) :=
  serve_bind_ok (by rw [needInit_run, if_pos hinit]) f

/-- An operation that needs a handle and has none answers `NotInitialised` (rule R155). -/
theorem serve_notInitialised (hinit : s.handle.initialised = false) (f : Unit → Op Response) :
    serve s (needInit >>= f) = s.answeredError 7 0 :=
  serve_bind_error (e := .notInitialised) (by simp [hinit]) f

/-- An operation at the address of a row goes on with that row's descriptor (rule R106). -/
theorem serve_lookup (hlookup : s.lookup addr = some d) (f : Descriptor → Op Response) :
    serve s (lookupAddr addr >>= f) = serve s (f d) :=
  serve_bind_ok (by rw [lookupAddr_run, hlookup]) f

/-- An operation at an address no row has answers `UnknownRegister` (rules R106, R153). -/
theorem serve_lookup_none (hlookup : s.lookup addr = none) (f : Descriptor → Op Response) :
    serve s (lookupAddr addr >>= f) = s.answeredError 5 (addr.setWidth 64) :=
  serve_bind_error (e := .unknownRegister addr) (by rw [lookupAddr_run, hlookup]) f

theorem State.initialised_of_holds (h : s.holds addr c) : s.handle.initialised = true := h.2.1

theorem State.address_of_holds (h : s.holds addr c) : c.desc.address = addr := h.2.2.2

theorem State.lookup_of_holds (h : s.holds addr c) : s.lookup addr = some c.desc := by
  obtain ⟨hlegal, -, hc, rfl⟩ := h
  exact State.legal_lookup hlegal hc

theorem State.cacheReg_of_holds (h : s.holds addr c) : s.cacheReg c.desc.reg = some c := by
  obtain ⟨hlegal, -, hc, -⟩ := h
  exact State.legal_cacheReg hlegal hc

/-- Where a block holds a register, an operation at its address runs with its descriptor. -/
theorem serve_holds (h : s.holds addr c) (f : Descriptor → Op Response) :
    serve s (needInit >>= fun _ => lookupAddr addr >>= f) = serve s (f c.desc) := by
  rw [serve_initialised (State.initialised_of_holds h), serve_lookup (State.lookup_of_holds h)]

end Address

/-! A Cache Register read (rules R14, R16, R108). -/

section Reads
variable {s t u : State} {r : Reg} {c : CacheReg} {v : Value} {e : Err}

theorem State.reads_iff (hc : s.cacheReg r = some c) : s.reads r v t ↔ cacheRead c.desc s = .ok v t := by
  simp [State.reads, hc]

theorem State.readFails_iff (hc : s.cacheReg r = some c) :
    s.readFails r e t ↔ cacheRead c.desc s = .error e t := by
  simp [State.readFails, hc]

theorem State.hit_of_valid (hc : s.cacheReg r = some c) (hvalid : c.valid = true) : s.hit r = some c.value :=
  State.hit_eq_some.mpr ⟨c, hc, hvalid, rfl⟩

theorem State.hit_of_invalid (hc : s.cacheReg r = some c) (hvalid : c.valid = false) : s.hit r = none := by
  simp [State.hit, hc, hvalid]

/-- A register that is not cacheable is never valid on a block that keeps its invariant (rule R16). -/
theorem State.hit_of_not_cacheable (hinv : s.inv = true) (hc : s.cacheReg r = some c)
    (hcacheable : c.desc.cacheable = false) : s.hit r = none := by
  obtain ⟨-, hcoherent, -⟩ := State.inv_iff.mp hinv
  refine State.hit_of_invalid hc (Bool.eq_false_iff.mpr fun hvalid => ?_)
  have hyes := (CacheReg.coherent_iff.mp (hcoherent c (State.cacheReg_some hc).2) hvalid).1
  exact absurd hyes (by simp [hcacheable])

/-- What a read answers has the type of the register's codec: a valid value by the invariant, a fresh one by
its decode (rule R14). -/
theorem cacheRead_fits (hinv : s.inv = true) (hc : s.cacheReg c.desc.reg = some c)
    (h : cacheRead c.desc s = .ok v t) : v.fits c.desc.codec = true := by
  obtain ⟨-, hcoherent, -⟩ := State.inv_iff.mp hinv
  rcases cacheRead_cases c.desc s with
    ⟨w, hhit, hrun⟩ | ⟨-, ⟨p, -, hrun⟩ | ⟨b, -, ⟨e, -, hrun⟩ | ⟨w, hdecode, hrun⟩⟩⟩ <;>
    rw [hrun] at h <;> cases h
  · obtain ⟨c', hc', hvalid, rfl⟩ := State.hit_eq_some.mp hhit
    obtain rfl : c = c' := Option.some.inj (hc.symm.trans hc')
    exact (CacheReg.coherent_iff.mp (hcoherent c (State.cacheReg_some hc).2) hvalid).2
  · exact decodeWire_fits hdecode

/-- The value of a byte array uses no number, every other value no byte string (rule R50). -/
theorem Value.ival_of_fits_ba {n : Nat} (h : v.fits (.ba n) = true) : v.ival = 0 := by
  simp only [Value.fits, Bool.and_eq_true, beq_iff_eq] at h
  exact h.1

theorem Value.bytes_of_fits {k : Codec} (h : v.fits k = true) (hk : ∀ n, k ≠ .ba n) : v.bytes = [] := by
  cases k with
  | ba n => exact absurd rfl (hk n)
  | void => simp_all [Value.fits]
  | u8 | u16 | u32 | u56 | pid => exact (Value.fits_int rfl h).1

end Reads

/-! What an operation leaves, whether it answers or raises (rule R147). -/

/-- The state an operation ends in. -/
def Op.after {α : Type} (x : Op α) (s : State) : State :=
  match x s with
  | .ok _ t => t
  | .error _ t => t

section After
variable {α β : Type} {s t : State}

theorem Op.after_ok {x : Op α} {a : α} (h : x s = .ok a t) : x.after s = t := by simp [Op.after, h]

theorem Op.after_error {x : Op α} {e : Err} (h : x s = .error e t) : x.after s = t := by simp [Op.after, h]

theorem Op.after_bind {x : Op α} {f : α → Op β} : (x >>= f).after s =
    match x s with
    | .ok a u => (f a).after u
    | .error _ u => u := by
  simp only [Op.after, Op.bind_run]
  cases x s <;> rfl

/-- An operation whose last step is its response leaves what the steps before leave. -/
theorem Op.after_bind_pure {x : Op α} {f : α → β} : (x >>= fun a => pure (f a)).after s = x.after s := by
  rw [Op.after_bind, Op.after]
  cases x s <;> rfl

theorem serve_after {op : Op Response} (h : serve s op = .next t) : ∃ r, t = (op.after s).reply r := by
  rcases serve_next s op h with ⟨r, u, hrun, rfl⟩ | ⟨e, u, hrun, rfl⟩
  · exact ⟨r, by rw [Op.after_ok hrun]⟩
  · exact ⟨e.response, by rw [Op.after_error hrun]; rfl⟩

/-- A read of a register that is not valid issues one transaction, whatever comes of it (rule R108). -/
theorem cacheRead_trace_of_miss {d : Descriptor} (hhit : s.hit d.reg = none) :
    ∃ a, ((cacheRead d).after s).trace = .read d.address d.wireLength a :: s.trace := by
  rcases cacheRead_cases d s with
    ⟨v, hsome, -⟩ | ⟨-, ⟨p, -, hrun⟩ | ⟨b, -, ⟨e, -, hrun⟩ | ⟨v, -, hrun⟩⟩⟩
  · exact absurd (hhit.symm.trans hsome) (by simp)
  · exact ⟨.err p, by rw [Op.after_error hrun, State.afterEvent_trace]⟩
  · exact ⟨.ok b, by rw [Op.after_error hrun, State.afterEvent_trace]⟩
  · exact ⟨.ok b, by rw [Op.after_ok hrun]; split <;> simp⟩

end After

/-! Which operations keep a valid register valid, with its value (rules R15, R120). -/

/-- If register `r` is valid in `s`, it is valid in `t` with the same value. -/
def State.KeepsHit (r : Reg) (s t : State) : Prop := ∀ v, s.hit r = some v → t.hit r = some v

/-- From every state the operation keeps register `r`. -/
def Op.KeepsHit {α : Type} (r : Reg) (x : Op α) : Prop := ∀ s : State, s.KeepsHit r (x.after s)

/-- Where this outcome of an operation on `s` is a next state, register `r` is kept. -/
def keepsHit (r : Reg) (s : State) (o : Out) : Prop := ∀ t, o = .next t → s.KeepsHit r t

section Keeps
variable {α β : Type} {r : Reg} {s t : State} {d : Descriptor}

theorem State.KeepsHit.of_hit_eq (h : t.hit r = s.hit r) : s.KeepsHit r t := fun _ hv => h.trans hv

theorem Op.keepsHit_pure (a : α) : Op.KeepsHit r (pure a) := fun _ => .of_hit_eq rfl

theorem Op.keepsHit_get : Op.KeepsHit r (get : Op State) := fun _ => .of_hit_eq rfl

theorem Op.keepsHit_bind {x : Op α} {f : α → Op β} (hx : Op.KeepsHit r x) (hf : ∀ a, Op.KeepsHit r (f a)) :
    Op.KeepsHit r (x >>= f) := by
  intro s v hv
  have hfirst := hx s v hv
  rw [Op.after_bind]
  cases hrun : x s with
  | ok a u => exact hf a u v (by rwa [Op.after_ok hrun] at hfirst)
  | error e u => rwa [Op.after_error hrun] at hfirst

/-- An operation that only reads the state keeps every register. -/
theorem Op.keepsHit_of_agrees {x : Op α} (h : ∀ s, Op.Agrees s s x) : Op.KeepsHit r x := by
  intro s
  rcases h s with ⟨a, hrun, -⟩ | ⟨e, hrun, -⟩
  · exact .of_hit_eq (by rw [Op.after_ok hrun])
  · exact .of_hit_eq (by rw [Op.after_error hrun])

/-- A read fills only a register that is not valid (rule R108). -/
theorem cacheRead_keepsHit (d : Descriptor) : Op.KeepsHit r (cacheRead d) := by
  intro s v hv
  rcases cacheRead_cases d s with
    ⟨w, -, hrun⟩ | ⟨hmiss, ⟨p, -, hrun⟩ | ⟨b, -, ⟨e, -, hrun⟩ | ⟨w, -, hrun⟩⟩⟩
  · rwa [Op.after_ok hrun]
  · rw [Op.after_error hrun]; simpa using hv
  · rw [Op.after_error hrun]; simpa using hv
  · have hother : r ≠ d.reg := by
      rintro rfl
      exact absurd (hmiss.symm.trans hv) (by simp)
    rw [Op.after_ok hrun]
    split
    · rw [State.fill_hit_other hother]; simpa using hv
    · simpa using hv

/-- A write fills the register it writes and no other (rule R110). -/
theorem cacheWrite_keepsHit (hother : r ≠ d.reg) (v : Value) : Op.KeepsHit r (cacheWrite d v) := by
  intro s w hw
  rcases cacheWrite_cases d v s with ⟨p, -, hrun⟩ | ⟨b, -, hrun⟩
  · rw [Op.after_error hrun]; simpa using hw
  · rw [Op.after_ok hrun]
    split
    · rw [State.fill_hit_other hother]; simpa using hw
    · simpa using hw

theorem writeOperand_agrees (s : State) (k : Codec) (q : Request) : Op.Agrees s s (writeOperand k q) := by
  cases k with
  | void => exact Op.agrees_throw _
  | u8 | pid | u16 | u32 => exact Op.agrees_bind (needWidth_agrees _ _) fun _ => Op.agrees_pure _
  | u56 => exact Op.agrees_pure _
  | ba n => exact liftCodec_agrees _

theorem readCfg_keepsHit (cfg : Descriptor) (c : Fin 4) : Op.KeepsHit r (readCfg cfg c) :=
  Op.keepsHit_bind (cacheRead_keepsHit cfg) fun _ =>
    Op.keepsHit_bind Op.keepsHit_get fun _ => Op.keepsHit_pure _

theorem readAccMode_keepsHit (acc : Descriptor) (c : Fin 4) : Op.KeepsHit r (readAccMode acc c) :=
  Op.keepsHit_bind (cacheRead_keepsHit acc) fun _ => Op.keepsHit_pure _

theorem cfgResult_keepsHit (cfg : Descriptor) (f : CfgFlags) (pos : Nat) :
    Op.KeepsHit r (cfgResult cfg f pos) :=
  Op.keepsHit_bind (cacheRead_keepsHit cfg) fun _ => Op.keepsHit_pure _

/-- The reads of a measurement: the configuration and then one register, whatever is computed from them
(rule R127). -/
theorem measurement_keepsHit (c : Fin 4) (cfg raw : Descriptor) {f : CfgFlags × CfgFlags → Value → Op α}
    (hf : ∀ x v, Op.KeepsHit r (f x v)) :
    Op.KeepsHit r (readCfg cfg c >>= fun x => cacheRead raw >>= f x) :=
  Op.keepsHit_bind (readCfg_keepsHit cfg c) fun _ => Op.keepsHit_bind (cacheRead_keepsHit raw) fun _ => hf _ _

theorem vbusValue_keepsHit (c : Fin 4) (cfg raw : Descriptor) : Op.KeepsHit r (vbusValue c cfg raw) :=
  measurement_keepsHit c cfg raw fun _ _ => Op.keepsHit_bind Op.keepsHit_get fun _ => Op.keepsHit_pure _

theorem vsenseValue_keepsHit (c : Fin 4) (cfg raw : Descriptor) : Op.KeepsHit r (vsenseValue c cfg raw) :=
  measurement_keepsHit c cfg raw fun _ _ => Op.keepsHit_pure _

theorem vaccValue_keepsHit (c : Fin 4) (mode : BitVec 2) (cfg raw : Descriptor) :
    Op.KeepsHit r (vaccValue c mode cfg raw) :=
  measurement_keepsHit c cfg raw fun _ _ => Op.keepsHit_bind Op.keepsHit_get fun _ => Op.keepsHit_pure _

/-! The same of an outcome: through the one response, and through the checks before an operation. -/

theorem serve_keepsHit {op : Op Response} (h : Op.KeepsHit r op) : keepsHit r s (serve s op) := by
  intro t hserve v hv
  obtain ⟨x, rfl⟩ := serve_after hserve
  exact h s v hv

theorem answered_keepsHit (x : Response) : keepsHit r s (s.answered x) := by
  intro t h
  cases h
  exact .of_hit_eq rfl

theorem whenInit_keepsHit {k : Out} (hk : keepsHit r s k) : keepsHit r s (whenInit s k) := by
  rcases whenInit_cases (s := s) (k := k) rfl with ⟨-, he⟩ | ⟨-, he⟩ <;> rw [he]
  · exact answered_keepsHit _
  · exact hk

theorem checkCh_keepsHit {ch : Byte} {k : Fin 4 → Out} (hk : ∀ c, keepsHit r s (k c)) :
    keepsHit r s (checkCh ch s k) := by
  rcases checkCh_cases (s := s) (ch := ch) (k := k) rfl with ⟨-, he⟩ | ⟨-, -, he⟩ | ⟨-, c, -, -, he⟩ <;> rw [he]
  · exact answered_keepsHit _
  · exact answered_keepsHit _
  · exact hk c

theorem withInt_keepsHit {q : Reg} {k : Descriptor → Out} (hk : ∀ d, keepsHit r s (k d)) :
    keepsHit r s (withInt s q k) := by
  rcases withDesc_cases (s := s) (r := q) (ok := Codec.isInt) (k := k) rfl with he | ⟨c, -, -, he⟩ <;>
    rw [withInt, he]
  · intro t h
    cases h
  · exact hk c.desc

theorem cfgOp_keepsHit (ch : Byte) {op : Fin 4 → Descriptor → Op Response}
    (h : ∀ c cfg, Op.KeepsHit r (op c cfg)) : keepsHit r s (cfgOp ch s op) :=
  checkCh_keepsHit fun c => withInt_keepsHit fun cfg => serve_keepsHit (h c cfg)

theorem measureOp_keepsHit (ch : Byte) (reg : Fin 4 → Reg) {op : Fin 4 → Descriptor → Descriptor → Op Response}
    (h : ∀ c cfg raw, Op.KeepsHit r (op c cfg raw)) : keepsHit r s (measureOp ch s reg op) :=
  checkCh_keepsHit fun c => withInt_keepsHit fun cfg => withInt_keepsHit fun raw => serve_keepsHit (h c cfg raw)

theorem execGetAccmode_keepsHit (ch : Byte) : keepsHit r s (execGetAccmode ch s) :=
  checkCh_keepsHit fun c => withInt_keepsHit fun acc => serve_keepsHit <|
    Op.keepsHit_bind (readAccMode_keepsHit acc c) fun _ => Op.keepsHit_pure _

theorem execGetVacc_keepsHit (ch : Byte) : keepsHit r s (execGetVacc ch s) :=
  checkCh_keepsHit fun c => withInt_keepsHit fun acc => withInt_keepsHit fun cfg => withInt_keepsHit fun raw =>
    serve_keepsHit <| Op.keepsHit_bind (readAccMode_keepsHit acc c) fun mode =>
      Op.keepsHit_bind (vaccValue_keepsHit c mode cfg raw) fun _ => Op.keepsHit_pure _

theorem execGetFs_keepsHit : keepsHit r s (execGetFs s) :=
  whenInit_keepsHit <| withInt_keepsHit fun ctrl => serve_keepsHit <|
    Op.keepsHit_bind (cacheRead_keepsHit ctrl) fun _ =>
      Op.keepsHit_bind Op.keepsHit_get fun _ => Op.keepsHit_pure _

theorem execGetEnergy_keepsHit (ch : Byte) : keepsHit r s (execGetEnergy ch s) := by
  refine checkCh_keepsHit fun c => withInt_keepsHit fun acc => withInt_keepsHit fun ctrl =>
    withInt_keepsHit fun cfg => withInt_keepsHit fun raw => serve_keepsHit ?_
  refine Op.keepsHit_bind (readAccMode_keepsHit acc c) fun mode => ?_
  split
  · exact Op.keepsHit_pure _
  · refine Op.keepsHit_bind (cacheRead_keepsHit ctrl) fun v => Op.keepsHit_bind Op.keepsHit_get fun t => ?_
    split
    · exact Op.keepsHit_pure _
    · exact Op.keepsHit_bind (vaccValue_keepsHit c 0 cfg raw) fun _ => Op.keepsHit_pure _

/-- An operation at a register address keeps what the rest of it keeps with the descriptor found there. -/
theorem addressed_keepsHit {addr : Byte} {f : Descriptor → Op Response}
    (hf : ∀ d, s.lookup addr = some d → Op.KeepsHit r (f d)) :
    keepsHit r s (serve s (needInit >>= fun _ => lookupAddr addr >>= f)) := by
  cases hinit : s.handle.initialised with
  | false =>
    rw [serve_notInitialised hinit]
    exact answered_keepsHit _
  | true =>
    rw [serve_initialised hinit]
    cases hlookup : s.lookup addr with
    | none =>
      rw [serve_lookup_none hlookup]
      exact answered_keepsHit _
    | some d =>
      rw [serve_lookup hlookup]
      exact serve_keepsHit (hf d hlookup)

theorem execCread_keepsHit (addr : Byte) : keepsHit r s (execCread addr s) :=
  addressed_keepsHit fun d _ =>
    Op.keepsHit_bind (Op.keepsHit_of_agrees fun _ => needLegal_agrees ⟨rfl, rfl, rfl⟩ _) fun _ =>
      Op.keepsHit_bind (cacheRead_keepsHit d) fun _ => Op.keepsHit_pure _

theorem execCvalid_keepsHit (addr : Byte) : keepsHit r s (execCvalid addr s) :=
  addressed_keepsHit fun _ _ => Op.keepsHit_bind Op.keepsHit_get fun _ => Op.keepsHit_pure _

/-- A CWRITE at the address of another register (rule R120). -/
theorem execCwrite_keepsHit (addr : Byte) (hother : ∀ d, s.lookup addr = some d → r ≠ d.reg) :
    keepsHit r s (execCwrite addr s) :=
  addressed_keepsHit fun d hd =>
    Op.keepsHit_bind (Op.keepsHit_of_agrees fun u => writeOperand_agrees u _ _) fun v =>
      Op.keepsHit_bind (cacheWrite_keepsHit (hother d hd) v) fun _ => Op.keepsHit_pure _

/-- An operation that neither clears flags nor writes a register keeps every valid register (rule R120): the
codec and pipeline operations and LOOKUP change nothing, and the others only read. -/
theorem exec_keepsHit {i : Instr} (hclears : i.invalidates = false) (hwrites : ∀ a, i ≠ .cwrite a) :
    keepsHit r s (exec i s) := by
  by_cases hneeds : i.needsInit = true
  · cases i with
    | cread addr => exact execCread_keepsHit addr
    | cwrite addr => exact absurd rfl (hwrites addr)
    | cvalid addr => exact execCvalid_keepsHit addr
    | getVbus ch | getVbusavg ch => exact measureOp_keepsHit ch _ vbusValue_keepsHit
    | getVsense ch | getVsenseavg ch =>
      exact measureOp_keepsHit ch _ fun c cfg raw =>
        Op.keepsHit_bind (vsenseValue_keepsHit c cfg raw) fun _ => Op.keepsHit_pure _
    | getCurrent ch | getCurrentavg ch =>
      exact measureOp_keepsHit ch _ fun c cfg raw =>
        Op.keepsHit_bind (vsenseValue_keepsHit c cfg raw) fun _ =>
          Op.keepsHit_bind Op.keepsHit_get fun _ => Op.keepsHit_pure _
    | getPower ch =>
      rw [exec, execGetPower]
      exact measureOp_keepsHit ch _ fun c cfg raw => measurement_keepsHit c cfg raw fun _ _ =>
        Op.keepsHit_bind Op.keepsHit_get fun _ => Op.keepsHit_pure _
    | lsbVbus ch =>
      rw [exec, execLsbVbus]
      exact cfgOp_keepsHit ch fun c cfg => Op.keepsHit_bind (readCfg_keepsHit cfg c) fun _ =>
        Op.keepsHit_bind Op.keepsHit_get fun _ => Op.keepsHit_pure _
    | lsbPower ch =>
      rw [exec, execLsbPower]
      exact cfgOp_keepsHit ch fun c cfg => Op.keepsHit_bind (readCfg_keepsHit cfg c) fun _ =>
        Op.keepsHit_bind Op.keepsHit_get fun _ => Op.keepsHit_pure _
    | lsbVsense ch =>
      rw [exec, execLsbVsense]
      exact cfgOp_keepsHit ch fun c cfg => Op.keepsHit_bind (readCfg_keepsHit cfg c) fun _ =>
        Op.keepsHit_pure _
    | getVcfg ch =>
      rw [exec, execGetVcfg]
      exact cfgOp_keepsHit ch fun c cfg => Op.keepsHit_bind (readCfg_keepsHit cfg c) fun _ =>
        cfgResult_keepsHit cfg _ _
    | getIcfg ch =>
      rw [exec, execGetIcfg]
      exact cfgOp_keepsHit ch fun c cfg => Op.keepsHit_bind (readCfg_keepsHit cfg c) fun _ =>
        cfgResult_keepsHit cfg _ _
    | getAccmode ch => exact execGetAccmode_keepsHit ch
    | getVacc ch => exact execGetVacc_keepsHit ch
    | getEnergy ch => exact execGetEnergy_keepsHit ch
    | getFs => exact execGetFs_keepsHit
    | _ => simp [Instr.invalidates, Instr.needsInit] at hclears hneeds
  · have hinit : i ≠ .init := by
      rintro rfl
      simp [Instr.invalidates] at hclears
    obtain ⟨x, hanswer, -⟩ := statelessOperations i s s (by simpa using hneeds) hinit rfl rfl rfl
    rw [hanswer]
    exact answered_keepsHit x

end Keeps
/-! CREAD and CWRITE past their checks (rules R109, R111). -/

section Operations
variable {s t : State} {addr : Byte} {c : CacheReg} {d : Descriptor} {v : Value}

/-- CREAD of a register that is not void is a Cache Register read (rule R109). -/
theorem execCread_run (hinit : s.handle.initialised = true) (hlookup : s.lookup addr = some d)
    (hvoid : d.codec ≠ .void) :
    exec (.cread addr) s = serve s (cacheRead d >>= fun v => pure { ival := v.ival, bytes := v.bytes }) := by
  rw [exec, execCread, serve_initialised hinit, serve_lookup hlookup]
  exact serve_bind_ok (a := ()) (by simp [hvoid]) _

/-- CREAD of a register that is not valid issues exactly one read (rules R108, R109). -/
theorem execCread_trace_of_miss (hinit : s.handle.initialised = true) (hlookup : s.lookup addr = some d)
    (hvoid : d.codec ≠ .void) (hmiss : s.hit d.reg = none) (h : exec (.cread addr) s = .next t) :
    ∃ a, t.trace = .read addr d.wireLength a :: s.trace := by
  rw [execCread_run hinit hlookup hvoid] at h
  obtain ⟨x, rfl⟩ := serve_after h
  obtain ⟨a, htrace⟩ := cacheRead_trace_of_miss hmiss
  rw [(State.lookup_some hlookup).1] at htrace
  exact ⟨a, by rw [State.reply_trace, Op.after_bind_pure, htrace]⟩

/-- A good operand of CWRITE is the value the register takes (rule R111). -/
theorem writeOperand_of_takes {k : Codec} {q : Request} (h : k.takes q v) (s : State) :
    writeOperand k q s = .ok v s := by
  cases k with
  | void => exact absurd h id
  | u8 | pid | u16 | u32 =>
    obtain ⟨hwidth, rfl⟩ := h
    simp only [writeOperand, Op.bind_run, needWidth_ok hwidth, Op.pure_run]
  | u56 =>
    obtain rfl : v = _ := h
    rfl
  | ba n =>
    obtain ⟨hlength, rfl⟩ := h
    simp only [writeOperand, decodeWire_ba hlength, liftCodec_ok]

/-- CWRITE with a good operand is a Cache Register write (rules R110, R111). -/
theorem execCwrite_run (h : s.holds addr c) (htakes : c.desc.codec.takes s.port v) :
    exec (.cwrite addr) s = serve s (cacheWrite c.desc v >>= fun _ => pure {}) := by
  rw [exec, execCwrite, serve_holds h]
  exact serve_bind_ok (writeOperand_of_takes htakes s) _

theorem execCinv_run (h : s.holds addr c) :
    exec (.cinv addr) s = (s.invalidate c.desc.reg).answered {} := by
  rw [exec, execCinv, serve_holds h]
  rfl

/-- After CINV the next CREAD of the register issues exactly one read, whatever the register held and whatever
request brings it (rule R120). -/
theorem execCread_trace_after_cinv (h : s.holds addr c) (hvoid : c.desc.codec ≠ .void) {q : Request} {u : State}
    (hcinv : exec (.cinv addr) s = .next t) (hcread : exec (.cread addr) { t with port := q } = .next u) :
    ∃ a, u.trace = .read addr c.desc.wireLength a :: s.trace := by
  have ht : (s.invalidate c.desc.reg).reply {} = t := Host.Outcome.next.inj ((execCinv_run h).symm.trans hcinv)
  have hinit : t.handle.initialised = true := by simp [← ht, State.initialised_of_holds h]
  have hlookup : t.lookup addr = some c.desc := by simp [← ht, State.lookup_of_holds h]
  have hmiss : t.hit c.desc.reg = none := by simp [← ht, State.invalidate_hit_same]
  have htrace : t.trace = s.trace := by simp [← ht]
  rw [← htrace]
  exact execCread_trace_of_miss (s := { t with port := q }) hinit hlookup hvoid hmiss hcread

/-- In a legal table the row of another address is the row of another register (rule R14). -/
theorem State.reg_ne_of_lookup (h : s.holds addr c) {a : Byte} (hlookup : s.lookup a = some d)
    (hne : a ≠ addr) : c.desc.reg ≠ d.reg := by
  obtain ⟨hlegal, -, hc, haddr⟩ := h
  obtain ⟨hd, hmem⟩ := State.lookup_some hlookup
  intro hreg
  have hrow : c.desc = d := State.legal_row_unique hlegal hc hmem hreg
  exact hne (by rw [← hd, ← hrow, haddr])

/-- A CWRITE that is answered with success has filled a cacheable register (rule R110). -/
theorem execCwrite_hit (h : s.holds addr c) (htakes : c.desc.codec.takes s.port v)
    (hcacheable : c.desc.cacheable = true) (hexec : exec (.cwrite addr) s = .next t)
    (hsuccess : t.responses = {} :: s.responses) : t.hit c.desc.reg = some v := by
  rw [execCwrite_run h htakes] at hexec
  rcases cacheWrite_cases c.desc v s with ⟨p, -, hrun⟩ | ⟨b, -, hrun⟩
  · rw [serve_bind_error hrun] at hexec
    cases hexec
    simp [Err.response, Err.status] at hsuccess
  · obtain ⟨x, rfl⟩ := serve_after hexec
    rw [State.reply_hit, Op.after_bind_pure, Op.after_ok hrun, if_pos hcacheable]
    exact State.fill_hit_same (by simp [State.cacheReg_of_holds h])

end Operations

/-- Settles O34: a write fills the register, and what does not clear or write it keeps it; a read that misses is
one transaction, and an invalidated register and one that is not cacheable both miss. -/
theorem cacheLaws : Obligations.CacheLaws := by
  unfold Obligations.CacheLaws
  intro s addr c hinv h
  have hlookup := State.lookup_of_holds h
  have hinit := State.initialised_of_holds h
  refine ⟨fun v t hcacheable htakes hexec hsuccess => ?_, fun v i t hhit hclears hwrite hexec => ?_,
    fun v hhit hvoid => ?_, fun r t u hvoid hcinv hexec => ?_, fun t hcacheable hvoid hexec => ?_⟩
  · exact execCwrite_hit h htakes hcacheable hexec hsuccess
  · by_cases hother : ∃ a, i = .cwrite a
    · obtain ⟨a, rfl⟩ := hother
      have hne : a ≠ addr := fun he => hwrite (by rw [he])
      exact execCwrite_keepsHit a (fun d hd => State.reg_ne_of_lookup h hd hne) t hexec v hhit
    · exact exec_keepsHit hclears (not_exists.mp hother) t hexec v hhit
  · rw [execCread_run hinit hlookup hvoid, serve_bind_ok (cacheRead_hit s hhit)]
    rfl
  · exact execCread_trace_after_cinv h hvoid hcinv hexec
  · have hmiss := State.hit_of_not_cacheable hinv (State.cacheReg_of_holds h) hcacheable
    exact execCread_trace_of_miss hinit hlookup hvoid hmiss hexec

/-! CacheRead, for every register and every answer of the transport. -/

/-- A register that is valid is read as it is (rule R108). -/
theorem State.reads_of_valid {s : State} {r : Reg} {c : CacheReg} (hc : s.cacheReg r = some c)
    (hvalid : c.valid = true) : s.reads r c.value s := by
  obtain ⟨rfl, -⟩ := State.cacheReg_some hc
  exact (State.reads_iff hc).mpr (cacheRead_hit s (State.hit_of_valid hc hvalid))

/-- Settles O24: a hit, and for a miss one case for each answer of the transport and of the codec. -/
theorem cacheReadRule : Obligations.CacheReadRule := by
  unfold Obligations.CacheReadRule
  intro s r c hc d
  obtain ⟨rfl, -⟩ := State.cacheReg_some hc
  have hmiss (hvalid : c.valid = false) := cacheRead_miss s (State.hit_of_invalid hc hvalid)
  refine ⟨State.reads_of_valid hc, fun bytes u v hvalid hdraw hdecode => (State.reads_iff hc).mpr ?_,
    fun bytes u e hvalid hdraw hdecode => (State.readFails_iff hc).mpr ?_,
    fun p u hvalid hdraw => (State.readFails_iff hc).mpr ?_⟩
  · simp only [hmiss hvalid, hdraw, d, hdecode]
    cases c.desc.cacheable <;> rfl
  · simp only [hmiss hvalid, hdraw, d, hdecode]
    rfl
  · simp only [hmiss hvalid, hdraw]
    rfl

/-! LOOKUP: the fields of its packed answer (rule R107). -/

/-- A field above the bits of the fields before it is added to them. -/
theorem or_shiftLeft_toNat {x y : Word} {k : Nat} (hx : x.toNat < 2 ^ k) (hy : y.toNat * 2 ^ k < 2 ^ 64) :
    (x ||| (y <<< k)).toNat = x.toNat + y.toNat * 2 ^ k := by
  rw [BitVec.toNat_or, BitVec.toNat_shiftLeft, Nat.shiftLeft_eq, Nat.mod_eq_of_lt hy, Nat.or_comm,
    ← Nat.shiftLeft_eq, ← Nat.shiftLeft_add_eq_or_of_lt hx, Nat.shiftLeft_eq, Nat.add_comm]

/-- LOOKUP's answer as a sum, where every field fits its place (rule R107). -/
theorem packedDescriptor_eq (addr : Byte) {length id : Nat} (flag : Bool) (hlength : length < 2 ^ 8)
    (hid : id < 2 ^ 8) :
    addr.setWidth 64 ||| (BitVec.ofNat 64 length <<< 8) ||| (BitVec.ofNat 64 id <<< 16) |||
        ((BitVec.ofBool flag).setWidth 64 <<< 24) =
      BitVec.ofNat 64 (addr.toNat + length * 2 ^ 8 + id * 2 ^ 16 + (if flag then 1 else 0) * 2 ^ 24) := by
  have haddr : (addr.setWidth 64).toNat = addr.toNat := by
    rw [BitVec.toNat_setWidth]
    exact Nat.mod_eq_of_lt (addr.isLt.trans (by decide))
  have hlen : (BitVec.ofNat 64 length).toNat = length := Nat.mod_eq_of_lt (hlength.trans (by decide))
  have hcode : (BitVec.ofNat 64 id).toNat = id := Nat.mod_eq_of_lt (hid.trans (by decide))
  have hflag : ((BitVec.ofBool flag).setWidth 64).toNat = if flag then 1 else 0 := by cases flag <;> rfl
  have hbit : (if flag then 1 else 0) ≤ 1 := by cases flag <;> decide
  have hbyte := addr.isLt
  have h8 := or_shiftLeft_toNat (x := addr.setWidth 64) (y := BitVec.ofNat 64 length) (k := 8)
    (by omega) (by omega)
  have h16 := or_shiftLeft_toNat (x := addr.setWidth 64 ||| (BitVec.ofNat 64 length <<< 8))
    (y := BitVec.ofNat 64 id) (k := 16) (by rw [h8]; omega) (by omega)
  have h24 := or_shiftLeft_toNat
    (x := addr.setWidth 64 ||| (BitVec.ofNat 64 length <<< 8) ||| (BitVec.ofNat 64 id <<< 16))
    (y := (BitVec.ofBool flag).setWidth 64) (k := 24) (by rw [h16, h8]; omega) (by omega)
  apply BitVec.eq_of_toNat_eq
  rw [h24, h16, h8, haddr, hlen, hcode, hflag, BitVec.toNat_ofNat, Nat.mod_eq_of_lt (by omega)]

theorem codecId_le (k : Codec) : codecId k ≤ 6 := by
  cases k <;> simp [codecId]

/-- The row of an address in a legal table (rules R14, R106). -/
theorem State.legal_lookup_row {s : State} (hlegal : s.legal = true) {d : Descriptor} (hd : d ∈ s.table) :
    s.lookup d.address = some d := by
  obtain ⟨c, hc, rfl⟩ := List.mem_map.mp hd
  exact State.legal_lookup hlegal hc

/-- Settles O25: the fields of a legal row do not overlap, so packing them is adding them. -/
theorem lookupOperation : Obligations.LookupOperation := by
  unfold Obligations.LookupOperation
  intro s addr hlegal
  refine ⟨fun d hd haddr => ?_, fun habsent => serve_lookup_none (State.lookup_none habsent) _⟩
  subst haddr
  have hrow : d.wireLength ≤ 8 := by
    have hok := (State.legal_parts hlegal).1 d hd
    simp only [Descriptor.legal, Bool.and_eq_true, decide_eq_true_eq] at hok
    exact hok.2
  have hid := codecId_le d.codec
  have hanswer : exec (.lookup d.address) s = s.answered { ival := BitVec.ofNat 64 (d.address.toNat +
      d.wireLength * 2 ^ 8 + codecId d.codec * 2 ^ 16 + (if d.cacheable then 1 else 0) * 2 ^ 24) } := by
    rw [exec, execLookup, serve_lookup (State.legal_lookup_row hlegal hd),
      packedDescriptor_eq d.address d.cacheable (by omega) (by omega)]
    rfl
  exact hanswer

/-! CREAD. -/

/-- Settles O26: past the checks CREAD is a Cache Register read, whose value uses one of the two ports. -/
theorem creadOperation : Obligations.CreadOperation := by
  unfold Obligations.CreadOperation
  intro s addr hinv
  refine ⟨fun c v t h hvoid hread => ?_, fun c e t h hvoid hfail => ?_, fun c h hvoid => ?_,
    fun hinit => serve_notInitialised hinit _, fun hinit habsent => ?_⟩
  · have hc := State.cacheReg_of_holds h
    have hrun := (State.reads_iff hc).mp hread
    have hfits := cacheRead_fits hinv hc hrun
    have hanswer : exec (.cread addr) s = t.answered { ival := v.ival, bytes := v.bytes } := by
      rw [execCread_run (State.initialised_of_holds h) (State.lookup_of_holds h) hvoid, serve_bind_pure hrun]
    rw [hanswer]
    split
    next n hba => rw [Value.ival_of_fits_ba (hba ▸ hfits)]
    next hother => rw [Value.bytes_of_fits hfits hother]
  · rw [execCread_run (State.initialised_of_holds h) (State.lookup_of_holds h) hvoid]
    exact serve_bind_error ((State.readFails_iff (State.cacheReg_of_holds h)).mp hfail) _
  · rw [exec, execCread, serve_holds h]
    exact serve_bind_error (e := .illegalOperation s.port.word) (by simp [hvoid]) _
  · exact serve_unknownRegister hinit (State.lookup_none habsent) _

/-! CWRITE. -/

section Cwrite
variable {s u : State} {addr : Byte} {c : CacheReg} {v : Value}

/-- A good operand is written, and fills a cacheable register, if the transport takes the write (rules R110,
R111). -/
theorem execCwrite_taken (h : s.holds addr c) (htakes : c.desc.codec.takes s.port v) {b : List Byte}
    (hdraw : s.draw = (.ok b, u)) : exec (.cwrite addr) s = .next { u with
      trace := .write addr (encodeWire c.desc.codec v) none :: u.trace
      cache := if c.desc.cacheable then filled u.cache c.desc.reg v else u.cache
      responses := {} :: u.responses } := by
  have hrun := cacheWrite_run s c.desc v
  rw [hdraw] at hrun
  rw [execCwrite_run h htakes, serve_bind_pure hrun, State.address_of_holds h]
  cases c.desc.cacheable <;> rfl

/-- A write the transport refuses is answered with its payload and fills nothing (rules R110, R149). -/
theorem execCwrite_refused (h : s.holds addr c) (htakes : c.desc.codec.takes s.port v) {p : Payload}
    (hdraw : s.draw = (.err p, u)) : exec (.cwrite addr) s = .next { u with
      trace := .write addr (encodeWire c.desc.codec v) (some p) :: u.trace
      responses := { status := 1, payload := some p } :: u.responses } := by
  have hrun := cacheWrite_run s c.desc v
  rw [hdraw] at hrun
  rw [execCwrite_run h htakes, serve_bind_error hrun, State.address_of_holds h]
  rfl

/-- An operand the register's codec refuses is answered before any transaction (rule R111). -/
theorem execCwrite_operandError (h : s.holds addr c) {e : Err}
    (he : writeOperand c.desc.codec s.port s = .error e s) :
    exec (.cwrite addr) s = s.answered e.response := by
  rw [exec, execCwrite, serve_holds h]
  exact serve_bind_error he _

/-- A number too wide for its codec (rules R68, R111). -/
theorem writeOperand_outOfRange {k : Codec} {width : Nat} {q : Request}
    (hk : (k, width) ∈ [(.u8, 8), (.pid, 8), (.u16, 16), (.u32, 32)]) (hwide : 2 ^ width ≤ q.a.toNat)
    (s : State) : writeOperand k q s = .error (.operandRange q.a) s := by
  have hcheck : writeOperand k q = (needWidth width q.a >>= fun _ => pure { ival := q.a }) := by
    simp only [List.mem_cons, Prod.mk.injEq, List.not_mem_nil, or_false] at hk
    rcases hk with ⟨rfl, rfl⟩ | ⟨rfl, rfl⟩ | ⟨rfl, rfl⟩ | ⟨rfl, rfl⟩
    exacts [rfl, rfl, rfl, rfl]
  rw [hcheck, Op.bind_run, needWidth_outOfRange hwide]

end Cwrite

/-- Settles O27: a good operand and what the transport says of its write, and the three operands refused. -/
theorem cwriteOperation : Obligations.CwriteOperation := by
  unfold Obligations.CwriteOperation
  intro s addr c h d r
  refine ⟨fun v b u htakes hdraw => execCwrite_taken h htakes hdraw,
    fun v p u htakes hdraw => execCwrite_refused h htakes hdraw, fun hvoid => ?_, fun width hk hwide => ?_,
    fun n hba hlength => ?_⟩
  · have hcodec : c.desc.codec = .void := hvoid
    exact execCwrite_operandError h (e := .illegalOperation r.word) (by rw [hcodec]; rfl)
  · exact execCwrite_operandError h (writeOperand_outOfRange hk hwide s)
  · have hcodec : c.desc.codec = .ba n := hba
    refine execCwrite_operandError h (e := .lengthMismatch 6 n r.str.length) ?_
    rw [hcodec, writeOperand, decodeWire_length (c := .ba n) hlength]
    rfl

/-! CINV, CVALID and CINVALL. -/

/-- Settles O28: past the checks CINV clears one flag. -/
theorem cinvOperation : Obligations.CinvOperation := by
  unfold Obligations.CinvOperation
  exact fun s addr c h => execCinv_run h

/-- Settles O29: past the checks CVALID reads the flag of the register found. -/
theorem cvalidOperation : Obligations.CvalidOperation := by
  unfold Obligations.CvalidOperation
  refine fun s addr => ⟨fun c h => ?_, fun hinit => serve_notInitialised hinit _,
    fun hinit habsent => serve_unknownRegister hinit (State.lookup_none habsent) _⟩
  have hflag : s.valid c.desc.reg = c.valid := by rw [State.valid, State.cacheReg_of_holds h]
  rw [exec, execCvalid, serve_holds h, ← hflag]
  rfl

/-- CINVALL on a block with a handle (rule R114). -/
theorem execCinvall_run {s : State} (hinit : s.handle.initialised = true) :
    exec .cinvall s = s.invalidateAll.answered {} := by
  rw [exec, execCinvall, serve_initialised hinit]
  rfl

/-- Settles O30: past the check CINVALL clears the flag of every register that could be valid. -/
theorem cinvallOperation : Obligations.CinvallOperation := by
  unfold Obligations.CinvallOperation
  exact fun s => ⟨fun hinit => execCinvall_run hinit, fun hinit => serve_notInitialised hinit _,
    fun hinv hinit => ⟨_, execCinvall_run hinit, fun r => State.invalidateAll_valid hinv r⟩⟩

/-! The refresh commands. -/

section Refresh
variable {s u : State} {i : Instr} {r : Reg} {c : CacheReg}

/-- `InvalidateAll` draws nothing: the transport's next answer is the same (rule R114). -/
theorem State.invalidateAll_draw (s : State) : s.invalidateAll.draw = (s.draw.1, s.draw.2.invalidateAll) := by
  simp only [State.draw, State.invalidateAll_answers, State.invalidateAll_drawn]
  cases s.answers <;> rfl

/-- A refresh command is the check of rule R155 and rule R115's `Refresh` on the command's own register. -/
theorem exec_refreshCommand
    (hi : (i, r) ∈ [(.refresh, .refresh), (.refreshG, .refreshG), (.refreshV, .refreshV)]) (s : State) :
    exec i s = whenInit s (withDesc s r (· == .void) fun d => serve s (refreshWith d)) ∧
      (r, .void) ∈ namedRegs := by
  simp only [List.mem_cons, Prod.mk.injEq, List.not_mem_nil, or_false] at hi
  rcases hi with ⟨rfl, rfl⟩ | ⟨rfl, rfl⟩ | ⟨rfl, rfl⟩
  all_goals exact ⟨rfl, by simp [namedRegs]⟩

/-- With a handle and legal parameters the command's register is found and `Refresh` runs (rules R54, R106). -/
theorem exec_refresh_run
    (hi : (i, r) ∈ [(.refresh, .refresh), (.refreshG, .refreshG), (.refreshV, .refreshV)])
    (hlegal : s.legal = true) (hinit : s.handle.initialised = true) (hc : s.cacheReg r = some c) :
    exec i s = serve s (refreshWith c.desc) := by
  obtain ⟨hexec, hnamed⟩ := exec_refreshCommand hi s
  obtain ⟨c', hc', hvoid⟩ := State.legal_named hlegal hnamed
  obtain rfl : c = c' := Option.some.inj (hc.symm.trans hc')
  rw [hexec, whenInit_pass hinit, withDesc_pass hc (by simp [hvoid])]

/-- The command is taken: the cleared flags, the write and the delay (rule R115). -/
theorem refreshWith_taken (cmd : Descriptor) {b : List Byte} (hdraw : s.draw = (.ok b, u)) :
    serve s (refreshWith cmd) = (((u.invalidateAll.log (.write cmd.address [] none)).log
      (.delay Config.refreshDelay)).answered {}) := by
  rcases refreshWith_cases cmd s with ⟨p, herr, -⟩ | ⟨b', -, hrun⟩
  · simp [State.invalidateAll_draw, hdraw] at herr
  · rw [serve_ok s _ hrun, State.afterEvent, State.invalidateAll_draw, hdraw]
    rfl

/-- The command is refused: the cleared flags and the write, and no delay (rule R115, decision D35). -/
theorem refreshWith_refused (cmd : Descriptor) {p : Payload} (hdraw : s.draw = (.err p, u)) :
    serve s (refreshWith cmd) = ((u.invalidateAll.log (.write cmd.address [] (some p))).answered
      { status := 1, payload := some p }) := by
  rcases refreshWith_cases cmd s with ⟨p', herr, hrun⟩ | ⟨b, hok, -⟩
  · obtain rfl : p = p' := by simpa [State.invalidateAll_draw, hdraw] using herr
    rw [serve_error s _ hrun, State.afterEvent, State.invalidateAll_draw, hdraw]
    rfl
  · simp [State.invalidateAll_draw, hdraw] at hok

end Refresh

/-- Settles O31: past the checks, one case for each answer of the transport to the command. -/
theorem refreshOperations : Obligations.RefreshOperations := by
  unfold Obligations.RefreshOperations
  intro s i r c hi cleared
  have hcache {a : Answer} {u : State} (hdraw : s.draw = (a, u)) : u.cache = s.cache := by
    simpa [hdraw] using s.draw_cache
  refine ⟨fun hlegal hinit hc => ⟨fun b u hdraw => ?_, fun p u hdraw => ?_⟩, fun hinit => ?_⟩
  · rw [exec_refresh_run hi hlegal hinit hc, refreshWith_taken c.desc hdraw]
    simp only [cleared, ← hcache hdraw]
    rfl
  · rw [exec_refresh_run hi hlegal hinit hc, refreshWith_refused c.desc hdraw]
    simp only [cleared, ← hcache hdraw]
    rfl
  · obtain ⟨hexec, -⟩ := exec_refreshCommand hi s
    rw [hexec]
    exact whenInit_fail hinit

/-! INIT that succeeds. -/

section Init
variable {s u : State}

/-- A product of a legal table is found under its identifier (rule R118). -/
theorem productOf_of_mem {p : Params} (hlegal : p.legal = true) {q : Product} (hq : q ∈ p.products) :
    productOf p q.id = some q := by
  have hnodup : (p.products.map (·.id)).Nodup := by
    simp only [Params.legal, Bool.and_eq_true, decide_eq_true_eq, and_assoc] at hlegal
    obtain ⟨-, hnodup, -⟩ := hlegal
    exact hnodup
  exact find_of_nodup (f := fun q : Product => q.id) hnodup hq

/-- A known byte: the flags cleared, one read, the fill of a cacheable register, and the handle (rule R119). -/
theorem initWith_known {pid : Descriptor} {bytes : List Byte} {v : Value} {p : Product}
    (hdraw : s.draw = (.ok bytes, u)) (hdecode : decodeWire pid.codec bytes = .ok v)
    (hknown : productOf s.params (v.ival.setWidth 8) = some p) :
    initWith pid s = .ok { ival := (v.ival.setWidth 8 : Byte).setWidth 64 }
      (let t := u.uninit.log (.read pid.address pid.wireLength (.ok bytes))
       { (if pid.cacheable then t.fill pid.reg v else t) with handle := Handle.ofInit p s.port.cal }) := by
  have hparams : u.params = s.params := by simpa [hdraw] using s.draw_params
  have hport : u.port = s.port := by simpa [hdraw] using s.draw_port
  cases hc : pid.cacheable <;>
    simp [initWith_run, cacheRead_miss s.uninit State.uninit_hit, State.uninit_draw, hdraw, hdecode, hc,
      hparams, hport, hknown]

end Init

/-- Settles O32: the read is a miss, its byte is in the product table, and the product's row is latched. -/
theorem initBuildsHandle : Obligations.InitBuildsHandle := by
  unfold Obligations.InitBuildsHandle
  intro s c b u p hlegal hc hdraw hp hid cleared
  subst hid
  obtain ⟨hcodec, hlength⟩ := State.legal_productId hlegal hc
  obtain ⟨-, -, -, -, -, hparams⟩ := State.legal_parts hlegal
  have hinit : exec .init s = serve s (initWith c.desc) := by
    rw [exec, execInit, withDesc_pass hc (by simp [hcodec])]
  have hdecode : decodeWire c.desc.codec [p.id] = .ok { ival := p.id.setWidth 64 } := by
    rw [hcodec, decodeWire_int rfl rfl, fromBytes_single]
  have hbyte : (p.id.setWidth 64).setWidth 8 = p.id := by simp
  have hrun := initWith_known hdraw hdecode (p := p) (by rw [hbyte]; exact productOf_of_mem hparams hp)
  rw [hbyte, hlength, (State.cacheReg_some hc).1] at hrun
  rw [hinit, serve_ok s _ hrun]
  cases c.desc.cacheable <;> rfl

end Sys2Proof.Machine
end

section
/-! SUPPORT. Proofs of the statements of spec/43_telemetry.md. First the checks before any read; then which
registers an operation reads in turn, whatever it computes from them, so that the first read that fails ends
it; then each operation past its checks, and its statement. -/

namespace Sys2Proof.Machine

/-! The checks of every per-channel operation (rules R121, R155). -/

/-- A per-channel operation is what it does past the checks of rule R121. -/
theorem exec_checkCh {i : Instr} {ch : Byte} (hi : i.channel = some ch) (s : State) :
    ∃ k, exec i s = checkCh ch s k := by
  cases i <;> cases hi
  case getVbus => exact ⟨_, execGetVbus.eq_def ch s⟩
  case getVbusavg => exact ⟨_, execGetVbusavg.eq_def ch s⟩
  case getVsense => exact ⟨_, execGetVsense.eq_def ch s⟩
  case getVsenseavg => exact ⟨_, execGetVsenseavg.eq_def ch s⟩
  case getCurrent => exact ⟨_, execGetCurrent.eq_def ch s⟩
  case getCurrentavg => exact ⟨_, execGetCurrentavg.eq_def ch s⟩
  case getPower => exact ⟨_, execGetPower.eq_def ch s⟩
  case getVacc => exact ⟨_, execGetVacc.eq_def ch s⟩
  case getEnergy => exact ⟨_, execGetEnergy.eq_def ch s⟩
  case lsbVbus => exact ⟨_, execLsbVbus.eq_def ch s⟩
  case lsbVsense => exact ⟨_, execLsbVsense.eq_def ch s⟩
  case lsbPower => exact ⟨_, execLsbPower.eq_def ch s⟩
  case getVcfg => exact ⟨_, execGetVcfg.eq_def ch s⟩
  case getIcfg => exact ⟨_, execGetIcfg.eq_def ch s⟩
  case getAccmode => exact ⟨_, execGetAccmode.eq_def ch s⟩

/-- A channel the block does not have is refused (rule R121). -/
theorem checkCh_invalidChannel {s : State} {ch : Byte} (hinit : s.handle.initialised = true)
    (hch : s.handle.channelCount.val ≤ ch.toNat) (k : Fin 4 → Out) :
    checkCh ch s k = s.answeredError 3 (ch.setWidth 64) := by
  rw [checkCh, whenInit_pass hinit, dif_neg (Nat.not_lt.mpr hch)]
  rfl

/-- Settles O35: both checks stand before whatever the operation does. -/
theorem channelCheck : Obligations.ChannelCheck := by
  unfold Obligations.ChannelCheck
  intro s i ch hi
  obtain ⟨k, hexec⟩ := exec_checkCh hi s
  rw [hexec]
  exact ⟨whenInit_fail, fun hinit hch => checkCh_invalidChannel hinit hch k⟩

section Checks
variable {s : State} {b : Byte} {c : Fin 4}

/-- `CTRL_LAT` is handed on. -/
theorem withInt_ctrlLat (hlegal : s.legal = true) :
    ∃ k, s.cacheReg .ctrlLat = some k ∧ ∀ op, withInt s .ctrlLat op = op k.desc :=
  withInt_named (codec := .u16) hlegal (by simp [namedRegs]) rfl

/-- An operation that reads the configuration and a register of the channel runs with their descriptors. -/
theorem measureOp_serves (h : s.serves b c) {reg : Fin 4 → Reg} {codec : Codec}
    (hreg : (reg c, codec) ∈ namedRegs) (hint : codec.isInt = true) :
    ∃ kcfg kraw, s.cacheReg .negPwrFsrLat = some kcfg ∧ s.cacheReg (reg c) = some kraw ∧
      ∀ op, measureOp b s reg op = serve s (op c kcfg.desc kraw.desc) := by
  obtain ⟨kcfg, hkcfg, hopcfg⟩ := withInt_negPwrFsrLat h.1
  obtain ⟨kraw, hkraw, hopraw⟩ := withInt_named h.1 hreg hint
  exact ⟨kcfg, kraw, hkcfg, hkraw, fun op => by rw [measureOp, checkCh_serves h, hopcfg, hopraw]⟩

theorem execGetAccmode_serves (h : s.serves b c) :
    ∃ k, s.cacheReg (accModeReg s.params) = some k ∧ execGetAccmode b s =
      serve s (readAccMode k.desc c >>= fun mode => pure { ival := mode.setWidth 64 }) := by
  obtain ⟨k, hk, hacc⟩ := withInt_accMode h.1
  exact ⟨k, hk, by rw [execGetAccmode, checkCh_serves h, hacc]⟩

theorem execGetFs_serves (hlegal : s.legal = true) (hinit : s.handle.initialised = true) :
    ∃ k, s.cacheReg .ctrlLat = some k ∧ execGetFs s = serve s (cacheRead k.desc >>= fun v => get >>= fun t =>
      pure { fval := sampleFreq t.params v.ival t.handle.channelCount.val }) := by
  obtain ⟨k, hk, hctrl⟩ := withInt_ctrlLat hlegal
  exact ⟨k, hk, by rw [execGetFs, whenInit_pass hinit, hctrl]⟩

end Checks

/-! Registers read in turn: the first read that fails is the error of the whole (rules R127, R147). -/

section ReadsInTurn
variable {α β : Type} {s t u w : State} {r : Reg} {k : CacheReg} {e : Err} {l m : List Reg}

/-- The outcome `o` is what reads of these registers, one after another from a state, lead to: the error of the
first that fails, with the state it leaves, and an answer with the state of the last where none fails. -/
def FollowsReads (o : EStateM.Result Err State α) : List Reg → State → Prop
  | [], t => ∃ a, o = .ok a t
  | r :: l, t => (∀ e u, t.readFails r e u → o = .error e u) ∧ ∀ v u, t.reads r v u → FollowsReads o l u

/-- From every state that reads may leave of `s`, the operation reads these registers in turn. -/
def Op.ReadsInTurn (s : State) (l : List Reg) (x : Op α) : Prop :=
  ∀ t, s.AfterReads t → FollowsReads (x t) l t

/-- A later read of a register that fails fails with the descriptor the register had at first. -/
theorem State.AfterReads.run_error (h : s.AfterReads t) (hk : s.cacheReg r = some k) (hr : t.readFails r e u) :
    cacheRead k.desc t = .error e u := by
  obtain ⟨c, hc, hread⟩ := hr
  have hrow : c.desc = k.desc := by simpa [hk, hc] using h.rows r
  rwa [hrow] at hread

theorem FollowsReads.error_of_fails {o : EStateM.Result Err State α} {before after : List Reg}
    (h : FollowsReads o (before ++ r :: after) s) (hread : s.readsAll before t) (hfail : t.readFails r e u) :
    o = .error e u := by
  induction before generalizing s with
  | nil =>
    obtain ⟨hfails, -⟩ := h
    rw [State.readsAll_nil] at hread
    exact hfails e u (hread ▸ hfail)
  | cons q before ih =>
    obtain ⟨v, w, hq, hrest⟩ := hread
    exact ih (h.2 v w hq) hrest

theorem Op.readsInTurn_pure (a : α) : Op.ReadsInTurn s [] (pure a) := fun _ _ => ⟨a, rfl⟩

theorem Op.readsInTurn_get : Op.ReadsInTurn s [] (get : Op State) := fun t _ => ⟨t, rfl⟩

theorem cacheRead_readsInTurn (hk : s.cacheReg r = some k) : Op.ReadsInTurn s [r] (cacheRead k.desc) :=
  fun _ h => ⟨fun _ _ => h.run_error hk, fun v _ hr => ⟨v, h.run hk hr⟩⟩

theorem FollowsReads.bind {x : Op α} {f : α → Op β} {t₀ : State} (h : FollowsReads (x t₀) l t)
    (ht : s.AfterReads t) (hf : ∀ a, Op.ReadsInTurn s m (f a)) : FollowsReads ((x >>= f) t₀) (l ++ m) t := by
  induction l generalizing t with
  | nil =>
    obtain ⟨a, hrun⟩ := h
    simpa only [Op.bind_run, hrun, List.nil_append] using hf a t ht
  | cons r l ih =>
    obtain ⟨hfails, hreads⟩ := h
    refine ⟨fun e u hr => ?_, fun v u hr => ih (hreads v u hr) (ht.after_read hr)⟩
    rw [Op.bind_run, hfails e u hr]

/-- One operation after another reads the registers of the first and then those of the second. -/
theorem Op.readsInTurn_bind {x : Op α} {f : α → Op β} (hx : Op.ReadsInTurn s l x)
    (hf : ∀ a, Op.ReadsInTurn s m (f a)) : Op.ReadsInTurn s (l ++ m) (x >>= f) :=
  fun t ht => (hx t ht).bind ht hf

/-- The first read that fails is the answer, with the state it leaves (rules R147, R148). -/
theorem Op.ReadsInTurn.serve_fails {x : Op Response} {before after : List Reg}
    (hx : Op.ReadsInTurn s (before ++ r :: after) x) (ht : s.AfterReads t) (hread : t.readsAll before u)
    (hfail : u.readFails r e w) : serve t x = w.answered e.response :=
  serve_error t x ((hx t ht).error_of_fails hread hfail)

theorem readCfg_readsInTurn (hk : s.cacheReg .negPwrFsrLat = some k) (c : Fin 4) :
    Op.ReadsInTurn s [.negPwrFsrLat] (readCfg k.desc c) :=
  Op.readsInTurn_bind (cacheRead_readsInTurn hk) fun _ =>
    Op.readsInTurn_bind Op.readsInTurn_get fun _ => Op.readsInTurn_pure _

theorem readAccMode_readsInTurn (hk : s.cacheReg r = some k) (c : Fin 4) :
    Op.ReadsInTurn s [r] (readAccMode k.desc c) :=
  Op.readsInTurn_bind (cacheRead_readsInTurn hk) fun _ => Op.readsInTurn_pure _

theorem cfgResult_readsInTurn (hk : s.cacheReg r = some k) (f : CfgFlags) (pos : Nat) :
    Op.ReadsInTurn s [r] (cfgResult k.desc f pos) :=
  Op.readsInTurn_bind (cacheRead_readsInTurn hk) fun _ => Op.readsInTurn_pure _

section Measurement
variable {kraw : CacheReg} (hk : s.cacheReg .negPwrFsrLat = some k) (hkraw : s.cacheReg r = some kraw) (c : Fin 4)
include hk hkraw

/-- A measurement reads the configuration and then its register, whatever it computes from them (rule R127). -/
theorem measurement_readsInTurn {f : CfgFlags × CfgFlags → Value → Op α}
    (hf : ∀ x v, Op.ReadsInTurn s [] (f x v)) :
    Op.ReadsInTurn s [.negPwrFsrLat, r] (readCfg k.desc c >>= fun x => cacheRead kraw.desc >>= f x) :=
  Op.readsInTurn_bind (readCfg_readsInTurn hk c) fun x =>
    Op.readsInTurn_bind (cacheRead_readsInTurn hkraw) (hf x)

theorem vbusValue_readsInTurn : Op.ReadsInTurn s [.negPwrFsrLat, r] (vbusValue c k.desc kraw.desc) :=
  measurement_readsInTurn hk hkraw c fun _ _ =>
    Op.readsInTurn_bind Op.readsInTurn_get fun _ => Op.readsInTurn_pure _

theorem vsenseValue_readsInTurn : Op.ReadsInTurn s [.negPwrFsrLat, r] (vsenseValue c k.desc kraw.desc) :=
  measurement_readsInTurn hk hkraw c fun _ _ => Op.readsInTurn_pure _

theorem vaccValue_readsInTurn (mode : BitVec 2) :
    Op.ReadsInTurn s [.negPwrFsrLat, r] (vaccValue c mode k.desc kraw.desc) :=
  measurement_readsInTurn hk hkraw c fun _ _ =>
    Op.readsInTurn_bind Op.readsInTurn_get fun _ => Op.readsInTurn_pure _

theorem vsenseResult_readsInTurn : Op.ReadsInTurn s [.negPwrFsrLat, r] (vsenseResult c k.desc kraw.desc) :=
  Op.readsInTurn_bind (vsenseValue_readsInTurn hk hkraw c) fun _ => Op.readsInTurn_pure _

theorem currentResult_readsInTurn : Op.ReadsInTurn s [.negPwrFsrLat, r] (currentResult c k.desc kraw.desc) :=
  Op.readsInTurn_bind (vsenseValue_readsInTurn hk hkraw c) fun _ =>
    Op.readsInTurn_bind Op.readsInTurn_get fun _ => Op.readsInTurn_pure _

end Measurement

end ReadsInTurn

/-! The operations: how a chain of reads that answer runs. -/

section Runs
variable {α : Type} {s t u : State} {r : Reg} {b : Byte} {c : Fin 4} {cfg raw : Value} {kcfg kraw : CacheReg}

/-- An operation goes on from the state its first step leaves. -/
theorem serve_bind_run {x : Op α} {a : α} (h : x s = .ok a t) (f : α → Op Response) :
    serve s (x >>= f) = serve t (f a) := by
  simp only [serve, Op.bind_run, h]

/-- An LSB operation goes on with the channel's flags from the state the configuration read leaves. -/
theorem cfgOp_readCfg (h : s.serves b c) (hcfg : s.reads .negPwrFsrLat cfg t)
    (f : Fin 4 → CfgFlags × CfgFlags → Op Response) :
    cfgOp b s (fun c d => readCfg d c >>= f c) =
      serve t (f c (voltageFlags s.params c cfg, currentFlags s.params c cfg)) := by
  obtain ⟨k, hk, hop⟩ := cfgOp_serves h
  rw [hop]
  exact serve_bind_run ((State.AfterReads.refl s).readCfg_run hk hcfg c) _

/-- A measurement computes from the channel's flags and the raw value, in the state the two reads leave. -/
theorem measurement_run (hkcfg : s.cacheReg .negPwrFsrLat = some kcfg) (hkraw : s.cacheReg r = some kraw)
    (hcfg : s.reads .negPwrFsrLat cfg t) (hraw : t.reads r raw u) (f : CfgFlags × CfgFlags → Value → Op α) :
    (readCfg kcfg.desc c >>= fun x => cacheRead kraw.desc >>= f x) s =
      f (voltageFlags s.params c cfg, currentFlags s.params c cfg) raw u := by
  have hfirst := State.AfterReads.refl s
  simp only [Op.bind_run, hfirst.readCfg_run hkcfg hcfg, (hfirst.after_read hcfg).run hkraw hraw]

end Runs

/-! LSB.VBUS, LSB.VSENSE and LSB.POWER (rules R123 to R125). -/

theorem baseScale_eq (h : Handle) : h.baseScale = F64.i2f (if h.isHighRes then 32 else 9) := by
  cases hres : h.isHighRes <;> simp [Handle.baseScale, hres, F64.lit]

/-- Settles O36: one read, and then the factor from the handle, which the read keeps. -/
theorem lsbOperations : Obligations.LsbOperations := by
  unfold Obligations.LsbOperations
  intro s t b c cfg h hcfg v i base steps
  have hhandle : t.handle = s.handle := ((State.AfterReads.refl s).after_read hcfg).handle
  have hbase : base = t.handle.baseScale := by rw [hhandle, baseScale_eq]
  have hsteps : steps = lsbSteps := rfl
  rw [hsteps, hbase, ← hhandle]
  refine ⟨?_, ?_, ?_⟩
  · rw [exec, execLsbVbus, cfgOp_readCfg h hcfg]
    rfl
  · rw [exec, execLsbVsense, cfgOp_readCfg h hcfg]
    rfl
  · rw [exec, execLsbPower, cfgOp_readCfg h hcfg]
    rfl

/-! GET.ACCMODE and GET.FS: one read each. -/

/-- A 2-bit code as a word. -/
theorem setWidth_codeAt (v : Word) (position : Nat) :
    (BitVec.ofNat 2 (codeAt v position)).setWidth 64 = BitVec.ofNat 64 (codeAt v position) := by
  have hlt := codeAt_lt v position
  apply BitVec.eq_of_toNat_eq
  simp only [BitVec.toNat_setWidth, BitVec.toNat_ofNat]
  omega

/-- Settles O38: one read of the register that `P_ACCMODE_REG` names, and its code. -/
theorem accumulatorModeReading : Obligations.AccumulatorModeReading := by
  unfold Obligations.AccumulatorModeReading
  intro s t b c acc h hread
  obtain ⟨k, hk, hexec⟩ := execGetAccmode_serves h
  have hmode := (State.AfterReads.refl s).readAccMode_run hk hread c
  rw [exec, hexec, serve_bind_pure hmode, setWidth_codeAt]

/-- Settles O44: one read, and then the function of FSDEC. -/
theorem sampleFrequencyReading : Obligations.SampleFrequencyReading := by
  unfold Obligations.SampleFrequencyReading
  refine fun s t ctrl => ⟨fun hlegal hinit hread => ?_, whenInit_fail⟩
  obtain ⟨k, hk, hexec⟩ := execGetFs_serves hlegal hinit
  have hafter := (State.AfterReads.refl s).after_read hread
  rw [exec, hexec, serve_bind_run ((State.AfterReads.refl s).run hk hread), ← hafter.params, ← hafter.handle]
  rfl

/-! The measurements: the configuration, then one register (rules R134 to R140). -/

section Measurements
variable {s t u : State} {b : Byte} {c : Fin 4} {cfg raw : Value} {reg : Fin 4 → Reg}

/-- The voltage ratio of a bus voltage is applied under every scope but NONE (rule R126). -/
theorem ratio_vbus (p : Params) (h : Handle) (c : Fin 4) (x : F64) :
    ratio p h .vbus c x = if p.vratioScope = .none then x else F64.mul x h.voltageRatio[c] := by
  cases hscope : p.vratioScope <;> simp [ratio, hscope]

theorem measureOp_vbusValue (h : s.serves b c) (hreg : (reg c, .u16) ∈ namedRegs)
    (hcfg : s.reads .negPwrFsrLat cfg t) (hraw : t.reads (reg c) raw u) :
    let v := voltageFlags s.params c cfg
    let x := scaleRaw .w16 v.bipolar raw.ival (vbusLsb s.handle v)
    measureOp b s reg vbusValue = u.answered { fval := ratio s.params s.handle .vbus c x } := by
  obtain ⟨kcfg, kraw, hkcfg, hkraw, hop⟩ := measureOp_serves h hreg rfl
  have hafter := ((State.AfterReads.refl s).after_read hcfg).after_read hraw
  rw [hop]
  refine serve_ok _ _ ((measurement_run hkcfg hkraw hcfg hraw _).trans ?_)
  simp only [Op.bind_run, Op.get_run, Op.pure_run, hafter.handle, hafter.params]

theorem vsenseValue_run {kcfg kraw : CacheReg} (hkcfg : s.cacheReg .negPwrFsrLat = some kcfg)
    (hkraw : s.cacheReg (reg c) = some kraw) (hcfg : s.reads .negPwrFsrLat cfg t)
    (hraw : t.reads (reg c) raw u) :
    vsenseValue c kcfg.desc kraw.desc s = .ok (scaleRaw .w16 (currentFlags s.params c cfg).bipolar raw.ival
      (vsenseLsb (currentFlags s.params c cfg))) u :=
  measurement_run hkcfg hkraw hcfg hraw _

/-- A sense voltage, and a current as that voltage over the sense resistance (rules R136, R138). -/
theorem measureOp_vsenseValue (h : s.serves b c) (hreg : (reg c, .u16) ∈ namedRegs)
    (hcfg : s.reads .negPwrFsrLat cfg t) (hraw : t.reads (reg c) raw u) :
    let i := currentFlags s.params c cfg
    let x := scaleRaw .w16 i.bipolar raw.ival (vsenseLsb i)
    measureOp b s reg vsenseResult = u.answered { fval := x } ∧
    measureOp b s reg currentResult = u.answered { fval := F64.div x s.handle.senseResistance[c] } := by
  obtain ⟨kcfg, kraw, hkcfg, hkraw, hop⟩ := measureOp_serves h hreg rfl
  have hafter := ((State.AfterReads.refl s).after_read hcfg).after_read hraw
  have hvalue := vsenseValue_run hkcfg hkraw hcfg hraw
  rw [hop, hop, ← hafter.handle]
  exact ⟨serve_bind_pure hvalue _, serve_bind_run hvalue _⟩

theorem execGetPower_reads (h : s.serves b c) (hcfg : s.reads .negPwrFsrLat cfg t)
    (hraw : t.reads (.vpower c) raw u) :
    let v := voltageFlags s.params c cfg
    let i := currentFlags s.params c cfg
    let x := scaleRaw .w32 (v.bipolar || i.bipolar) raw.ival (powerLsb s.handle c v i)
    execGetPower b s = u.answered { fval := ratio s.params s.handle .vderived c x } := by
  obtain ⟨-, -, -, -, -, hreg⟩ := namedRegs_channel c
  obtain ⟨kcfg, kraw, hkcfg, hkraw, hop⟩ := measureOp_serves h hreg rfl
  have hafter := ((State.AfterReads.refl s).after_read hcfg).after_read hraw
  rw [execGetPower, hop]
  refine serve_ok _ _ ((measurement_run hkcfg hkraw hcfg hraw _).trans ?_)
  simp only [Op.bind_run, Op.get_run, Op.pure_run, hafter.handle, hafter.params]

end Measurements

/-- Settles O39: one operation on either register, then the sign rule and the scope of the ratio. -/
theorem busVoltageReadings : Obligations.BusVoltageReadings := by
  unfold Obligations.BusVoltageReadings
  intro s t u b c cfg raw i r hi h hcfg hraw hlt v x
  obtain ⟨-, hvbus, -, hvbusAvg, -, -⟩ := namedRegs_channel c
  have hx : x = scaleRaw .w16 v.bipolar raw.ival (vbusLsb s.handle v) := by
    rw [scaleRaw, interp_eq_readRaw .w16 _ hlt]
    rfl
  rw [← ratio_vbus, hx]
  simp only [List.mem_cons, Prod.mk.injEq, List.not_mem_nil, or_false] at hi
  rcases hi with ⟨rfl, rfl⟩ | ⟨rfl, rfl⟩
  · exact measureOp_vbusValue (reg := .vbus) h hvbus hcfg hraw
  · exact measureOp_vbusValue (reg := .vbusAvg) h hvbusAvg hcfg hraw

/-- Settles O40: the two operations on either register, then the sign rule. -/
theorem senseVoltageAndCurrentReadings : Obligations.SenseVoltageAndCurrentReadings := by
  unfold Obligations.SenseVoltageAndCurrentReadings
  intro s t u b c cfg raw r volts amps hi h hcfg hraw hlt i x
  obtain ⟨-, -, hvsense, -, hvsenseAvg, -⟩ := namedRegs_channel c
  have hx : x = scaleRaw .w16 i.bipolar raw.ival (vsenseLsb i) := by
    rw [scaleRaw, interp_eq_readRaw .w16 _ hlt]
    rfl
  rw [hx]
  simp only [List.mem_cons, Prod.mk.injEq, List.not_mem_nil, or_false] at hi
  rcases hi with ⟨rfl, rfl, rfl⟩ | ⟨rfl, rfl, rfl⟩
  · exact measureOp_vsenseValue (reg := .vsense) h hvsense hcfg hraw
  · exact measureOp_vsenseValue (reg := .vsenseAvg) h hvsenseAvg hcfg hraw

/-- Settles O41: two reads, then the sign rule and the scope of the ratio. -/
theorem powerReading : Obligations.PowerReading := by
  unfold Obligations.PowerReading
  intro s t u b c cfg raw h hcfg hraw hlt v i x
  have hx : x = scaleRaw .w32 (v.bipolar || i.bipolar) raw.ival (powerLsb s.handle c v i) := by
    rw [scaleRaw, interp_eq_readRaw .w32 _ hlt]
    rfl
  rw [← ratio_vderived, hx]
  exact execGetPower_reads h hcfg hraw

/-! GET.ENERGY (rules R144, R145): the model's operation, cut at its two answers NaN. -/

/-- The energy from the accumulator and the sample frequency. -/
def energyFromAccumulator (c : Fin 4) (fs : F64) (cfg raw : Descriptor) : Op Response :=
  vaccValue c 0 cfg raw >>= fun x => pure { fval := F64.mul (F64.div x.1 fs) F64.kEnergy }

/-- GET.ENERGY in accumulator mode 0. -/
def energyInModeZero (c : Fin 4) (ctrl cfg raw : Descriptor) : Op Response := do
  let v ← cacheRead ctrl
  let t ← get
  if smClassOf t.params (modeCode v.ival) = .singleShot then pure { fval := .nan }
  else energyFromAccumulator c (sampleFreq t.params v.ival t.handle.channelCount.val) cfg raw

section Energy
variable {s t u : State} {b : Byte} {c : Fin 4} {acc ctrl : Value} {kctrl : CacheReg}

theorem execGetEnergy_serves (h : s.serves b c) :
    ∃ kacc kctrl kcfg kraw, s.cacheReg (accModeReg s.params) = some kacc ∧
      s.cacheReg .ctrlLat = some kctrl ∧ s.cacheReg .negPwrFsrLat = some kcfg ∧
      s.cacheReg (.vacc c) = some kraw ∧
      execGetEnergy b s = serve s (readAccMode kacc.desc c >>= fun mode =>
        if mode ≠ 0 then pure { fval := .nan } else energyInModeZero c kctrl.desc kcfg.desc kraw.desc) := by
  obtain ⟨kacc, hkacc, hopacc⟩ := withInt_accMode h.1
  obtain ⟨kctrl, hkctrl, hopctrl⟩ := withInt_ctrlLat h.1
  obtain ⟨kcfg, hkcfg, hopcfg⟩ := withInt_negPwrFsrLat h.1
  obtain ⟨kraw, hkraw, hopraw⟩ := withInt_named h.1 (namedRegs_channel c).1 rfl
  refine ⟨kacc, kctrl, kcfg, kraw, hkacc, hkctrl, hkcfg, hkraw, ?_⟩
  rw [execGetEnergy, checkCh_serves h, hopacc, hopctrl, hopcfg, hopraw]
  rfl

theorem ofNat_codeAt_eq_zero_iff (v : Word) (position : Nat) :
    BitVec.ofNat 2 (codeAt v position) = 0 ↔ codeAt v position = 0 := by
  rw [← BitVec.toNat_inj, BitVec.toNat_ofNat, Nat.mod_eq_of_lt (codeAt_lt v position)]
  rfl

/-- In mode 0 the control register is read, and then its sample mode decides. -/
theorem State.AfterReads.serve_energyInModeZero (h : s.AfterReads t) (hk : s.cacheReg .ctrlLat = some kctrl)
    (hctrl : t.reads .ctrlLat ctrl u) (cfg raw : Descriptor) :
    serve t (energyInModeZero c kctrl.desc cfg raw) =
      if smClassOf s.params (modeCode ctrl.ival) = .singleShot then u.answered { fval := .nan }
      else serve u (energyFromAccumulator c
        (sampleFreq s.params ctrl.ival s.handle.channelCount.val) cfg raw) := by
  have hafter := h.after_read hctrl
  rw [energyInModeZero, serve_bind_run (h.run hk hctrl), serve_bind_run (Op.get_run u), hafter.params,
    hafter.handle, apply_ite (serve u)]
  rfl

theorem energyFromAccumulator_readsInTurn {kcfg kraw : CacheReg} (hkcfg : s.cacheReg .negPwrFsrLat = some kcfg)
    (hkraw : s.cacheReg (.vacc c) = some kraw) (fs : F64) :
    Op.ReadsInTurn s [.negPwrFsrLat, .vacc c] (energyFromAccumulator c fs kcfg.desc kraw.desc) :=
  Op.readsInTurn_bind (vaccValue_readsInTurn hkcfg hkraw c 0) fun _ => Op.readsInTurn_pure _

end Energy

/-- Settles O45: the accumulator mode, the control register, and the accumulator in power units, each read only
where the answer needs it. -/
theorem energyReading : Obligations.EnergyReading := by
  unfold Obligations.EnergyReading
  intro s t u w x b c acc ctrl cfg raw h hacc mode
  obtain ⟨kacc, kctrl, kcfg, kraw, hkacc, hkctrl, hkcfg, hkraw, hexec⟩ := execGetEnergy_serves h
  have hafter := (State.AfterReads.refl s).after_read hacc
  have hiff : BitVec.ofNat 2 mode = 0 ↔ mode = 0 := ofNat_codeAt_eq_zero_iff _ _
  rw [exec, hexec, serve_bind_run ((State.AfterReads.refl s).readAccMode_run hkacc hacc c)]
  refine ⟨fun hmode => ?_, fun hmode hctrl hclass => ?_, fun hmode hctrl hclass hcfg hraw => ?_⟩
  · rw [if_pos (mt hiff.mp hmode)]
    rfl
  · rw [if_neg (not_not.mpr (hiff.mpr hmode)), hafter.serve_energyInModeZero hkctrl hctrl, if_pos hclass]
  · have hvalue := (hafter.after_read hctrl).vaccValue_run hkcfg hkraw hcfg hraw 0
    rw [if_neg (not_not.mpr (hiff.mpr hmode)), hafter.serve_energyInModeZero hkctrl hctrl, if_neg hclass,
      energyFromAccumulator, serve_bind_pure hvalue]
    rfl

/-- The constant is the rounding of one million over 3600 (rule R144). -/
theorem kEnergy_eq_round : F64.kEnergy = F64.round false (10 ^ 6 * F64.one) 3600 := by decide +kernel

/-- Settles O46: what is rounded once is the nearest. The numerator, a number of over a thousand bits, stays a
variable, so that nothing evaluates it again. -/
theorem energyConstant : Obligations.EnergyConstant := by
  unfold Obligations.EnergyConstant
  have hround := kEnergy_eq_round
  generalize 10 ^ 6 * F64.one = n at hround ⊢
  refine ⟨rfl, ?_⟩
  rw [hround]
  exact round_isNearest false n (by decide)

/-! A read that fails (rules R127, R147, R148). -/

section Failure
variable {s : State} {b : Byte} {c : Fin 4} {l : List Reg}

theorem cfgOp_readsInTurn (h : s.serves b c) {op : Fin 4 → Descriptor → Op Response}
    (hop : ∀ k, s.cacheReg .negPwrFsrLat = some k → Op.ReadsInTurn s l (op c k.desc)) :
    ∃ x, cfgOp b s op = serve s x ∧ Op.ReadsInTurn s l x := by
  obtain ⟨k, hk, heq⟩ := cfgOp_serves h
  exact ⟨_, heq op, hop k hk⟩

theorem measureOp_readsInTurn (h : s.serves b c) {reg : Fin 4 → Reg} {codec : Codec}
    (hreg : (reg c, codec) ∈ namedRegs) (hint : codec.isInt = true)
    {op : Fin 4 → Descriptor → Descriptor → Op Response}
    (hop : ∀ kcfg kraw, s.cacheReg .negPwrFsrLat = some kcfg → s.cacheReg (reg c) = some kraw →
      Op.ReadsInTurn s l (op c kcfg.desc kraw.desc)) :
    ∃ x, measureOp b s reg op = serve s x ∧ Op.ReadsInTurn s l x := by
  obtain ⟨kcfg, kraw, hkcfg, hkraw, heq⟩ := measureOp_serves h hreg hint
  exact ⟨_, heq op, hop kcfg kraw hkcfg hkraw⟩

theorem execGetVacc_readsInTurn (h : s.serves b c) :
    ∃ x, execGetVacc b s = serve s x ∧
      Op.ReadsInTurn s [accModeReg s.params, .negPwrFsrLat, .vacc c] x := by
  obtain ⟨kacc, hkacc, hopacc⟩ := withInt_accMode h.1
  obtain ⟨kcfg, hkcfg, hopcfg⟩ := withInt_negPwrFsrLat h.1
  obtain ⟨kraw, hkraw, hopraw⟩ := withInt_named h.1 (namedRegs_channel c).1 rfl
  refine ⟨_, by rw [execGetVacc, checkCh_serves h, hopacc, hopcfg, hopraw], ?_⟩
  exact Op.readsInTurn_bind (readAccMode_readsInTurn hkacc c) fun mode =>
    Op.readsInTurn_bind (vaccValue_readsInTurn hkcfg hkraw c mode) fun _ => Op.readsInTurn_pure _

theorem execGetAccmode_readsInTurn (h : s.serves b c) :
    ∃ x, execGetAccmode b s = serve s x ∧ Op.ReadsInTurn s [accModeReg s.params] x := by
  obtain ⟨k, hk, hexec⟩ := execGetAccmode_serves h
  exact ⟨_, hexec, Op.readsInTurn_bind (readAccMode_readsInTurn hk c) fun _ => Op.readsInTurn_pure _⟩

/-- The registers that each telemetry operation but GET.FS and GET.ENERGY reads, in turn. -/
def telemetryReads (p : Params) (b : Byte) (c : Fin 4) : List (Instr × List Reg) :=
  [(.lsbVbus b, [.negPwrFsrLat]), (.lsbVsense b, [.negPwrFsrLat]), (.lsbPower b, [.negPwrFsrLat]),
   (.getVcfg b, [.negPwrFsrLat, .negPwrFsrLat]), (.getIcfg b, [.negPwrFsrLat, .negPwrFsrLat]),
   (.getAccmode b, [accModeReg p]),
   (.getVbus b, [.negPwrFsrLat, .vbus c]), (.getVbusavg b, [.negPwrFsrLat, .vbusAvg c]),
   (.getVsense b, [.negPwrFsrLat, .vsense c]), (.getVsenseavg b, [.negPwrFsrLat, .vsenseAvg c]),
   (.getCurrent b, [.negPwrFsrLat, .vsense c]), (.getCurrentavg b, [.negPwrFsrLat, .vsenseAvg c]),
   (.getPower b, [.negPwrFsrLat, .vpower c]),
   (.getVacc b, [accModeReg p, .negPwrFsrLat, .vacc c])]

/-- Past its checks a telemetry operation reads its registers in turn (rule R127). -/
theorem exec_readsInTurn (h : s.serves b c) {i : Instr} (hi : (i, l) ∈ telemetryReads s.params b c) :
    ∃ x, exec i s = serve s x ∧ Op.ReadsInTurn s l x := by
  obtain ⟨-, hvbus, hvsense, hvbusAvg, hvsenseAvg, hvpower⟩ := namedRegs_channel c
  simp only [telemetryReads, List.mem_cons, Prod.mk.injEq, List.not_mem_nil, or_false] at hi
  rcases hi with ⟨rfl, rfl⟩ | ⟨rfl, rfl⟩ | ⟨rfl, rfl⟩ | ⟨rfl, rfl⟩ | ⟨rfl, rfl⟩ | ⟨rfl, rfl⟩ | ⟨rfl, rfl⟩ |
    ⟨rfl, rfl⟩ | ⟨rfl, rfl⟩ | ⟨rfl, rfl⟩ | ⟨rfl, rfl⟩ | ⟨rfl, rfl⟩ | ⟨rfl, rfl⟩ | ⟨rfl, rfl⟩ <;> rw [exec]
  · exact cfgOp_readsInTurn h fun k hk => Op.readsInTurn_bind (readCfg_readsInTurn hk c) fun _ =>
      Op.readsInTurn_bind Op.readsInTurn_get fun _ => Op.readsInTurn_pure _
  · exact cfgOp_readsInTurn h fun k hk => Op.readsInTurn_bind (readCfg_readsInTurn hk c) fun _ =>
      Op.readsInTurn_pure _
  · exact cfgOp_readsInTurn h fun k hk => Op.readsInTurn_bind (readCfg_readsInTurn hk c) fun _ =>
      Op.readsInTurn_bind Op.readsInTurn_get fun _ => Op.readsInTurn_pure _
  · exact cfgOp_readsInTurn h fun k hk => Op.readsInTurn_bind (readCfg_readsInTurn hk c) fun _ =>
      cfgResult_readsInTurn hk _ _
  · exact cfgOp_readsInTurn h fun k hk => Op.readsInTurn_bind (readCfg_readsInTurn hk c) fun _ =>
      cfgResult_readsInTurn hk _ _
  · exact execGetAccmode_readsInTurn h
  · exact measureOp_readsInTurn h hvbus rfl fun _ _ hk hkraw => vbusValue_readsInTurn hk hkraw c
  · exact measureOp_readsInTurn h hvbusAvg rfl fun _ _ hk hkraw => vbusValue_readsInTurn hk hkraw c
  · exact measureOp_readsInTurn h hvsense rfl fun _ _ hk hkraw => vsenseResult_readsInTurn hk hkraw c
  · exact measureOp_readsInTurn h hvsenseAvg rfl fun _ _ hk hkraw => vsenseResult_readsInTurn hk hkraw c
  · exact measureOp_readsInTurn h hvsense rfl fun _ _ hk hkraw => currentResult_readsInTurn hk hkraw c
  · exact measureOp_readsInTurn h hvsenseAvg rfl fun _ _ hk hkraw => currentResult_readsInTurn hk hkraw c
  · exact measureOp_readsInTurn h hvpower rfl fun _ _ hk hkraw => measurement_readsInTurn hk hkraw c fun _ _ =>
      Op.readsInTurn_bind Op.readsInTurn_get fun _ => Op.readsInTurn_pure _
  · exact execGetVacc_readsInTurn h

end Failure

/-- Settles O47: each operation reads registers in turn, and the first read that fails is its answer; GET.ENERGY
does so once the reads before have decided that it goes on. -/
theorem telemetryReadFailure : Obligations.TelemetryReadFailure := by
  unfold Obligations.TelemetryReadFailure
  refine ⟨fun s t u b c e i before after r hi h hread hfail => ?_, fun s u e hlegal hinit hfail => ?_,
    fun s b c h => ?_⟩
  · obtain ⟨x, hexec, hx⟩ := exec_readsInTurn h hi
    exact hexec.trans (hx.serve_fails (.refl s) hread hfail)
  · obtain ⟨k, hk, hexec⟩ := execGetFs_serves hlegal hinit
    rw [exec, hexec]
    exact serve_bind_error ((State.AfterReads.refl s).run_error hk hfail) _
  · obtain ⟨kacc, kctrl, kcfg, kraw, hkacc, hkctrl, hkcfg, hkraw, hexec⟩ := execGetEnergy_serves h
    have hfirst := State.AfterReads.refl s
    have hmode := readAccMode_readsInTurn hkacc c s hfirst
    have henergy (fs : F64) := energyFromAccumulator_readsInTurn hkcfg hkraw fs
    simp only [exec, hexec]
    refine ⟨fun e u hfail => serve_bind_error (hmode.error_of_fails (before := []) rfl hfail) _,
      fun acc t hacc hzero => ?_⟩
    have ht := hfirst.after_read hacc
    rw [serve_bind_run (hfirst.readAccMode_run hkacc hacc c),
      if_neg (not_not.mpr ((ofNat_codeAt_eq_zero_iff _ _).mpr hzero))]
    refine ⟨fun e u hfail => serve_bind_error (ht.run_error hkctrl hfail) _, fun ctrl w hctrl hclass => ?_⟩
    have hw := ht.after_read hctrl
    rw [ht.serve_energyInModeZero hkctrl hctrl, if_neg hclass]
    exact ⟨fun e u hfail => (henergy _).serve_fails (before := []) hw rfl hfail, fun cfg x hcfg e u hfail =>
      (henergy _).serve_fails (before := [.negPwrFsrLat]) hw ⟨cfg, x, hcfg, rfl⟩ hfail⟩

end Sys2Proof.Machine
end

section
/-! SUPPORT. Proofs of the statements of spec/60_exceptions.md. First the two kinds of step an operation is made
of: checks, which change nothing, and transactions, which leave an event on the bus before they fail; then the
ways in which an operation can end, said once for all operations; then the statements. -/

namespace Sys2Proof.Machine

/-! The answer of an operation that succeeds, and of one that raises. -/

/-- A success: status 0, no payload, and no more bytes than the port carries when the state `s` of the block
keeps its invariant (rules R57, R146). -/
structure Response.Success (s : State) (r : Response) : Prop where
  status : r.status = 0
  payload : r.payload = none
  bytes : s.inv = true → r.bytes.length ≤ 8

/-- The error is of a kind that a transaction, or the bytes it answered, can end in: `TransportError`,
`LengthMismatch` or `UnknownProductId` (rules R149, R150, R152). -/
def Err.ofTransaction (e : Err) : Prop := e.status ∈ [1, 2, 4]

/-- `e`, raised with the state `t`, is a transaction's, whose event is on the bus since `s`. -/
structure State.FailedOnBus (s : State) (e : Err) (t : State) : Prop where
  error : e.ofTransaction
  event : s.trace.length < t.trace.length

section Answers
variable {s : State} {r : Response} {e : Err}

/-- A response that sets numbers, tag and flag only. -/
theorem Response.success_of_numbers {ival : Word} {fval : F64} {tag : BitVec 2} {flag : Bool} :
    Response.Success s { ival := ival, fval := fval, tag := tag, flag := flag } :=
  ⟨rfl, rfl, fun _ => Nat.zero_le 8⟩

theorem Err.status_le (e : Err) : e.status.toNat ≤ 8 := by
  cases e <;> simp [Err.status]

theorem Err.payload_isSome_iff (e : Err) : e.payload.isSome = true ↔ e.status = 1 := by
  cases e <;> simp [Err.payload, Err.status]

theorem Err.status_eq_seven_iff (e : Err) : e.status = 7 ↔ e = .notInitialised := by
  cases e <;> simp [Err.status]

theorem Err.ofTransaction_transportError (p : Payload) : (Err.transportError p).ofTransaction := by
  simp [Err.ofTransaction, Err.status]

/-- A decode fails on the length only. -/
theorem Err.ofTransaction_of_decodeWire {k : Codec} {b : List Byte} (h : decodeWire k b = .error e) :
    e.ofTransaction := by
  rw [(decodeWire_error h).2]
  simp [Err.ofTransaction, Err.status]

theorem Err.ofTransaction_unknownProductId (id : Byte) : (Err.unknownProductId id).ofTransaction := by
  simp [Err.ofTransaction, Err.status]

/-- No error of the kinds that come before any transaction (rules R151, R153 to R156) is one of these. -/
theorem Err.ofTransaction.status_notMem (h : e.ofTransaction) : e.status ∉ [3, 5, 6, 7, 8] := by
  simp only [Err.ofTransaction, List.mem_cons, List.not_mem_nil, or_false] at h
  rcases h with h | h | h <;> rw [h] <;> decide

theorem Err.ofTransaction.ne_notInitialised (h : e.ofTransaction) : e ≠ .notInitialised := by
  rintro rfl
  exact h.status_notMem (by decide)

end Answers

/-! Checks. -/

/-- In state `s` the step changes nothing: it answers a result that satisfies `Q`, or raises an error other than
`NotInitialised`. -/
def Op.Checks {α : Type} (s : State) (Q : α → Prop) (x : Op α) : Prop :=
  (∃ a, x s = .ok a s ∧ Q a) ∨ ∃ e, x s = .error e s ∧ e ≠ .notInitialised

section Checks
variable {α β : Type} {s : State}

theorem Op.checks_pure {Q : α → Prop} {a : α} (h : Q a) : Op.Checks s Q (pure a) := .inl ⟨a, rfl, h⟩

theorem Op.checks_throw {Q : α → Prop} {e : Err} (h : e ≠ .notInitialised) :
    Op.Checks s Q (throw e : Op α) := .inr ⟨e, rfl, h⟩

theorem Op.checks_bind {P : α → Prop} {Q : β → Prop} {x : Op α} {f : α → Op β} (hx : Op.Checks s P x)
    (hf : ∀ a, P a → Op.Checks s Q (f a)) : Op.Checks s Q (x >>= f) := by
  rcases hx with ⟨a, hrun, ha⟩ | ⟨e, hrun, he⟩
  · rcases hf a ha with ⟨b, hrun', hb⟩ | ⟨e, hrun', he⟩
    · exact .inl ⟨b, by simp only [Op.bind_run, hrun, hrun'], hb⟩
    · exact .inr ⟨e, by simp only [Op.bind_run, hrun, hrun'], he⟩
  · exact .inr ⟨e, by simp only [Op.bind_run, hrun], he⟩

theorem Op.Checks.mono {P Q : α → Prop} {x : Op α} (hx : Op.Checks s P x) (h : ∀ a, P a → Q a) :
    Op.Checks s Q x :=
  hx.imp (fun ⟨a, hrun, ha⟩ => ⟨a, hrun, h a ha⟩) id

theorem failIf_checks {Q : Unit → Prop} {bad : Bool} {e : Err} (hQ : bad = false → Q ())
    (he : e ≠ .notInitialised) : Op.Checks s Q (failIf bad e) := by
  cases bad
  · exact Op.checks_pure (hQ rfl)
  · exact Op.checks_throw he

theorem needWidth_checks (width : Nat) (v : Word) : Op.Checks s (fun _ => True) (needWidth width v) :=
  failIf_checks (fun _ => trivial) (by simp)

theorem needCap_checks (cap : Byte) (v : Word) : Op.Checks s (fun _ => True) (needCap cap v) :=
  Op.checks_bind (Q := fun _ => True) (failIf_checks (Q := fun _ => True) (fun _ => trivial) (by simp)) fun _ _ =>
    needWidth_checks _ _

theorem needLegal_checks (ok : Bool) : Op.Checks s (fun _ => True) (needLegal ok) := by
  cases ok
  · exact .inr ⟨.illegalOperation s.port.word, by simp, by simp⟩
  · exact .inl ⟨(), by simp, trivial⟩

theorem decodeWire_checks (k : Codec) (b : List Byte) :
    Op.Checks s (fun v => decodeWire k b = .ok v) (liftCodec (decodeWire k b)) := by
  cases h : decodeWire k b with
  | ok v => exact Op.checks_pure rfl
  | error e => exact Op.checks_throw (Err.ofTransaction_of_decodeWire h).ne_notInitialised

theorem lookupAddr_checks (addr : Byte) :
    Op.Checks s (fun d => s.lookup addr = some d) (lookupAddr addr) := by
  cases h : s.lookup addr with
  | none => exact .inr ⟨.unknownRegister addr, by simp [h], by simp⟩
  | some d => exact .inl ⟨d, by simp [h], rfl⟩

theorem writeOperand_checks (k : Codec) (q : Request) : Op.Checks s (fun _ => True) (writeOperand k q) := by
  cases k with
  | void => exact Op.checks_throw (by simp)
  | u8 | pid | u16 | u32 => exact Op.checks_bind (needWidth_checks _ _) fun _ _ => Op.checks_pure trivial
  | u56 => exact Op.checks_pure trivial
  | ba n => exact (decodeWire_checks _ _).mono fun _ _ => trivial

end Checks

/-! Transactions. -/

/-- From every state the operation answers only results that satisfy `Q`, takes no event off the bus record, and
raises only the error of a transaction it issued. -/
structure Op.Transacts {α : Type} (Q : α → Prop) (x : Op α) : Prop where
  ok : ∀ {s a t}, x s = .ok a t → s.trace.length ≤ t.trace.length ∧ Q a
  error : ∀ {s e t}, x s = .error e t → s.FailedOnBus e t

section Transactions
variable {α β : Type} {s t : State}

theorem Op.transacts_pure {Q : α → Prop} {a : α} (h : Q a) : Op.Transacts Q (pure a) where
  ok hrun := by cases hrun; exact ⟨le_rfl, h⟩
  error hrun := by cases hrun

theorem Op.transacts_get : Op.Transacts (fun _ => True) (get : Op State) where
  ok hrun := by cases hrun; exact ⟨le_rfl, trivial⟩
  error hrun := by cases hrun

theorem Op.transacts_bind {P : α → Prop} {Q : β → Prop} {x : Op α} {f : α → Op β} (hx : Op.Transacts P x)
    (hf : ∀ a, P a → Op.Transacts Q (f a)) : Op.Transacts Q (x >>= f) where
  ok {s b t} hrun := by
    rw [Op.bind_run] at hrun
    cases hfirst : x s with
    | error e u => simp [hfirst] at hrun
    | ok a u =>
      obtain ⟨hle, ha⟩ := hx.ok hfirst
      obtain ⟨hle', hb⟩ := (hf a ha).ok (by simpa only [hfirst] using hrun)
      exact ⟨hle.trans hle', hb⟩
  error {s e t} hrun := by
    rw [Op.bind_run] at hrun
    cases hfirst : x s with
    | error e' u =>
      simp only [hfirst] at hrun
      cases hrun
      exact hx.error hfirst
    | ok a u =>
      obtain ⟨hle, ha⟩ := hx.ok hfirst
      have hfail := (hf a ha).error (by simpa only [hfirst] using hrun)
      exact ⟨hfail.error, hle.trans_lt hfail.event⟩

theorem State.FailedOnBus.of_afterEvent {e : Err} (he : e.ofTransaction) (event : BusEvent) :
    s.FailedOnBus e (s.afterEvent event) :=
  ⟨he, by simp⟩

theorem cacheRead_transacts (d : Descriptor) : Op.Transacts (fun _ => True) (cacheRead d) where
  ok {s v t} hrun := by
    rcases cacheRead_cases d s with
      ⟨w, -, h⟩ | ⟨-, ⟨p, -, h⟩ | ⟨b, -, ⟨e, -, h⟩ | ⟨w, -, h⟩⟩⟩ <;> rw [h] at hrun <;> cases hrun
    · exact ⟨le_rfl, trivial⟩
    · exact ⟨by split <;> simp, trivial⟩
  error {s e t} hrun := by
    rcases cacheRead_cases d s with
      ⟨w, -, h⟩ | ⟨-, ⟨p, -, h⟩ | ⟨b, -, ⟨e, hdecode, h⟩ | ⟨w, -, h⟩⟩⟩ <;> rw [h] at hrun <;> cases hrun
    · exact .of_afterEvent (Err.ofTransaction_transportError p) _
    · exact .of_afterEvent (Err.ofTransaction_of_decodeWire hdecode) _

theorem cacheWrite_transacts (d : Descriptor) (v : Value) : Op.Transacts (fun _ => True) (cacheWrite d v) where
  ok {s a t} hrun := by
    rcases cacheWrite_cases d v s with ⟨p, -, h⟩ | ⟨b, -, h⟩ <;> rw [h] at hrun <;> cases hrun
    exact ⟨by split <;> simp, trivial⟩
  error {s e t} hrun := by
    rcases cacheWrite_cases d v s with ⟨p, -, h⟩ | ⟨b, -, h⟩ <;> rw [h] at hrun <;> cases hrun
    exact .of_afterEvent (Err.ofTransaction_transportError p) _

/-- A Cache Register read or write that fails fills nothing (rules R108, R110). -/
theorem cacheRead_error_cache {d : Descriptor} {e : Err} (h : cacheRead d s = .error e t) :
    t.cache = s.cache := by
  rcases cacheRead_cases d s with
    ⟨w, -, hrun⟩ | ⟨-, ⟨p, -, hrun⟩ | ⟨b, -, ⟨e, -, hrun⟩ | ⟨w, -, hrun⟩⟩⟩ <;> rw [hrun] at h <;> cases h
  · exact s.draw_cache
  · exact s.draw_cache

theorem cacheWrite_error_cache {d : Descriptor} {v : Value} {e : Err} (h : cacheWrite d v s = .error e t) :
    t.cache = s.cache := by
  rcases cacheWrite_cases d v s with ⟨p, -, hrun⟩ | ⟨b, -, hrun⟩ <;> rw [hrun] at h <;> cases h
  exact s.draw_cache

/-- `Refresh` clears the flags first and then has one write to fail on (rule R115). -/
theorem refreshWith_transacts (cmd : Descriptor) {u : State} :
    Op.Transacts (Response.Success u) (refreshWith cmd) where
  ok {s r t} hrun := by
    rcases refreshWith_cases cmd s with ⟨p, -, h⟩ | ⟨b, -, h⟩ <;> rw [h] at hrun <;> cases hrun
    exact ⟨by simp only [State.log_trace, State.draw_trace, State.invalidateAll_trace, List.length_cons]; omega,
      Response.success_of_numbers⟩
  error {s e t} hrun := by
    rcases refreshWith_cases cmd s with ⟨p, -, h⟩ | ⟨b, -, h⟩ <;> rw [h] at hrun <;> cases hrun
    exact ⟨Err.ofTransaction_transportError p, by simp⟩

/-- INIT's read is a miss, since the flags were just cleared, so its event is on the bus before an unknown byte
is raised (rule R119). -/
theorem initWith_transacts (pid : Descriptor) {u : State} :
    Op.Transacts (Response.Success u) (initWith pid) where
  ok {s r t} hrun := by
    rw [initWith_run] at hrun
    cases hread : cacheRead pid s.uninit with
    | error e w => simp [hread] at hrun
    | ok v w =>
      simp only [hread] at hrun
      split at hrun <;> cases hrun
      exact ⟨((cacheRead_transacts pid).ok hread).1, Response.success_of_numbers⟩
  error {s e t} hrun := by
    rw [initWith_run] at hrun
    cases hread : cacheRead pid s.uninit with
    | error e' w =>
      simp only [hread] at hrun
      cases hrun
      have hfail := (cacheRead_transacts pid).error hread
      exact ⟨hfail.error, hfail.event⟩
    | ok v w =>
      obtain ⟨a, hevent⟩ := cacheRead_trace_of_miss (s := s.uninit) (d := pid) State.uninit_hit
      rw [Op.after_ok hread] at hevent
      simp only [hread] at hrun
      split at hrun <;> cases hrun
      exact ⟨Err.ofTransaction_unknownProductId _, by simp [hevent]⟩

end Transactions

/-! The telemetry operations past their checks: Cache Register reads and then the response (rule R127). -/

section Telemetry
variable {α : Type} {s : State}

theorem readCfg_transacts (cfg : Descriptor) (c : Fin 4) : Op.Transacts (fun _ => True) (readCfg cfg c) :=
  Op.transacts_bind (cacheRead_transacts cfg) fun _ _ =>
    Op.transacts_bind Op.transacts_get fun _ _ => Op.transacts_pure trivial

theorem readAccMode_transacts (acc : Descriptor) (c : Fin 4) :
    Op.Transacts (fun _ => True) (readAccMode acc c) :=
  Op.transacts_bind (cacheRead_transacts acc) fun _ _ => Op.transacts_pure trivial

theorem cfgResult_transacts (cfg : Descriptor) (f : CfgFlags) (pos : Nat) :
    Op.Transacts (Response.Success s) (cfgResult cfg f pos) :=
  Op.transacts_bind (cacheRead_transacts cfg) fun _ _ => Op.transacts_pure Response.success_of_numbers

/-- A measurement: the configuration and then one register, whatever is computed from them. -/
theorem measurement_transacts {Q : α → Prop} (c : Fin 4) (cfg raw : Descriptor)
    {f : CfgFlags × CfgFlags → Value → Op α} (hf : ∀ x v, Op.Transacts Q (f x v)) :
    Op.Transacts Q (readCfg cfg c >>= fun x => cacheRead raw >>= f x) :=
  Op.transacts_bind (readCfg_transacts cfg c) fun _ _ =>
    Op.transacts_bind (cacheRead_transacts raw) fun _ _ => hf _ _

theorem vbusValue_transacts (c : Fin 4) (cfg raw : Descriptor) :
    Op.Transacts (Response.Success s) (vbusValue c cfg raw) :=
  measurement_transacts c cfg raw fun _ _ =>
    Op.transacts_bind Op.transacts_get fun _ _ => Op.transacts_pure Response.success_of_numbers

theorem vsenseValue_transacts (c : Fin 4) (cfg raw : Descriptor) :
    Op.Transacts (fun _ => True) (vsenseValue c cfg raw) :=
  measurement_transacts c cfg raw fun _ _ => Op.transacts_pure trivial

theorem vsenseResult_transacts (c : Fin 4) (cfg raw : Descriptor) :
    Op.Transacts (Response.Success s) (vsenseResult c cfg raw) :=
  Op.transacts_bind (vsenseValue_transacts c cfg raw) fun _ _ => Op.transacts_pure Response.success_of_numbers

theorem currentResult_transacts (c : Fin 4) (cfg raw : Descriptor) :
    Op.Transacts (Response.Success s) (currentResult c cfg raw) :=
  Op.transacts_bind (vsenseValue_transacts c cfg raw) fun _ _ =>
    Op.transacts_bind Op.transacts_get fun _ _ => Op.transacts_pure Response.success_of_numbers

theorem vaccValue_transacts (c : Fin 4) (mode : BitVec 2) (cfg raw : Descriptor) :
    Op.Transacts (fun _ => True) (vaccValue c mode cfg raw) :=
  measurement_transacts c cfg raw fun _ _ =>
    Op.transacts_bind Op.transacts_get fun _ _ => Op.transacts_pure trivial

end Telemetry

/-! How an operation can end, said once for all operations. -/

/-- The ways operation `i` on the block `s` can end: a success; the error of a check, which changes nothing else
and is `NotInitialised` only where the operation needs a handle and there is none (rule R155); the error of a
transaction, which is raised with a state that `F` describes. -/
inductive Ending (i : Instr) (F : Err → State → Prop) (s : State) : State → Prop
  | success {r : Response} {u : State} (h : r.Success s) : Ending i F s (u.reply r)
  | check {e : Err} (h : e = .notInitialised → i.needsInit = true ∧ s.handle.initialised = false) :
      Ending i F s (s.raise e)
  | transaction {e : Err} {u : State} (h : F e u) : Ending i F s (u.raise e)

/-- Where this outcome of operation `i` on `s` is a next state, that is one of its endings. -/
def endsBy (i : Instr) (F : Err → State → Prop) (s : State) (o : Out) : Prop :=
  ∀ t, o = .next t → Ending i F s t

section Endings
variable {α : Type} {i : Instr} {F : Err → State → Prop} {s : State}

theorem endsBy.mono {G : Err → State → Prop} {o : Out} (ho : endsBy i F s o) (h : ∀ e u, F e u → G e u) :
    endsBy i G s o := fun t ht =>
  match ho t ht with
  | .success hr => .success hr
  | .check he => .check he
  | .transaction hF => .transaction (h _ _ hF)

theorem serve_endsBy_pure {r : Response} (hr : r.Success s) : endsBy i F s (serve s (pure r)) := by
  intro t h
  cases h
  exact .success hr

/-- A check, and then what is left of the operation. -/
theorem serve_endsBy_check {P : α → Prop} {x : Op α} {f : α → Op Response} (hx : Op.Checks s P x)
    (hf : ∀ a, P a → endsBy i F s (serve s (f a))) : endsBy i F s (serve s (x >>= f)) := by
  rcases hx with ⟨a, hrun, ha⟩ | ⟨e, hrun, he⟩
  · rw [serve_bind_ok hrun]
    exact hf a ha
  · rw [serve_bind_error hrun]
    intro t h
    cases h
    exact .check fun hne => absurd hne he

/-- The check of rule R155 in the operation, and then what is left of it. -/
theorem serve_endsBy_needInit (hi : i.needsInit = true) {f : Unit → Op Response}
    (hf : endsBy i F s (serve s (f ()))) : endsBy i F s (serve s (needInit >>= f)) := by
  cases hinit : s.handle.initialised with
  | true =>
    rw [serve_initialised hinit]
    exact hf
  | false =>
    rw [serve_notInitialised hinit]
    intro t h
    cases h
    exact .check (e := .notInitialised) fun _ => ⟨hi, hinit⟩

/-- One step that is no check, and then the response. -/
theorem serve_endsBy_last {x : Op α} {f : α → Response} (hok : ∀ a u, x s = .ok a u → (f a).Success s)
    (herror : ∀ e u, x s = .error e u → F e u) : endsBy i F s (serve s (x >>= fun a => pure (f a))) := by
  intro t h
  cases hrun : x s with
  | ok a u =>
    rw [serve_bind_pure hrun] at h
    cases h
    exact .success (u := u) (hok a u hrun)
  | error e u =>
    rw [serve_bind_error hrun] at h
    cases h
    exact .transaction (u := u) (herror e u hrun)

theorem serve_endsBy_transacts {x : Op Response} (hx : Op.Transacts (Response.Success s) x) :
    endsBy i s.FailedOnBus s (serve s x) := by
  intro t h
  rcases serve_next s x h with ⟨r, u, hrun, rfl⟩ | ⟨e, u, hrun, rfl⟩
  · exact .success (hx.ok hrun).2
  · exact .transaction (hx.error hrun)

/-- The check of rule R155 before the operation. -/
theorem whenInit_endsBy (hi : i.needsInit = true) {k : Out} (hk : endsBy i F s k) :
    endsBy i F s (whenInit s k) := by
  intro t h
  rcases whenInit_cases h with ⟨hinit, he⟩ | ⟨-, he⟩
  · cases he
    exact .check fun _ => ⟨hi, hinit⟩
  · exact hk t he.symm

/-- The checks of rule R121 before the operation. -/
theorem checkCh_endsBy (hi : i.needsInit = true) {ch : Byte} {k : Fin 4 → Out} (hk : ∀ c, endsBy i F s (k c)) :
    endsBy i F s (checkCh ch s k) := by
  intro t h
  rcases checkCh_cases h with ⟨hinit, he⟩ | ⟨-, -, he⟩ | ⟨-, c, -, -, he⟩
  · cases he
    exact .check fun _ => ⟨hi, hinit⟩
  · cases he
    exact .check fun hne => by cases hne
  · exact hk c t he.symm

theorem withDesc_endsBy {q : Reg} {ok : Codec → Bool} {k : Descriptor → Out} (hk : ∀ d, endsBy i F s (k d)) :
    endsBy i F s (withDesc s q ok k) := by
  intro t h
  rcases withDesc_cases h with he | ⟨c, -, -, he⟩
  · cases he
  · exact hk c.desc t he.symm

theorem cfgOp_endsBy (hi : i.needsInit = true) (ch : Byte) {op : Fin 4 → Descriptor → Op Response}
    (h : ∀ c cfg, Op.Transacts (Response.Success s) (op c cfg)) : endsBy i s.FailedOnBus s (cfgOp ch s op) :=
  checkCh_endsBy hi fun c => withDesc_endsBy fun cfg => serve_endsBy_transacts (h c cfg)

theorem measureOp_endsBy (hi : i.needsInit = true) (ch : Byte) (reg : Fin 4 → Reg)
    {op : Fin 4 → Descriptor → Descriptor → Op Response}
    (h : ∀ c cfg raw, Op.Transacts (Response.Success s) (op c cfg raw)) :
    endsBy i s.FailedOnBus s (measureOp ch s reg op) :=
  checkCh_endsBy hi fun c => withDesc_endsBy fun cfg => withDesc_endsBy fun raw =>
    serve_endsBy_transacts (h c cfg raw)

/-- One check, and then a response that rests on nothing else. -/
theorem checked_endsBy {P : α → Prop} {x : Op α} (hx : Op.Checks s P x) {f : α → Response}
    (hf : ∀ a, P a → (f a).Success s) : endsBy i F s (serve s (x >>= fun a => pure (f a))) :=
  serve_endsBy_check hx fun a ha => serve_endsBy_pure (hf a ha)

end Endings

/-! The operations that share their meanings, and those at a register address. -/

section Operations
variable {i : Instr} {F : Err → State → Prop} {s : State}

/-- An operation whose one check is of its operand's width. -/
theorem needWidth_endsBy (width : Nat) (v : Word) {f : Unit → Response} (hf : ∀ a, (f a).Success s) :
    endsBy i F s (serve s (needWidth width v >>= fun a => pure (f a))) :=
  checked_endsBy (needWidth_checks _ _) fun a _ => hf a

theorem decodeInt_endsBy (k : Codec) : endsBy i F s (decodeInt k s) :=
  checked_endsBy (decodeWire_checks _ _) fun _ _ => Response.success_of_numbers

theorem encodeWire_length_ival (k : Codec) (v : Word) : (encodeWire k { ival := v }).length ≤ 8 := by
  cases k <;> simp [encodeWire]

theorem encodeInt_endsBy (k : Codec) (width : Nat) : endsBy i F s (encodeInt k width s) :=
  needWidth_endsBy _ _ fun _ => ⟨rfl, rfl, fun _ => encodeWire_length_ival _ _⟩

/-- A byte array is as long as its codec says. -/
theorem decodeWire_ba_length {n : Nat} {b : List Byte} {v : Value} (h : decodeWire (.ba n) b = .ok v) :
    v.bytes.length = n := by
  have hfits := decodeWire_fits h
  simp only [Value.fits, Bool.and_eq_true, beq_iff_eq] at hfits
  exact hfits.2

theorem byteArray_endsBy (n : Byte) : endsBy i F s (byteArray n s) := by
  refine serve_endsBy_check (P := fun _ => n.toNat ≤ 8)
    (failIf_checks (fun h => by simpa using h) (by simp)) fun _ hn => ?_
  exact checked_endsBy (decodeWire_checks _ _) fun v hv => ⟨rfl, rfl, fun _ => by
    simpa only [decodeWire_ba_length hv] using hn⟩

theorem execXbits_endsBy (pos width : Byte) : endsBy i F s (execXbits pos width s) := by
  refine serve_endsBy_check (P := fun _ => True) (failIf_checks (fun _ => trivial) (by simp)) fun _ _ => ?_
  exact checked_endsBy (P := fun _ => True) (failIf_checks (fun _ => trivial) (by simp))
    fun _ _ => Response.success_of_numbers

theorem execScale_endsBy (mode : Byte) : endsBy i F s (execScale mode s) := by
  refine serve_endsBy_check (needLegal_checks _) fun _ _ => ?_
  cases scaleWidth mode with
  | none =>
    intro t h
    cases h
    exact .check (e := .illegalOperation s.port.word) (by simp)
  | some w => exact needWidth_endsBy _ _ fun _ => Response.success_of_numbers

/-- A value that fits the codec of a legal row fits the ports (rules R52, R56, R57). -/
theorem Value.bytes_length_le {d : Descriptor} {v : Value} (hlegal : d.legal = true)
    (hfits : v.fits d.codec = true) : v.bytes.length ≤ 8 := by
  simp only [Descriptor.legal, Bool.and_eq_true, beq_iff_eq, decide_eq_true_eq] at hlegal
  obtain ⟨hwire, hle⟩ := hlegal
  by_cases hba : ∃ n, d.codec = .ba n
  · obtain ⟨n, hn⟩ := hba
    simp only [hn, Value.fits, Codec.wireLength, Bool.and_eq_true, beq_iff_eq] at hfits hwire
    calc v.bytes.length = n := hfits.2
      _ = d.wireLength := hwire.symm
      _ ≤ 8 := hle
  · simp [Value.bytes_of_fits hfits fun n hn => hba ⟨n, hn⟩]

/-- What a read at a row's address answers fits the ports, on a block that keeps its invariant. -/
theorem cacheRead_bytes_length_le {addr : Byte} {d : Descriptor} {v : Value} {t : State}
    (hlookup : s.lookup addr = some d) (hrun : cacheRead d s = .ok v t) (hinv : s.inv = true) :
    v.bytes.length ≤ 8 := by
  obtain ⟨hlegal, -, -⟩ := State.inv_iff.mp hinv
  have hd := (State.lookup_some hlookup).2
  obtain ⟨c, hc, rfl⟩ := List.mem_map.mp hd
  exact Value.bytes_length_le ((State.legal_parts hlegal).1 _ hd)
    (cacheRead_fits hinv (State.legal_cacheReg hlegal hc) hrun)

/-- `e`, raised with the state `t`, is a transaction's, and the Cache Register file is that of `s`. -/
def State.FailedUncached (s : State) (e : Err) (t : State) : Prop := s.FailedOnBus e t ∧ t.cache = s.cache

theorem execCread_endsBy (addr : Byte) : endsBy (.cread addr) s.FailedUncached s (execCread addr s) := by
  refine serve_endsBy_needInit rfl (serve_endsBy_check (lookupAddr_checks addr) fun d hlookup => ?_)
  refine serve_endsBy_check (needLegal_checks _) fun _ _ => ?_
  exact serve_endsBy_last
    (fun v u hrun => ⟨rfl, rfl, cacheRead_bytes_length_le hlookup hrun⟩)
    (fun e u hrun => ⟨(cacheRead_transacts d).error hrun, cacheRead_error_cache hrun⟩)

theorem execCwrite_endsBy (addr : Byte) : endsBy (.cwrite addr) s.FailedUncached s (execCwrite addr s) := by
  refine serve_endsBy_needInit rfl (serve_endsBy_check (lookupAddr_checks addr) fun d _ => ?_)
  refine serve_endsBy_check (writeOperand_checks _ _) fun v _ => ?_
  exact serve_endsBy_last (fun _ _ _ => Response.success_of_numbers)
    (fun e u hrun => ⟨(cacheWrite_transacts d v).error hrun, cacheWrite_error_cache hrun⟩)

theorem execCinv_endsBy (addr : Byte) : endsBy (.cinv addr) F s (execCinv addr s) := by
  refine serve_endsBy_needInit rfl (serve_endsBy_check (lookupAddr_checks addr) fun d _ => ?_)
  exact serve_endsBy_last (fun _ _ _ => Response.success_of_numbers) (fun _ _ hrun => by cases hrun)

theorem execCvalid_endsBy (addr : Byte) : endsBy (.cvalid addr) F s (execCvalid addr s) := by
  refine serve_endsBy_needInit rfl (serve_endsBy_check (lookupAddr_checks addr) fun d _ => ?_)
  exact serve_endsBy_last (fun _ _ _ => Response.success_of_numbers) (fun _ _ hrun => by cases hrun)

theorem execCinvall_endsBy : endsBy .cinvall F s (execCinvall s) :=
  serve_endsBy_needInit rfl <|
    serve_endsBy_last (fun _ _ _ => Response.success_of_numbers) (fun _ _ hrun => by cases hrun)

/-- The shape of the three refresh operations. -/
theorem refresh_endsBy (hi : i.needsInit = true) (q : Reg) :
    endsBy i s.FailedOnBus s (whenInit s (withDesc s q (· == .void) fun d => serve s (refreshWith d))) :=
  whenInit_endsBy hi <| withDesc_endsBy fun d => serve_endsBy_transacts (refreshWith_transacts d)

theorem execGetAccmode_endsBy (ch : Byte) : endsBy (.getAccmode ch) s.FailedOnBus s (execGetAccmode ch s) :=
  checkCh_endsBy rfl fun c => withDesc_endsBy fun acc => serve_endsBy_transacts <|
    Op.transacts_bind (readAccMode_transacts acc c) fun _ _ => Op.transacts_pure Response.success_of_numbers

theorem execGetVacc_endsBy (ch : Byte) : endsBy (.getVacc ch) s.FailedOnBus s (execGetVacc ch s) :=
  checkCh_endsBy rfl fun c => withDesc_endsBy fun acc => withDesc_endsBy fun cfg => withDesc_endsBy fun raw =>
    serve_endsBy_transacts <| Op.transacts_bind (readAccMode_transacts acc c) fun mode _ =>
      Op.transacts_bind (vaccValue_transacts c mode cfg raw) fun _ _ =>
        Op.transacts_pure Response.success_of_numbers

theorem execGetFs_endsBy : endsBy .getFs s.FailedOnBus s (execGetFs s) :=
  whenInit_endsBy rfl <| withDesc_endsBy fun ctrl => serve_endsBy_transacts <|
    Op.transacts_bind (cacheRead_transacts ctrl) fun _ _ =>
      Op.transacts_bind Op.transacts_get fun _ _ => Op.transacts_pure Response.success_of_numbers

theorem execGetEnergy_endsBy (ch : Byte) : endsBy (.getEnergy ch) s.FailedOnBus s (execGetEnergy ch s) := by
  refine checkCh_endsBy rfl fun c => withDesc_endsBy fun acc => withDesc_endsBy fun ctrl =>
    withDesc_endsBy fun cfg => withDesc_endsBy fun raw => serve_endsBy_transacts ?_
  refine Op.transacts_bind (readAccMode_transacts acc c) fun mode _ => ?_
  split
  · exact Op.transacts_pure Response.success_of_numbers
  · refine Op.transacts_bind (cacheRead_transacts ctrl) fun v _ =>
      Op.transacts_bind Op.transacts_get fun t _ => ?_
    split
    · exact Op.transacts_pure Response.success_of_numbers
    · exact Op.transacts_bind (vaccValue_transacts c 0 cfg raw) fun _ _ =>
        Op.transacts_pure Response.success_of_numbers

/-- Every operation ends in one of the three ways. -/
theorem exec_endsBy (i : Instr) (s : State) : endsBy i s.FailedOnBus s (exec i s) := by
  cases i with
  | decV | decU8 | decU16 | decU32 | decU56 | decPid => exact decodeInt_endsBy _
  | encU8 | encU16 | encU32 | encU56 | encPid => exact encodeInt_endsBy _ _
  | decBa n | encBa n => exact byteArray_endsBy n
  | encV => exact serve_endsBy_pure ⟨rfl, rfl, fun _ => Nat.zero_le 8⟩
  | xbits pos width => exact execXbits_endsBy pos width
  | sext16 | sext32 | sext56 | cfgdec | accdec | smdec =>
    exact needWidth_endsBy _ _ fun _ => Response.success_of_numbers
  | i2fS | i2fU | fscale => exact serve_endsBy_pure Response.success_of_numbers
  | actcnt cap | fsdec cap => exact checked_endsBy (needCap_checks _ _) fun _ _ => Response.success_of_numbers
  | scale mode => exact execScale_endsBy mode
  | lookup addr => exact checked_endsBy (lookupAddr_checks addr) fun _ _ => Response.success_of_numbers
  | cread addr => exact (execCread_endsBy addr).mono fun _ _ h => h.1
  | cwrite addr => exact (execCwrite_endsBy addr).mono fun _ _ h => h.1
  | cinv addr => exact execCinv_endsBy addr
  | cvalid addr => exact execCvalid_endsBy addr
  | cinvall => exact execCinvall_endsBy
  | refresh | refreshG | refreshV => exact refresh_endsBy rfl _
  | init =>
    rw [exec, execInit]
    exact withDesc_endsBy fun d => serve_endsBy_transacts (initWith_transacts d)
  | getVbus ch | getVbusavg ch => exact measureOp_endsBy rfl ch _ vbusValue_transacts
  | getVsense ch | getVsenseavg ch => exact measureOp_endsBy rfl ch _ vsenseResult_transacts
  | getCurrent ch | getCurrentavg ch => exact measureOp_endsBy rfl ch _ currentResult_transacts
  | getPower ch =>
    rw [exec, execGetPower]
    exact measureOp_endsBy rfl ch _ fun c cfg raw => measurement_transacts c cfg raw fun _ _ =>
      Op.transacts_bind Op.transacts_get fun _ _ => Op.transacts_pure Response.success_of_numbers
  | lsbVbus ch =>
    rw [exec, execLsbVbus]
    exact cfgOp_endsBy rfl ch fun c cfg => Op.transacts_bind (readCfg_transacts cfg c) fun _ _ =>
      Op.transacts_bind Op.transacts_get fun _ _ => Op.transacts_pure Response.success_of_numbers
  | lsbPower ch =>
    rw [exec, execLsbPower]
    exact cfgOp_endsBy rfl ch fun c cfg => Op.transacts_bind (readCfg_transacts cfg c) fun _ _ =>
      Op.transacts_bind Op.transacts_get fun _ _ => Op.transacts_pure Response.success_of_numbers
  | lsbVsense ch =>
    rw [exec, execLsbVsense]
    exact cfgOp_endsBy rfl ch fun c cfg => Op.transacts_bind (readCfg_transacts cfg c) fun _ _ =>
      Op.transacts_pure Response.success_of_numbers
  | getVcfg ch =>
    rw [exec, execGetVcfg]
    exact cfgOp_endsBy rfl ch fun c cfg => Op.transacts_bind (readCfg_transacts cfg c) fun _ _ =>
      cfgResult_transacts cfg _ _
  | getIcfg ch =>
    rw [exec, execGetIcfg]
    exact cfgOp_endsBy rfl ch fun c cfg => Op.transacts_bind (readCfg_transacts cfg c) fun _ _ =>
      cfgResult_transacts cfg _ _
  | getAccmode ch => exact execGetAccmode_endsBy ch
  | getVacc ch => exact execGetVacc_endsBy ch
  | getEnergy ch => exact execGetEnergy_endsBy ch
  | getFs => exact execGetFs_endsBy

end Operations

/-! The statements: the response of an ending is the one on top. -/

section Statements
variable {i : Instr} {F : Err → State → Prop} {s t : State} {x : Response}

/-- The response an ending adds is a success's, or an error's whose ending was a check or a transaction. -/
theorem Ending.response_cases (h : Ending i F s t) (hx : t.responses = x :: s.responses) :
    x.Success s ∨ ∃ e : Err, x = e.response ∧
      (((e = .notInitialised → i.needsInit = true ∧ s.handle.initialised = false) ∧
          t = { s with responses := x :: s.responses }) ∨
        ∃ u : State, F e u ∧ t = u.raise e) := by
  cases h with
  | success hr =>
    obtain rfl := (List.cons.inj hx).1
    exact .inl hr
  | @check e he =>
    obtain rfl := (List.cons.inj hx).1
    exact .inr ⟨e, rfl, .inl ⟨he, rfl⟩⟩
  | @transaction e u hF =>
    obtain rfl := (List.cons.inj hx).1
    exact .inr ⟨e, rfl, .inr ⟨u, hF, rfl⟩⟩

/-- An error leaves everything as it was, or is a transaction's. -/
theorem Ending.error_cases (h : Ending i F s t) (hx : t.responses = x :: s.responses) (hstatus : x.status ≠ 0) :
    t = { s with responses := x :: s.responses } ∨ ∃ e u, F e u ∧ x = e.response ∧ t = u.raise e := by
  rcases h.response_cases hx with hr | ⟨e, rfl, ⟨-, ht⟩ | ⟨u, hF, ht⟩⟩
  · exact absurd hr.status hstatus
  · exact .inl ht
  · exact .inr ⟨e, u, hF, rfl, ht⟩

/-- An error of CREAD or CWRITE leaves the Cache Register file as it was: the fill is their last step. -/
theorem execCread_execCwrite_error_cache {addr : Byte} (hi : i = .cread addr ∨ i = .cwrite addr)
    (hexec : exec i s = .next t) (hx : t.responses = x :: s.responses) (hstatus : x.status ≠ 0) :
    t.cache = s.cache := by
  have hending : Ending i s.FailedUncached s t := by
    rcases hi with rfl | rfl
    · exact execCread_endsBy addr t hexec
    · exact execCwrite_endsBy addr t hexec
  rcases hending.error_cases hx hstatus with ht | ⟨e, u, hfail, -, ht⟩ <;> rw [ht]
  exact hfail.2

/-- A telemetry operation clears no flag, and writes no register and no handle. -/
theorem Instr.telemetry_keeps (hi : i.channel.isSome = true ∨ i = .getFs) :
    i.invalidates = false ∧ (∀ a, i ≠ .cwrite a) ∧ i ≠ .init := by
  rcases hi with hch | rfl
  · cases i <;> simp_all [Instr.channel, Instr.invalidates]
  · simp [Instr.invalidates]

end Statements

/-- Settles O58: an error is a check's, which leaves everything as it was, or a transaction's, whose status is
another and whose event is on the bus; the rest is what CREAD, CWRITE and the telemetry operations keep. -/
theorem errorsLeaveState : Obligations.ErrorsLeaveState := by
  unfold Obligations.ErrorsLeaveState
  intro i s t x hexec hx hstatus
  have hcases := (exec_endsBy i s t hexec).error_cases hx hstatus
  refine ⟨fun hkind => ?_, fun htrace _ => ?_, fun addr hi => ⟨?_, ?_⟩, fun hi => ?_⟩
  · rcases hcases with ht | ⟨e, u, hfail, rfl, -⟩
    · exact ht
    · exact absurd hkind hfail.error.status_notMem
  · rcases hcases with ht | ⟨e, u, hfail, -, rfl⟩
    · exact ht
    · exact absurd (congrArg List.length htrace) hfail.event.ne'
  · exact handleWrittenOnlyByInit i s t (by rcases hi with rfl | rfl <;> simp) hexec
  · exact execCread_execCwrite_error_cache hi hexec hx hstatus
  · obtain ⟨hclears, hwrites, hinit⟩ := Instr.telemetry_keeps hi
    exact ⟨handleWrittenOnlyByInit i s t hinit hexec, fun r => exec_keepsHit hclears hwrites t hexec⟩

/-- Without a handle an operation that needs one answers `NotInitialised` (rule R155): the check stands before
everything else it does. -/
theorem exec_notInitialised {i : Instr} {s : State} (hneeds : i.needsInit = true)
    (hinit : s.handle.initialised = false) : exec i s = s.answeredError 7 0 := by
  cases hch : i.channel with
  | some ch => exact (channelCheck s i ch hch).1 hinit
  | none =>
    cases i with
    | cread | cwrite | cinv | cvalid | cinvall => exact serve_notInitialised hinit _
    | refresh | refreshG | refreshV | getFs => exact whenInit_fail hinit
    | _ => simp [Instr.needsInit, Instr.channel] at hneeds hch

/-- Settles O56: the check stands first, and no other way to end is `NotInitialised`. -/
theorem notInitialisedExactly : Obligations.NotInitialisedExactly := by
  unfold Obligations.NotInitialisedExactly
  refine ⟨fun i s => exec_notInitialised, fun i s t x hready hexec hx hseven => ?_⟩
  rcases (exec_endsBy i s t hexec).response_cases hx with hr | ⟨e, rfl, hend⟩
  · simp [hr.status] at hseven
  · have he : e = .notInitialised := e.status_eq_seven_iff.mp hseven
    rcases hend with ⟨hcheck, -⟩ | ⟨u, hfail, -⟩
    · obtain ⟨hneeds, hinit⟩ := hcheck he
      simp [hneeds, hinit] at hready
    · exact hfail.error.ne_notInitialised he

/-- Settles O59: a response is a success's, without a payload, or an error's, which sets status, info and payload
only. -/
theorem statusCodes : Obligations.StatusCodes := by
  unfold Obligations.StatusCodes
  intro i s t x hexec hx
  rcases (exec_endsBy i s t hexec).response_cases hx with ⟨hstatus, hpayload, hbytes⟩ | ⟨e, rfl, -⟩
  · refine ⟨by simp [hstatus], by simp [hpayload, hstatus], fun hne => absurd hstatus hne, hbytes⟩
  · exact ⟨e.status_le, e.payload_isSome_iff, fun _ => ⟨rfl, rfl, rfl, rfl⟩, fun _ => Nat.zero_le 8⟩

end Sys2Proof.Machine
end
